-- ==== Sys2Proof/Word.lean ====
section
/-! DEFINITION. The word types of B64CORE: a byte, a sextet, a 16-lane vector (00_scope.md R8, R10). -/

namespace Sys2Proof

/-- A byte, 0..255, always unsigned (R8, R117). -/
abbrev Byte := BitVec 8

/-- A 6-bit index into the Alphabet, 0..63 (R8, R14). -/
abbrev Sextet := BitVec 6

/-- A vector: exactly 16 byte lanes, lane `i` the byte at address base + `i` (R10, R46). -/
abbrev Lanes := Vector Byte 16

end Sys2Proof
end

