-- ==== Sys2Proof/Config.lean ====
section
/-! DEFINITION. What an implementation fixes: the constants of 00_scope.md R6 that are bytes, the open parameters
of R7 as plain data, and the free values behind the two parameters that are functions. The counts of R6 (VW = 16,
ENC_IN = 12, ENC_OUT = 16, DEC_IN = 16, DEC_OUT = 12, SLACK = 16) stand as numerals in the rules that use them, as
the spec's own pseudocode writes them. -/

namespace Sys2Proof.Config

/-- `ENC_FILL` (R6): fills the unused lanes of the encode scratch window. -/
abbrev encFill : Byte := 0x00#8

/-- `DEC_FILL` (R6): `'A'`, fills the unused lanes of the decode scratch window. -/
abbrev decFill : Byte := 0x41#8

/-- `PAD` (R6): `'='`. -/
abbrev pad : Byte := 0x3D#8

/-- How a parameter that is a function is given: the spec's own default (R7), or an arbitrary function, named by a
number, of which nothing is known. -/
inductive OpenValue where
  | specDefault
  | free (n : Nat)
deriving DecidableEq, Repr

/-- FREE VALUE: the `n`-th arbitrary `ILLEGAL_SEXTET`, a function of the illegal byte alone (R123). -/
opaque freeIllegalSextet : Nat → Byte → Sextet

/-- FREE VALUE: the `n`-th arbitrary `DEC_SLACK`, a function of ChunkDecoder's input vector (R122). -/
opaque freeDecSlack : Nat → Lanes → Vector Byte 4

/-- The parameters the source leaves open (R7). A model takes each as an argument: here they are a part of the
state that no step writes, so a statement about every state is a statement about every choice of them. -/
structure Params where
  /-- `AW`: width in bits of every length and cursor register. -/
  aw : Nat
  /-- `IN_MAX`: number of addressable bytes of `IN`. -/
  inMax : Nat
  /-- `OUT_MAX`: number of addressable bytes of `OUT`. -/
  outMax : Nat
  /-- `ILLEGAL_SEXTET`. -/
  illegalSextet : OpenValue
  /-- `DEC_SLACK`. -/
  decSlack : OpenValue
deriving DecidableEq, Repr

/-- The defaults of R7. -/
def Params.default : Params where
  aw := 32
  inMax := 2 ^ 32 - 1
  outMax := 2 ^ 32 - 1
  illegalSextet := .specDefault
  decSlack := .specDefault

end Sys2Proof.Config
end

