-- ==== Sys2Proof/Syntax.lean ====
section
/-! DEFINITION. The whole syntax: the six commands of 30_encoding.md R72, the host accesses of
45_host_interface.md R175, the events that drive the block, and the host-program lines of R78. -/

namespace Sys2Proof

/-- The six commands (R72), one constructor per row of spec/opcode_table.json. No command carries an operand
(R73): operands are found in `SRC_LEN` and `IN`. -/
inductive Instr where
  | encode
  | decode
  | encchunk
  | decchunk
  | enclen
  | declen
deriving DecidableEq, Repr

/-- The four host-visible registers (R26). -/
inductive HostReg where
  | cmd
  | status
  | srcLen
  | dstLen
deriving DecidableEq, Repr

/-- One indivisible access of the host (R175). Registers go by their number (the `i` of `x[i]`, R26), so that an
access to a number that does not exist can be written down and is refused. The data of a register write is a
natural number, so that data too wide for the register can be written down and is refused. -/
inductive HostAccess where
  | writeReg (i v : Nat)
  | readReg (i : Nat)
  | writeIn (a : Nat) (b : Byte)
  | readIn (a : Nat)
  | writeOut (a : Nat) (b : Byte)
  | readOut (a : Nat)
deriving DecidableEq, Repr

/-- What moves the block next: a host access, the host's polling loop (R182), a turn given to the sequencer
(R12), or a reset from the platform (R215). -/
inductive Event where
  | access (x : HostAccess)
  | wait
  | sequencer
  | reset
deriving DecidableEq, Repr

/-- What a host read gives back (R175, R185). -/
inductive Reply where
  | reg (i v : Nat)
  | inByte (a : Nat) (b : Byte)
  | outByte (a : Nat) (b : Byte)
deriving DecidableEq, Repr

/-- One line of a host program (R78). -/
inductive HostLine where
  | command (i : Instr)
  | cmdw (w : Nat)
  | setlen (n : Nat)
  | ldin (a : Nat) (bytes : List Byte)
  | wait
  | rdstatus
  | rdlen
  | rdout (a n : Nat)
deriving DecidableEq, Repr

end Sys2Proof
end

