-- ==== Sys2Proof/Machine/State.lean ====
section
/-! DEFINITION. The state of B64CORE, whole (10_state.md), the reasons a step can stop, and the state after reset.
`none` in an optional field is the spec's own `NOVALUE` (R15): the spec gives it as a value of the field, it is what
reset leaves there (R37), and rules write it (R177, R178, R197, R198). -/

namespace Sys2Proof.Machine

/-- The stages of the sequencer, the values of `PHASE` (10_state.md R22). The values 10 to 15 are never written by
any rule, and an enumeration of the ten loses nothing (93_implementation_defined.md U11). -/
inductive Phase where
  | idle
  | eCheck
  | eFast
  | eTail
  | eFinal
  | dTrim
  | dFast
  | dTail
  | dFinal
  | uExec
deriving DecidableEq, Repr

/-- The result codes of 60_exceptions.md R190. -/
inductive ErrCode where
  | ok
  | emptyInput
  | invalidCharacter
  | illegalCommand
  | range
deriving DecidableEq, Repr

/-- A buffer space, `IN` or `OUT` (R33, R34): the bytes that hold a value, addresses strictly rising. An address that
is not listed holds `NOVALUE`, which is no byte, so no entry can equal what an unlisted address reads as. -/
abbrev Memory := List Host.Cell

/-- The canonical form: addresses strictly rising. -/
abbrev Memory.wf (m : Memory) : Prop := m.Pairwise fun x y => x.1 < y.1

/-- Why the sequencer has no step. Each stops where the spec gives no step, so each is safe. -/
inductive Fault where
  /-- `MemRead(IN, ...)` is not admitted: a byte holds `NOVALUE` or lies at or beyond `IN_MAX` (20_memory.md R50,
  60_exceptions.md R196 (b)). Raised by every rule that reads `IN`. Safe: the spec gives no step. -/
  | stuckRead
  /-- A working register the rule reads holds `NOVALUE` (10_state.md R15: not admitted, never performed). Raised by
  the phase rules, only in states no run reaches (R38). Safe. -/
  | noValue
  /-- `MemWrite(OUT, ...)` beyond `CAP` is not admitted (20_memory.md R53). Raised by the phase rules, only in states
  no run reaches (R56). Safe. -/
  | noStore
  /-- No rule of the phase has its condition met, or `PHASE` names no rule. Raised by the sequencer and the phase
  rules, only in states no run reaches (10_state.md R22). Safe. -/
  | noPhaseRule
deriving DecidableEq, Repr

/-- Why a host access has no meaning. Each stops where the spec gives no step, so each is safe. -/
inductive Refusal where
  /-- Raised by `exec` for an instruction that has no meaning yet. Safe. -/
  | notModelled (mnemonic : String)
  /-- A stream or length command is written while `SRC_LEN` holds `NOVALUE` (45_host_interface.md R177). Safe. -/
  | commandNotAdmitted
  /-- A host access that R175 does not admit in this state. Raised by the host accesses. Safe. -/
  | accessNotAdmitted
  /-- A register number of 4 or above (10_state.md R26). Raised by the host accesses. Safe. -/
  | noSuchRegister
deriving DecidableEq, Repr

/-- Everything the spec gives the machine (10_state.md), the parameters (00_scope.md R7), and the two fields that
are the model's own: what the host does next, and what it has read so far. -/
structure State where
  /-- The parameters of 00_scope.md R7. No step writes them. -/
  params : Config.Params
  /-- Register 1, `STATUS` (R28). -/
  status : BitVec 8
  /-- Register 2, `SRC_LEN` (R29). -/
  srcLen : Option Nat
  /-- Register 3, `DST_LEN` (R31). -/
  dstLen : Option Nat
  /-- `PHASE`, the program counter of this hardware (R22). -/
  phase : Phase
  /-- `OP`, the latched opcode (R24). -/
  op : Option (BitVec 3)
  /-- `LEN`, the latched input length (R20). -/
  len : Option Nat
  /-- `SLEN`, the stripped length of `DECODE` (R21). -/
  slen : Option Nat
  /-- `RD`, the read cursor (R17). -/
  rd : Option Nat
  /-- `WR`, the write cursor (R18). -/
  wr : Option Nat
  /-- `FEND`, the fast-region boundary of `ENCODE` (R19). -/
  fend : Option Nat
  /-- `CAP`, the output capacity of the running command (R23). -/
  cap : Option Nat
  /-- `ERR`, the sticky error flag of `DECODE` (R25). -/
  err : Bool
  /-- `VIN`, the window given to a kernel (R32). -/
  vin : Option Lanes
  /-- `VOUT`, the result of a kernel (R32). -/
  vout : Option Lanes
  /-- `SCR`, the scratch window (R32). -/
  scr : Option Lanes
  /-- `IN`, the input buffer space (R33). -/
  inBuf : Memory
  /-- `OUT`, the output buffer space (R34). -/
  outBuf : Memory
  /-- MODEL'S OWN: what the host and the platform do next, first first (00_scope.md R12). -/
  host : List Event
  /-- MODEL'S OWN: what the host's reads have returned, oldest first. -/
  replies : List Reply
deriving DecidableEq, Repr

/-- The machine right after reset (R37), with the default parameters (00_scope.md R7) and a host that does nothing. -/
def State.reset : State where
  params := Config.Params.default
  status := 0x00#8
  srcLen := none
  dstLen := none
  phase := .idle
  op := none
  len := none
  slen := none
  rd := none
  wr := none
  fend := none
  cap := none
  err := false
  vin := none
  vout := none
  scr := none
  inBuf := []
  outBuf := []
  host := []
  replies := []

/-- The outcome of a step of this machine. -/
abbrev Out := Host.Outcome State Fault Refusal

end Sys2Proof.Machine
end

