-- ==== Sys2Proof/Machine/Kernels.lean ====
section
/-! DEFINITION. The two kernels, pure functions of a 16-lane vector: ChunkEncoder (41_chunk_encoder.md) and
ChunkDecoder (42_chunk_decoder.md). -/

namespace Sys2Proof.Machine

/-- `Sextets(b0, b1, b2)` (R102). -/
def sextets (b0 b1 b2 : Byte) : Vector Sextet 4 :=
  #v[(b0 >>> 2).setWidth 6,
     (((b0 &&& 0x03#8) <<< 4) ||| (b1 >>> 4)).setWidth 6,
     (((b1 &&& 0x0F#8) <<< 2) ||| (b2 >>> 6)).setWidth 6,
     (b2 &&& 0x3F#8).setWidth 6]

/-- `Sym(s)` (R104): five ranges, one offset each, the addition modulo 256. -/
def sym (s : Sextet) : Byte :=
  let z : Byte := s.setWidth 8
  if s.toNat ≤ 25 then z + 0x41#8
  else if s.toNat ≤ 51 then z + 0x47#8
  else if s.toNat ≤ 61 then z + 0xFC#8
  else if s.toNat = 62 then z + 0xED#8
  else z + 0xF0#8

/-- `EncChunk(V)` (R100): output lane `i = 4g + j` is the symbol of sextet `j` of group `g`, which is input lanes `3g`,
`3g + 1`, `3g + 2`. -/
def encChunk (v : Lanes) : Lanes :=
  v.mapFinIdx fun i _ _ =>
    sym ((sextets (v[3 * (i / 4)]'(by omega)) (v[3 * (i / 4) + 1]'(by omega))
      (v[3 * (i / 4) + 2]'(by omega)))[i % 4]'(by omega))

/-- The 6-bit value of a legal byte, by the five ranges of R117, none for an illegal byte. -/
def symbolValue (c : Byte) : Option Sextet :=
  if 0x41 ≤ c.toNat ∧ c.toNat ≤ 0x5A then some ((c + 0xBF#8).setWidth 6)
  else if 0x61 ≤ c.toNat ∧ c.toNat ≤ 0x7A then some ((c + 0xB9#8).setWidth 6)
  else if 0x30 ≤ c.toNat ∧ c.toNat ≤ 0x39 then some ((c + 0x04#8).setWidth 6)
  else if c.toNat = 0x2B then some ((c + 0x13#8).setWidth 6)
  else if c.toNat = 0x2F then some ((c + 0x10#8).setWidth 6)
  else none

/-- The first result of `Val(c)`: the byte is one of the 64 of R119. -/
def legal (c : Byte) : Bool := (symbolValue c).isSome

/-- `ILLEGAL_SEXTET` (R123): the parameter, by default the constant 0. -/
def illegalSextet (p : Config.Params) (c : Byte) : Sextet :=
  match p.illegalSextet with
  | .specDefault => 0#6
  | .free n => Config.freeIllegalSextet n c

/-- `DEC_SLACK` (R122): the parameter, by default four bytes of 0x00. -/
def decSlack (p : Config.Params) (v : Lanes) : Vector Byte 4 :=
  match p.decSlack with
  | .specDefault => Vector.replicate 4 0x00#8
  | .free n => Config.freeDecSlack n v

/-- The second result of `Val(c)` (R117): the value of a legal byte, `ILLEGAL_SEXTET(c)` of an illegal one. -/
def laneValue (p : Config.Params) (c : Byte) : Sextet :=
  (symbolValue c).getD (illegalSextet p c)

/-- `Pack(v0, v1, v2, v3)` (R121). The sextets are widened to bytes first, and each left shift is of a masked
operand. -/
def pack (v0 v1 v2 v3 : Sextet) : Vector Byte 3 :=
  let w0 : Byte := v0.setWidth 8
  let w1 : Byte := v1.setWidth 8
  let w2 : Byte := v2.setWidth 8
  let w3 : Byte := v3.setWidth 8
  #v[(w0 <<< 2) ||| (w1 >>> 4),
     ((w1 &&& 0x0F#8) <<< 4) ||| (w2 >>> 2),
     ((w2 &&& 0x03#8) <<< 6) ||| w3]

/-- The data result of `DecChunk(V)` (R115): output lane `i = 3g + k` is byte `k` of group `g`, which is input lanes
`4g` to `4g + 3`; lanes 12 to 15 are `DEC_SLACK` (R122). -/
def decChunk (p : Config.Params) (v : Lanes) : Lanes :=
  v.mapFinIdx fun i _ _ =>
    if h : i < 12 then
      (pack (laneValue p (v[4 * (i / 3)]'(by omega))) (laneValue p (v[4 * (i / 3) + 1]'(by omega)))
        (laneValue p (v[4 * (i / 3) + 2]'(by omega)))
        (laneValue p (v[4 * (i / 3) + 3]'(by omega))))[i % 3]'(by omega)
    else (decSlack p v)[i - 12]'(by omega)

/-- The flag result of `DecChunk(V)` (R120): some lane is illegal. -/
def chunkFlag (v : Lanes) : Bool := v.toList.any fun c => !legal c

end Sys2Proof.Machine
end

