-- ==== Sys2Proof/WellFormed.lean ====
section
/-! DEFINITION. The checks on terms that need no state: a command, a command word, the parameters, a host access. -/

namespace Sys2Proof

/-- Every command is well-formed: none carries an operand (30_encoding.md R73), so there is nothing to check. -/
def Instr.wellFormed : Instr → Bool
  | .encode => true
  | .decode => true
  | .encchunk => true
  | .decchunk => true
  | .enclen => true
  | .declen => true

/-- The form of a legal command word: the reserved field `w[7:3]` is 0 and the opcode `w[2:0]` is not one of the
reserved 6 and 7 (R71, R75). -/
def wordWellFormed (w : BitVec 8) : Bool :=
  w.extractLsb' 3 5 == 0#5 && (w.extractLsb' 0 3).toNat ≤ 5

/-- The bounds of 00_scope.md R7 on the parameters. -/
def Config.Params.wellFormed (p : Config.Params) : Bool :=
  0 < p.aw && p.inMax < 2 ^ p.aw && 16 ≤ p.outMax && p.outMax < 2 ^ p.aw

/-- The part of R175's admission that the access itself decides: it names a register that exists and may be
accessed that way, data that fits, an address that exists; `OUT` is never written. -/
def HostAccess.wellFormed (p : Config.Params) : HostAccess → Bool
  | .writeReg 0 v => v < 256
  | .writeReg 2 v => v < 2 ^ p.aw
  | .writeReg _ _ => false
  | .readReg i => 1 ≤ i && i ≤ 3
  | .writeIn a _ => a < p.inMax
  | .readIn a => a < p.inMax
  | .writeOut _ _ => false
  | .readOut a => a < p.outMax

end Sys2Proof
end

