-- ==== Sys2Proof/Decode.lean ====
section
/-! DEFINITION. Command words: the decoder, total on any bytes and rejecting by name, and after it the encoder
(30_encoding.md R70 to R77). -/

namespace Sys2Proof

/-- Why bytes are no command (R70, R75). -/
inductive DecodeError where
  /-- Not exactly one byte (R70, R77). -/
  | badLength
  /-- `w[7:3]` is not 0 (R75). -/
  | reservedBits
  /-- `w[2:0]` is 6 or 7 (R75). -/
  | reservedOpcode
deriving DecidableEq, Repr

/-- Field `rsv`, bits 7:3 (R71). -/
def wordRsv (w : BitVec 8) : BitVec 5 := w.extractLsb' 3 5

/-- Field `opc`, bits 2:0 (R71). -/
def wordOpc (w : BitVec 8) : BitVec 3 := w.extractLsb' 0 3

/-- The opcode map (R72). Opcodes 6 and 7 are reserved (R75). -/
def commandOf (opc : BitVec 3) : Except DecodeError Instr :=
  match opc.toNat with
  | 0 => .ok .encode
  | 1 => .ok .decode
  | 2 => .ok .encchunk
  | 3 => .ok .decchunk
  | 4 => .ok .enclen
  | 5 => .ok .declen
  | _ => .error .reservedOpcode

/-- Decoding a command word: total on all 256 words, 6 legal and 250 illegal (R75). -/
def decode (w : BitVec 8) : Except DecodeError Instr :=
  if wordRsv w = 0#5 then commandOf (wordOpc w) else .error .reservedBits

/-- Decoding a byte string: a command is one word of exactly 8 bits (R70, R77). -/
def decodeBytes : List Byte → Except DecodeError Instr
  | [w] => decode w
  | _ => .error .badLength

/-- The opcode of a command (R72). -/
def Instr.opcode : Instr → BitVec 3
  | .encode => 0#3
  | .decode => 1#3
  | .encchunk => 2#3
  | .decchunk => 3#3
  | .enclen => 4#3
  | .declen => 5#3

/-- The command word: `rsv` = 0 above the opcode (R71). -/
def encode (i : Instr) : BitVec 8 := 0#5 ++ i.opcode

/-- The bytes of a table word of `nbits` bits, first byte first: bit 0 is the least significant bit of the first. -/
def tableBytes (nbits w : Nat) : List Byte :=
  (List.range (nbits / 8)).map fun k => BitVec.ofNat 8 (w >>> (8 * k))

/-- What the decoder reads from an instruction whose bits are `w`, numbered as the opcode table numbers them. -/
def decodeTableWord (nbits w : Nat) : Option Instr :=
  match decodeBytes (tableBytes nbits w) with
  | .ok i => some i
  | .error _ => none

end Sys2Proof
end

