-- ==== Sys2Proof/Machine/Flags.lean ====
section
/-! DEFINITION. Every flag of the machine: the fields of `STATUS` (10_state.md R28) and how its value is made, and the
sticky accumulation of `ERR` (R25). -/

namespace Sys2Proof.Machine

/-- The number of a result code (60_exceptions.md R190). -/
def ErrCode.code : ErrCode → BitVec 3
  | .ok => 0#3
  | .emptyInput => 1#3
  | .invalidCharacter => 2#3
  | .illegalCommand => 3#3
  | .range => 4#3

/-- A value of `STATUS` from its fields: bits 7:6 are 0, `CF` is bit 5, `ERRC` bits 4:2, `DONE` bit 1, `BUSY` bit 0
(R28). -/
def statusWord (cf : Bool) (errc : ErrCode) (done busy : Bool) : BitVec 8 :=
  0#2 ++ BitVec.ofBool cf ++ errc.code ++ BitVec.ofBool done ++ BitVec.ofBool busy

/-- `STATUS` while a command runs (R30). -/
def statusBusy : BitVec 8 := statusWord false .ok false true

/-- `STATUS` after a command that ended with code `e` and flag `cf` (R30, R197, R198). -/
def statusEnded (e : ErrCode) (cf : Bool) : BitVec 8 := statusWord cf e true false

/-- `STATUS.BUSY` (R28). -/
def State.busy (s : State) : Bool := s.status.getLsbD 0

/-- `STATUS.DONE` (R28). -/
def State.done (s : State) : Bool := s.status.getLsbD 1

/-- `STATUS.ERRC` (R28). -/
def State.errc (s : State) : BitVec 3 := s.status.extractLsb' 2 3

/-- `STATUS.CF` (R28). -/
def State.cf (s : State) : Bool := s.status.getLsbD 5

/-- `ERR <- ERR | f`: set by a chunk's flag, never cleared by one (R25). -/
def stickyErr (err f : Bool) : Bool := err || f

/-- The numeric value of `PHASE` (R22). -/
def Phase.code : Phase → BitVec 4
  | .idle => 0#4
  | .eCheck => 1#4
  | .eFast => 2#4
  | .eTail => 3#4
  | .eFinal => 4#4
  | .dTrim => 5#4
  | .dFast => 6#4
  | .dTail => 7#4
  | .dFinal => 8#4
  | .uExec => 9#4

end Sys2Proof.Machine
end

