-- ==== Sys2Proof/Machine/Ops.lean ====
section
/-! DEFINITION. The named operations over the buffer spaces and the registers (20_memory.md), the start of a command
(45_host_interface.md R177, R178) and its two ends (60_exceptions.md R197, R198), and reset (R215). -/

namespace Sys2Proof.Machine

/-- One byte of a space: none is `NOVALUE` (10_state.md R15, R33, R34). -/
def Memory.read : Memory → Nat → Option Byte
  | [], _ => none
  | (k, v) :: rest, a => if k = a then some v else Memory.read rest a

/-- One byte written, the addresses kept strictly rising. -/
def Memory.write : Memory → Nat → Byte → Memory
  | [], a, b => [(a, b)]
  | (k, v) :: rest, a, b =>
    if a < k then (a, b) :: (k, v) :: rest
    else if a = k then (a, b) :: rest
    else (k, v) :: Memory.write rest a b

/-- The `n` bytes at `a .. a+n-1`, lowest address first (R11, R46), none when one of them is `NOVALUE`. -/
def Memory.readBytes (m : Memory) (a : Nat) : Nat → Option (List Byte)
  | 0 => some []
  | n + 1 =>
    match m.read a, Memory.readBytes m (a + 1) n with
    | some b, some bs => some (b :: bs)
    | _, _ => none

/-- A byte sequence written at `a` up, the first byte at `a` (R11, R46). Where two writes overlap the later one
decides (R55). -/
def Memory.writeBytes (m : Memory) (a : Nat) : List Byte → Memory
  | [] => m
  | b :: bs => Memory.writeBytes (m.write a b) (a + 1) bs

/-- A read that must find a value, or stop with `f`. -/
def orFault {α : Type} (f : Fault) (r : Option α) (k : α → Out) : Out :=
  match r with
  | some v => k v
  | none => .fault f

/-- `MemRead(IN, a, n)` by the sequencer, admitted when `a + n <= IN_MAX` and every byte holds a value (R50). -/
def State.memRead (s : State) (a n : Nat) : Option (List Byte) :=
  if a + n ≤ s.params.inMax then s.inBuf.readBytes a n else none

/-- `MemWrite(OUT, a, n, v)` by the sequencer, admitted when `a + n <= CAP` (R53). `cap` is the value `CAP` has for
this command. Answers the new contents of `OUT`. -/
def State.memWrite (s : State) (cap a : Nat) (bs : List Byte) : Option Memory :=
  if a + bs.length ≤ cap then some (s.outBuf.writeBytes a bs) else none

/-- `raise E` (60_exceptions.md R197): the one operation by which a command ends with an error. Nothing is saved,
nothing is vectored: the code goes to `STATUS`, the result is discarded and the block is idle. -/
def State.raise (s : State) (e : ErrCode) : State :=
  { s with
    status := statusEnded e false
    dstLen := some 0
    outBuf := []
    vin := none
    vout := none
    scr := none
    phase := .idle }

/-- `complete OK` with flag `c` (R198). There is no return from an error (R201): the block is idle after it as
after this. -/
def State.complete (s : State) (c : Bool) : State :=
  { s with
    status := statusEnded .ok c
    vin := none
    vout := none
    scr := none
    phase := .idle }

/-- The first phase of a command (R177). -/
def firstPhase : Instr → Phase
  | .encode => .eCheck
  | .decode => .dTrim
  | .encchunk => .uExec
  | .decchunk => .uExec
  | .enclen => .uExec
  | .declen => .uExec

/-- The commands that take `SRC_LEN` as an operand (R73): all but the two chunk commands (R177). -/
def takesLength : Instr → Bool
  | .encode => true
  | .decode => true
  | .encchunk => false
  | .decchunk => false
  | .enclen => true
  | .declen => true

/-- The effect of acceptance (R177): all of it happens together. -/
def State.accepted (s : State) (i : Instr) : State :=
  { s with
    op := some i.opcode
    len := s.srcLen
    status := statusBusy
    dstLen := none
    outBuf := []
    vin := none
    vout := none
    scr := none
    phase := firstPhase i }

/-- Acceptance of a command (R177), its condition `BUSY = 0` already met: a stream or length command with `SRC_LEN`
at `NOVALUE` is not admitted. -/
def accept (i : Instr) (s : State) : Out :=
  if takesLength i && s.srcLen.isNone then .refused .commandNotAdmitted else .next (s.accepted i)

/-- An illegal word written while idle (R178): the request completes at once, with no sequencer step. -/
def State.illegalWord (s : State) : State :=
  { s with
    status := statusEnded .illegalCommand false
    dstLen := some 0
    outBuf := [] }

/-- Reset (70_reset_and_hazards.md R215): every piece of the machine's state at the value of 10_state.md R37. The
parameters, the host's pending events and what it has read are not the machine's and stay. -/
def State.resetNow (s : State) : State :=
  { State.reset with
    params := s.params
    host := s.host
    replies := s.replies }

end Sys2Proof.Machine
end

