-- ==== Sys2Proof/Machine/Operands.lean ====
section
/-! DEFINITION. The operand forms of 30_encoding.md R73 as the sequencer fetches them: the 16-byte window taken
directly from `IN`, the scratch window, and the stripped length of `DECODE`. -/

namespace Sys2Proof.Machine

/-- Sixteen lanes from a byte sequence, lane `i` byte `i`, the lanes beyond it filled with `c`
(`bs ++ fill(c, 16 - length)`, R9, R10). -/
def lanesOf (bs : List Byte) (c : Byte) : Lanes :=
  Vector.ofFn fun i : Fin 16 => bs.getD i.val c

/-- `MemRead(IN, a, 16)` as a vector (20_memory.md R46, R49). All sixteen lanes come from `IN`. -/
def State.window (s : State) (a : Nat) : Option Lanes :=
  (s.memRead a 16).map fun bs => lanesOf bs 0x00#8

/-- The scratch window `MemRead(IN, a, k) ++ fill(c, 16 - k)` (43_stream_encode.md R146, 44_stream_decode.md R165). -/
def State.scratch (s : State) (a k : Nat) (c : Byte) : Option Lanes :=
  (s.memRead a k).map fun bs => lanesOf bs c

/-- `StripLen(L)` (44_stream_decode.md R157). It reads `IN[L-1]` and `IN[L-2]` when they exist (R156, 20_memory.md
R51); none when such a read is not admitted. -/
def State.stripLen (s : State) : Nat → Option Nat
  | 0 => some 0
  | 1 =>
    match s.memRead 0 1 with
    | some bs => some (if bs = [Config.pad] then 0 else 1)
    | none => none
  | l + 2 =>
    match s.memRead l 2 with
    | some bs =>
      some (if bs = [Config.pad, Config.pad] then l
        else if bs.getLast? = some Config.pad then l + 1
        else l + 2)
    | none => none

end Sys2Proof.Machine
end

