-- ==== Sys2Proof/Machine/SizeMath.lean ====
section
/-! DEFINITION. SizeMath (40_sizemath.md) and the fast-region boundary of `ENCODE` (43_stream_encode.md R137). -/

namespace Sys2Proof.Machine

/-- `EncLen(n)` (R90): total. -/
def encLen (n : Nat) : Nat :=
  4 * (n / 3) + (if n % 3 = 0 then 0 else if n % 3 = 1 then 2 else 3)

/-- `DecLen(n)` (R91): partial, no value when `n mod 4 = 1`. -/
def decLen (n : Nat) : Option Nat :=
  if n % 4 = 1 then none
  else some (3 * (n / 4) + (if n % 4 = 0 then 0 else if n % 4 = 2 then 1 else 2))

/-- `FastEnd(L)` (R137), for `L >= 1`. -/
def fastEnd (l : Nat) : Nat :=
  if 4 ≤ l % 12 then l - l % 12
  else if l < 16 then 0
  else l - l % 12 - 12

end Sys2Proof.Machine
end

