-- ==== Sys2Proof/Machine/StreamDecode.lean ====
section
/-! DEFINITION. StreamDriver decode (44_stream_decode.md): the phase rules of `DECODE` and the meaning of `DECODE`. -/

namespace Sys2Proof.Machine

/-- Phase `D_TRIM` (R156): strip, validate, size. The tests are made in the order written, and `SLEN` is written
before any test on it. -/
def ruleDTrim (s : State) : Out :=
  orFault .noValue s.len fun len =>
  if len > s.params.inMax then .next (s.raise .range)
  else
    orFault .stuckRead (s.stripLen len) fun slen =>
    if slen = 0 then .next ({ s with slen := some slen, dstLen := some 0 }.complete false)
    else if slen % 4 = 1 then .next ({ s with slen := some slen }.raise .invalidCharacter)
    else
      orFault .noPhaseRule (decLen slen) fun d =>
      if d + 16 > s.params.outMax then .next ({ s with slen := some slen }.raise .range)
      else .next { s with
        slen := some slen
        cap := some (d + 16)
        rd := some 0
        wr := some 0
        err := false
        phase := .dFast }

/-- Phase `D_FAST`: one fast-path iteration (R161) while `RD + 16 <= SLEN`, whatever `ERR` is, the loop exit (R160)
otherwise. -/
def ruleDFast (s : State) : Out :=
  orFault .noValue s.rd fun rd =>
  orFault .noValue s.slen fun slen =>
  if rd + 16 ≤ slen then
    orFault .noValue s.wr fun wr =>
    orFault .noValue s.cap fun cap =>
    orFault .stuckRead (s.window rd) fun vin =>
    orFault .noStore (s.memWrite cap wr (decChunk s.params vin).toList) fun out =>
    .next { s with
      vin := some vin
      vout := some (decChunk s.params vin)
      outBuf := out
      err := stickyErr s.err (chunkFlag vin)
      rd := some (rd + 16)
      wr := some (wr + 12) }
  else .next { s with phase := .dTail }

/-- Phase `D_TAIL`: no chunk when nothing remains (R164), the one tail chunk when 1 to 15 bytes remain (R165). -/
def ruleDTail (s : State) : Out :=
  orFault .noValue s.rd fun rd =>
  orFault .noValue s.slen fun slen =>
  if rd = slen then .next { s with phase := .dFinal }
  else if rd < slen ∧ slen - rd ≤ 15 then
    orFault .noValue s.wr fun wr =>
    orFault .noValue s.cap fun cap =>
    orFault .noPhaseRule (decLen (slen - rd)) fun d =>
    orFault .stuckRead (s.scratch rd (slen - rd) Config.decFill) fun scr =>
    orFault .noStore (s.memWrite cap wr (decChunk s.params scr).toList) fun out =>
    .next { s with
      scr := some scr
      vin := some scr
      vout := some (decChunk s.params scr)
      outBuf := out
      err := stickyErr s.err (chunkFlag scr)
      rd := some (rd + (slen - rd))
      wr := some (wr + d)
      phase := .dFinal }
  else .fault .noPhaseRule

/-- Phase `D_FINAL` (R168): verdict and logical length. -/
def ruleDFinal (s : State) : Out :=
  if s.err then .next (s.raise .invalidCharacter)
  else
    orFault .noValue s.wr fun wr =>
    .next ({ s with dstLen := some wr }.complete false)

/-- `DECODE` (R155). `BUSY = 0`: acceptance (45_host_interface.md R177). `BUSY = 1` and `DECODE` running: the rule of
its phase fires. `BUSY = 1` and another command running: the request is ignored (R179). -/
def execDecode (s : State) : Out :=
  if s.busy then
    match s.phase with
    | .dTrim => ruleDTrim s
    | .dFast => ruleDFast s
    | .dTail => ruleDTail s
    | .dFinal => ruleDFinal s
    | .idle | .eCheck | .eFast | .eTail | .eFinal | .uExec => .next s
  else accept .decode s

end Sys2Proof.Machine
end

