-- ==== Sys2Proof/Machine/StreamEncode.lean ====
section
/-! DEFINITION. StreamDriver encode (43_stream_encode.md): the phase rules of `ENCODE` and the meaning of `ENCODE`. -/

namespace Sys2Proof.Machine

/-- Phase `E_CHECK` (R136): validate, size, boundary. The emptiness test comes first (60_exceptions.md R200). -/
def ruleECheck (s : State) : Out :=
  orFault .noValue s.len fun len =>
  if len = 0 then .next (s.raise .emptyInput)
  else if len > s.params.inMax ∨ encLen len + 16 > s.params.outMax then .next (s.raise .range)
  else .next { s with
    cap := some (encLen len + 16)
    rd := some 0
    wr := some 0
    fend := some (fastEnd len)
    phase := .eFast }

/-- Phase `E_FAST`: one fast-path iteration (R141) while `RD < FEND`, the loop exit (R140) otherwise. -/
def ruleEFast (s : State) : Out :=
  orFault .noValue s.rd fun rd =>
  orFault .noValue s.fend fun fend =>
  if rd < fend then
    orFault .noValue s.wr fun wr =>
    orFault .noValue s.cap fun cap =>
    orFault .stuckRead (s.window rd) fun vin =>
    orFault .noStore (s.memWrite cap wr (encChunk vin).toList) fun out =>
    .next { s with
      vin := some vin
      vout := some (encChunk vin)
      outBuf := out
      rd := some (rd + 12)
      wr := some (wr + 16) }
  else .next { s with phase := .eTail }

/-- Phase `E_TAIL`: one tail iteration (R146) while bytes remain, the exit (R145) otherwise. -/
def ruleETail (s : State) : Out :=
  orFault .noValue s.rd fun rd =>
  orFault .noValue s.len fun len =>
  if rd < len then
    orFault .noValue s.wr fun wr =>
    orFault .noValue s.cap fun cap =>
    orFault .stuckRead (s.scratch rd (min 12 (len - rd)) Config.encFill) fun scr =>
    orFault .noStore (s.memWrite cap wr (encChunk scr).toList) fun out =>
    .next { s with
      scr := some scr
      vin := some scr
      vout := some (encChunk scr)
      outBuf := out
      rd := some (rd + min 12 (len - rd))
      wr := some (wr + encLen (min 12 (len - rd))) }
  else .next { s with phase := .eFinal }

/-- The padding of R150 by `WR mod 4`: 2 gives `==`, 3 gives `=`, 0 gives none, 1 never occurs. -/
def padding (r : Nat) : Option (List Byte) :=
  if r = 2 then some [Config.pad, Config.pad]
  else if r = 3 then some [Config.pad]
  else if r = 0 then some []
  else none

/-- Phase `E_FINAL` (R150): padding, logical length, completion. -/
def ruleEFinal (s : State) : Out :=
  orFault .noValue s.wr fun wr =>
  orFault .noValue s.cap fun cap =>
  orFault .noPhaseRule (padding (wr % 4)) fun pads =>
  orFault .noStore (s.memWrite cap wr pads) fun out =>
  .next ({ s with outBuf := out, dstLen := some (wr + pads.length) }.complete false)

/-- `ENCODE` (R135). `BUSY = 0`: acceptance (45_host_interface.md R177). `BUSY = 1` and `ENCODE` running: the rule of
its phase fires. `BUSY = 1` and another command running: the request is ignored (R179). -/
def execEncode (s : State) : Out :=
  if s.busy then
    match s.phase with
    | .eCheck => ruleECheck s
    | .eFast => ruleEFast s
    | .eTail => ruleETail s
    | .eFinal => ruleEFinal s
    | .idle | .dTrim | .dFast | .dTail | .dFinal | .uExec => .next s
  else accept .encode s

end Sys2Proof.Machine
end

