-- ==== Sys2Proof/Machine/UnitCommands.lean ====
section
/-! DEFINITION. The four unit commands, each one `U_EXEC` step (45_host_interface.md R183): `ENCCHUNK`
(41_chunk_encoder.md R110), `DECCHUNK` (42_chunk_decoder.md R128), `ENCLEN` and `DECLEN` (40_sizemath.md R96, R97). -/

namespace Sys2Proof.Machine

/-- The step of `ENCCHUNK` (R110). -/
def ruleEncchunk (s : State) : Out :=
  if 16 > s.params.inMax then .next (s.raise .range)
  else
    orFault .stuckRead (s.window 0) fun vin =>
    orFault .noStore (s.memWrite 16 0 (encChunk vin).toList) fun out =>
    .next ({ s with
      cap := some 16
      vin := some vin
      vout := some (encChunk vin)
      outBuf := out
      dstLen := some 16 }.complete false)

/-- The step of `DECCHUNK` (R128). An illegal byte is no error here: it is reported in `STATUS.CF`. -/
def ruleDecchunk (s : State) : Out :=
  if 16 > s.params.inMax then .next (s.raise .range)
  else
    orFault .stuckRead (s.window 0) fun vin =>
    orFault .noStore (s.memWrite 16 0 (decChunk s.params vin).toList) fun out =>
    .next ({ s with
      cap := some 16
      vin := some vin
      vout := some (decChunk s.params vin)
      outBuf := out
      dstLen := some 16 }.complete (chunkFlag vin))

/-- The step of `ENCLEN` (R96). -/
def ruleEnclen (s : State) : Out :=
  orFault .noValue s.len fun n =>
  if encLen n ≥ 2 ^ s.params.aw then .next (s.raise .range)
  else .next ({ s with dstLen := some (encLen n) }.complete false)

/-- The step of `DECLEN` (R97). -/
def ruleDeclen (s : State) : Out :=
  orFault .noValue s.len fun n =>
  match decLen n with
  | none => .next (s.raise .invalidCharacter)
  | some r => .next ({ s with dstLen := some r }.complete false)

/-- A unit command `i` whose step is `rule`. `BUSY = 0`: acceptance (45_host_interface.md R177). `BUSY = 1`,
`PHASE = U_EXEC` and `OP` the opcode of `i`: its one step (R183). `BUSY = 1` otherwise, another command running: the
request is ignored (R179). -/
def unitCommand (i : Instr) (rule : State → Out) (s : State) : Out :=
  if s.busy then
    if s.phase = .uExec ∧ s.op = some i.opcode then rule s else .next s
  else accept i s

/-- `ENCCHUNK` (R110). -/
def execEncchunk (s : State) : Out := unitCommand .encchunk ruleEncchunk s

/-- `DECCHUNK` (R128). -/
def execDecchunk (s : State) : Out := unitCommand .decchunk ruleDecchunk s

/-- `ENCLEN` (R96). -/
def execEnclen (s : State) : Out := unitCommand .enclen ruleEnclen s

/-- `DECLEN` (R97). -/
def execDeclen (s : State) : Out := unitCommand .declen ruleDeclen s

end Sys2Proof.Machine
end

