-- ==== Sys2Proof/Machine/Dispatch.lean ====
section
/-! DEFINITION. One arm per command of the opcode table (30_encoding.md R72). -/

namespace Sys2Proof.Machine

def exec (i : Instr) (s : State) : Host.Outcome State Fault Refusal :=
  match i with
  -- the stream commands
  | .encode => Sys2Proof.Machine.execEncode s
  | .decode => Sys2Proof.Machine.execDecode s
  -- the chunk commands
  | .encchunk => Sys2Proof.Machine.execEncchunk s
  | .decchunk => Sys2Proof.Machine.execDecchunk s
  -- the length commands
  | .enclen => Sys2Proof.Machine.execEnclen s
  | .declen => Sys2Proof.Machine.execDeclen s

end Sys2Proof.Machine
end

