-- ==== Sys2Proof/Machine/HostInterface.lean ====
section
/-! DEFINITION. The two agents of 00_scope.md R12: the host's accesses (45_host_interface.md R175 to R182) and the
sequencer's turn, how an event moves the block, how a command word is placed to be run next, and the host-program
lines of 30_encoding.md R78, R79 as events. -/

namespace Sys2Proof.Machine

/-- The unit command an opcode selects in `U_EXEC` (R183). -/
def unitOf (opc : BitVec 3) : Option Instr :=
  match commandOf opc with
  | .ok .encchunk => some .encchunk
  | .ok .decchunk => some .decchunk
  | .ok .enclen => some .enclen
  | .ok .declen => some .declen
  | .ok .encode => none
  | .ok .decode => none
  | .error _ => none

/-- The command that runs, by `PHASE` (10_state.md R22: the phases of different commands have different values), and
within `U_EXEC` by `OP` (R183). -/
def State.running (s : State) : Option Instr :=
  match s.phase with
  | .idle => none
  | .eCheck | .eFast | .eTail | .eFinal => some .encode
  | .dTrim | .dFast | .dTail | .dFinal => some .decode
  | .uExec => s.op.bind unitOf

/-- One turn of the sequencer (R12): while `BUSY = 1` exactly one phase rule of the running command fires
(70_reset_and_hazards.md R232); while `BUSY = 0` it has no step and nothing happens (R216). -/
def sequencerTurn (s : State) : Out :=
  if s.busy then
    match s.running with
    | some i => exec i s
    | none => .fault .noPhaseRule
  else .next s

/-- A host write of the word `w` to `CMD` (R176): ignored while busy (R179), an accepted command (R177), or an
illegal word (R178), in that order (60_exceptions.md R200). -/
def cmdWrite (w : BitVec 8) (s : State) : Out :=
  if s.busy then .next s
  else
    match decode w with
    | .ok i => exec i s
    | .error _ => .next s.illegalWord

/-- The register a number names (10_state.md R26). -/
def hostReg : Nat → Option HostReg
  | 0 => some .cmd
  | 1 => some .status
  | 2 => some .srcLen
  | 3 => some .dstLen
  | _ + 4 => none

/-- The number of a register (R26). -/
def regNumber : HostReg → Nat
  | .cmd => 0
  | .status => 1
  | .srcLen => 2
  | .dstLen => 3

/-- What a host read returned. -/
def State.reply (s : State) (r : Reply) : State := { s with replies := s.replies ++ [r] }

/-- A host write of `v` to register `r` (R175, R176, R180): `CMD` takes any 8-bit word at any time; `SRC_LEN` any
value below `2^AW` while `BUSY = 0`; the others are not written. -/
def writeReg (r : HostReg) (v : Nat) (s : State) : Out :=
  match r with
  | .cmd => if v < 256 then cmdWrite (BitVec.ofNat 8 v) s else .refused .accessNotAdmitted
  | .srcLen =>
    if !s.busy && v < 2 ^ s.params.aw then .next { s with srcLen := some v } else .refused .accessNotAdmitted
  | .status => .refused .accessNotAdmitted
  | .dstLen => .refused .accessNotAdmitted

/-- A length register read while `admitted`: its value, or no meaning when it holds `NOVALUE` (R15, R175). -/
def readLength (r : HostReg) (admitted : Bool) (v : Option Nat) (s : State) : Out :=
  match v with
  | some n => if admitted then .next (s.reply (.reg (regNumber r) n)) else .refused .accessNotAdmitted
  | none => .refused .accessNotAdmitted

/-- A host read of register `r` (R175, R180, R181, R182). -/
def readReg (r : HostReg) (s : State) : Out :=
  match r with
  | .cmd => .refused .accessNotAdmitted
  | .status => .next (s.reply (.reg 1 s.status.toNat))
  | .srcLen => readLength .srcLen (!s.busy) s.srcLen s
  | .dstLen => readLength .dstLen (!s.busy && s.done) s.dstLen s

/-- The last command was a stream or chunk command (R181): `OP` is 0 to 3. -/
def State.wroteOut (s : State) : Bool :=
  match s.op with
  | some o => o.toNat ≤ 3
  | none => false

/-- A host read of `OUT[a]` is admitted by the state (R175, R181). -/
def State.outReadable (s : State) (a : Nat) : Bool :=
  !s.busy && s.done && s.errc == 0#3 && s.wroteOut && (match s.dstLen with | some d => a < d | none => false)

/-- One host access (R175). An access that is not admitted has no meaning. -/
def hostAccess (x : HostAccess) (s : State) : Out :=
  match x with
  | .writeReg i v =>
    match hostReg i with
    | some r => writeReg r v s
    | none => .refused .noSuchRegister
  | .readReg i =>
    match hostReg i with
    | some r => readReg r s
    | none => .refused .noSuchRegister
  | .writeIn a b =>
    if !s.busy && a < s.params.inMax then .next { s with inBuf := s.inBuf.write a b } else .refused .accessNotAdmitted
  | .readIn a =>
    match s.inBuf.read a with
    | some b => if !s.busy && a < s.params.inMax then .next (s.reply (.inByte a b)) else .refused .accessNotAdmitted
    | none => .refused .accessNotAdmitted
  | .writeOut _ _ => .refused .accessNotAdmitted
  | .readOut a =>
    match s.outBuf.read a with
    | some b => if s.outReadable a then .next (s.reply (.outByte a b)) else .refused .accessNotAdmitted
    | none => .refused .accessNotAdmitted

/-- The host's loop `WAIT` (R182): read `STATUS` until `BUSY = 0`. A read that finds `BUSY = 1` changes nothing, and
the sequencer gets its turn before the next one (weak fairness); the read that ends the loop is the one reported. -/
def hostWait (rest : List Event) (s : State) : Out :=
  if s.busy then sequencerTurn s
  else .next ({ s with host := rest }.reply (.reg 1 s.status.toNat))

/-- What moves the block next. With no event pending the host does nothing and the sequencer has the turn. -/
def advance (s : State) : Out :=
  match s.host with
  | [] => sequencerTurn s
  | .access x :: rest => hostAccess x { s with host := rest }
  | .wait :: rest => hostWait rest s
  | .sequencer :: rest => sequencerTurn { s with host := rest }
  | .reset :: rest => .next { s with host := rest }.resetNow

/-- `SRC_LEN` as the acceptance of `w` needs it (R177): a value, 0 when a command that takes a length finds
`NOVALUE` there; otherwise as it is. -/
def lengthFor (w : BitVec 8) (srcLen : Option Nat) : Option Nat :=
  match decode w with
  | .ok i => if takesLength i then some (srcLen.getD 0) else srcLen
  | .error _ => srcLen

/-- The word `w` placed where the block takes its next command from: the host's next access is the write of `w` to
`CMD`, the block is idle to take it, and `SRC_LEN` holds a value where its acceptance asks for one. -/
def State.placeWord (s : State) (w : BitVec 8) : State :=
  { s with
    host := .access (.writeReg 0 w.toNat) :: s.host
    status := s.status &&& 0xFE#8
    phase := .idle
    srcLen := lengthFor w s.srcLen }

/-- The host accesses of one line of a host program (30_encoding.md R78). -/
def lineEvents : HostLine → List Event
  | .command i => [.access (.writeReg 0 (encode i).toNat)]
  | .cmdw w => [.access (.writeReg 0 w)]
  | .setlen n => [.access (.writeReg 2 n)]
  | .ldin a bytes => bytes.mapIdx fun k b => .access (.writeIn (a + k) b)
  | .wait => [.wait]
  | .rdstatus => [.access (.readReg 1)]
  | .rdlen => [.access (.readReg 3)]
  | .rdout a n => (List.range n).map fun k => .access (.readOut (a + k))

/-- The events of a host program, in order (R78). -/
def programEvents (ls : List HostLine) : List Event := ls.flatMap lineEvents

/-- The macros `encode(raw)` and `decode(text)` up to the end of the command (R79). -/
def callMacro (i : Instr) (bytes : List Byte) : List HostLine :=
  [.ldin 0 bytes, .setlen bytes.length, .command i, .wait]

/-- The macros `enclen(n)` and `declen(n)` (R79). -/
def lengthMacro (i : Instr) (n : Nat) : List HostLine := [.setlen n, .command i, .wait, .rdlen]

/-- The macros `encchunk(v)` and `decchunk(v)` (R79); the second reads `STATUS` for `CF`. -/
def chunkMacro (i : Instr) (v : Lanes) : List HostLine :=
  [.ldin 0 v.toList, .command i, .wait, .rdout 0 16] ++ (if i = .decchunk then [.rdstatus] else [])

/-- The lines of `encode(raw)` and `decode(text)` (R79) that collect the result, by the state in which `WAIT` ended:
when `ERRC = 0` the length and then the bytes below it, otherwise none. DEDUCED: R79's comment 'and if ERRC = 0' is read
over both lines, as 70_reset_and_hazards.md R220 (6) has it (assumption log 15). -/
def collectLines (s : State) : List HostLine :=
  if s.errc = 0#3 then [.rdlen, .rdout 0 (s.dstLen.getD 0)] else []

end Sys2Proof.Machine
end

