-- ==== Sys2Proof/Machine/Step.lean ====
section
/-! DEFINITION. The step of the machine, and a table word placed to be run by the very next step. -/

namespace Sys2Proof.Machine

/-- One step: one host access, one firing of a phase rule, or a reset (00_scope.md R12). -/
def step (s : State) : Host.Outcome State Fault Refusal := advance s

/-- `s` with the command word of `nbits` bits `w` placed where the block takes its next command from: the data of the
host's next write to `CMD` (20_memory.md R63). A command is one byte (30_encoding.md R70). -/
def State.withFetchWord (s : State) (nbits w : Nat) : State :=
  s.placeWord ((tableBytes nbits w).headD 0xFF#8)

end Sys2Proof.Machine
end

