-- ==== Sys2Proof/Safety.lean ====
section
/-! DEFINITION. What a safe run is, in the terms the claims use: the legal values of `STATUS` (10_state.md R30), the
widths of the length registers (R16), what holds at each phase of a command (R142, R147, R162, R166), what a
completed command leaves (R58, R184), and the results of the stream commands as functions of the input (R152, R169). -/

namespace Sys2Proof.Machine

/-- The full set of values `STATUS` takes (R30). -/
def legalStatuses : List (BitVec 8) :=
  [0x00#8, 0x01#8, 0x02#8, 0x06#8, 0x0A#8, 0x0E#8, 0x12#8, 0x22#8]

/-- Both buffer spaces are in canonical form. -/
def State.Canonical (s : State) : Prop := s.inBuf.wf ∧ s.outBuf.wf

/-- `STATUS` takes a legal value, `CF` is 1 only after `DECCHUNK` (R30), and `PHASE = IDLE` exactly when `BUSY = 0`
(R22). -/
structure State.StatusOk (s : State) : Prop where
  legal : s.status ∈ legalStatuses
  flag : s.cf = true → s.op = some 3#3
  idle : s.phase = .idle ↔ s.busy = false

/-- A register holds `NOVALUE` or a number below `2^AW` (R16). -/
def Fits (p : Config.Params) (r : Option Nat) : Prop := ∀ n, r = some n → n < 2 ^ p.aw

/-- Every length and cursor register fits its width (R16). -/
structure State.Widths (s : State) : Prop where
  srcLen : Fits s.params s.srcLen
  dstLen : Fits s.params s.dstLen
  len : Fits s.params s.len
  slen : Fits s.params s.slen
  rd : Fits s.params s.rd
  wr : Fits s.params s.wr
  fend : Fits s.params s.fend
  cap : Fits s.params s.cap

/-- `b_i` of 43_stream_encode.md R152 for an input of `n` bytes: `IN[i]` below `n`, 0 from `n` on. -/
def rawByte (m : Memory) (n i : Nat) : Byte := if i < n then (m.read i).getD 0x00#8 else 0x00#8

/-- Symbol `a` of the unpadded base64 text of `IN[0 .. n)` (R142, R152). -/
def textSymbol (m : Memory) (n a : Nat) : Byte :=
  sym ((sextets (rawByte m n (3 * (a / 4))) (rawByte m n (3 * (a / 4) + 1)) (rawByte m n (3 * (a / 4) + 2)))[a % 4]'(by
    omega))

/-- Byte `a` of the padded base64 text of `IN[0 .. n)` (R152). -/
def paddedText (m : Memory) (n a : Nat) : Byte :=
  if a % 4 = 2 ∧ n ≤ 3 * (a / 4) + 1 then Config.pad
  else if a % 4 = 3 ∧ n ≤ 3 * (a / 4) + 2 then Config.pad
  else textSymbol m n a

/-- `v_i` of 44_stream_decode.md R169 for a payload of `n` bytes: the value of `IN[i]` below `n`, 0 from `n` on. -/
def payloadValue (p : Config.Params) (m : Memory) (n i : Nat) : Sextet :=
  if i < n then laneValue p ((m.read i).getD 0x00#8) else 0#6

/-- Byte `a` of the decoded payload `IN[0 .. n)` (R169). -/
def dataByte (p : Config.Params) (m : Memory) (n a : Nat) : Byte :=
  (pack (payloadValue p m n (4 * (a / 3))) (payloadValue p m n (4 * (a / 3) + 1))
    (payloadValue p m n (4 * (a / 3) + 2)) (payloadValue p m n (4 * (a / 3) + 3)))[a % 3]'(by omega)

/-- Some byte of `IN[0 .. n)` is illegal (R162, R166). -/
def SomeIllegal (m : Memory) (n : Nat) : Prop := ∃ i < n, ∃ b, m.read i = some b ∧ legal b = false

/-- The input duty of 70_reset_and_hazards.md R222: every byte of `IN[0 .. n)` holds a value. -/
def Loaded (m : Memory) (n : Nat) : Prop := ∀ i < n, ∃ b, m.read i = some b

/-- `ENCODE` of `l` bytes with `r` of them consumed (R17 to R23, R142, R147). -/
structure EncodeAt (s : State) (l r : Nat) : Prop where
  op : s.op = some 0#3
  len : s.len = some l
  fend : s.fend = some (fastEnd l)
  cap : s.cap = some (encLen l + 16)
  rd : s.rd = some r
  wr : s.wr = some (encLen r)
  pos : 1 ≤ l
  inFits : l ≤ s.params.inMax
  outFits : encLen l + 16 ≤ s.params.outMax
  within : r ≤ l
  cut : r % 12 = 0 ∨ r = l
  text : ∀ a < encLen r, s.outBuf.read a = some (textSymbol s.inBuf r a)

/-- `DECODE` of `l` bytes, `n` of them payload, with `r` of those consumed (R17 to R25, R162, R166). -/
structure DecodeAt (s : State) (l n r : Nat) : Prop where
  op : s.op = some 1#3
  len : s.len = some l
  slen : s.slen = some n
  strip : s.stripLen l = some n
  cap : ∃ d, decLen n = some d ∧ s.cap = some (d + 16) ∧ d + 16 ≤ s.params.outMax
  rd : s.rd = some r
  wr : s.wr = decLen r
  pos : 1 ≤ n
  residue : n % 4 ≠ 1
  inFits : l ≤ s.params.inMax
  within : r ≤ n
  cut : r % 16 = 0 ∨ r = n
  sticky : s.err = true ↔ SomeIllegal s.inBuf r
  data : ∀ w, decLen r = some w → ∀ a < w, s.outBuf.read a = some (dataByte s.params s.inBuf r a)

/-- What holds at each phase. -/
def State.SeqOk (s : State) : Prop :=
  match s.phase with
  | .idle => True
  | .eCheck => s.op = some 0#3 ∧ s.outBuf = [] ∧ ∃ l, s.len = some l
  | .eFast => ∃ l r, EncodeAt s l r ∧ r % 12 = 0 ∧ r ≤ fastEnd l
  | .eTail => ∃ l r, EncodeAt s l r ∧ fastEnd l ≤ r
  | .eFinal => ∃ l, EncodeAt s l l
  | .dTrim => s.op = some 1#3 ∧ s.outBuf = [] ∧ ∃ l, s.len = some l
  | .dFast => ∃ l n r, DecodeAt s l n r ∧ r % 16 = 0
  | .dTail => ∃ l n, DecodeAt s l n (16 * (n / 16))
  | .dFinal => ∃ l n, DecodeAt s l n n
  | .uExec => s.outBuf = [] ∧
      (s.op = some 2#3 ∨ s.op = some 3#3 ∨ ((s.op = some 4#3 ∨ s.op = some 5#3) ∧ ∃ l, s.len = some l))

/-- What a completed request leaves (R31, R58, R184): `DST_LEN` holds a value; after an error it is 0 and nothing is
left in `OUT`; after a stream or chunk command that ended `OK` every byte below it holds a value; after a length
command `OUT` holds nothing. -/
structure State.ResultOk (s : State) : Prop where
  length : s.done = true → ∃ d, s.dstLen = some d
  failed : s.done = true → s.errc ≠ 0#3 → s.dstLen = some 0 ∧ s.outBuf = []
  written : s.done = true → s.errc = 0#3 → s.wroteOut = true →
    ∀ d, s.dstLen = some d → ∀ a < d, ∃ b, s.outBuf.read a = some b
  lengthOnly : s.done = true → s.wroteOut = false → s.outBuf = []

/-- The invariant of the machine: the parameters within R7's bounds, the spaces canonical and within their sizes, and
everything above. -/
structure State.Inv (s : State) : Prop where
  params : s.params.wellFormed = true
  canonical : s.Canonical
  inBelow : ∀ a b, s.inBuf.read a = some b → a < s.params.inMax
  outBelow : ∀ a b, s.outBuf.read a = some b → a < s.params.outMax
  status : s.StatusOk
  widths : s.Widths
  vectors : s.phase = .idle → s.vin = none ∧ s.vout = none ∧ s.scr = none
  seq : s.SeqOk
  result : s.ResultOk

/-- What the running command reads of `IN` (R38, R222): `[0, LEN)` for the stream commands, `[0, 16)` for the chunk
commands, nothing for the length commands. -/
def State.inputDuty (s : State) : Nat :=
  match s.op with
  | some o => if o.toNat ≤ 1 then s.len.getD 0 else if o.toNat ≤ 3 then 16 else 0
  | none => 0

end Sys2Proof.Machine
end

