-- ==== Sys2Proof/Certificates/Slice0/Obligations.lean ====
section
/-! DEFINITION. The statements for the provers, from the numbered rules of spec/. -/

open Sys2Proof Sys2Proof.Machine

/-! ## Command words (30_encoding.md) -/

/-- R72: selection is equality of the whole word with the row's word. -/
def Obligations.CommandWordsSelectTheirCommands : Prop :=
  ∀ w : BitVec 8,
    (decode w = .ok .encode ↔ w = 0b00000000#8) ∧ (decode w = .ok .decode ↔ w = 0b00000001#8) ∧
    (decode w = .ok .encchunk ↔ w = 0b00000010#8) ∧ (decode w = .ok .decchunk ↔ w = 0b00000011#8) ∧
    (decode w = .ok .enclen ↔ w = 0b00000100#8) ∧ (decode w = .ok .declen ↔ w = 0b00000101#8)

/-- R71, R72: the encoder's word decodes to its command, and a word that decodes is the encoder's. -/
def Obligations.EncodeAndDecodeAgree : Prop :=
  (∀ i : Instr, i.wellFormed = true → decode (encode i) = .ok i ∧ decodeBytes [encode i] = .ok i) ∧
    ∀ (w : BitVec 8) (i : Instr), decode w = .ok i → encode i = w

/-- R75: the illegal words are those with a reserved bit set or a reserved opcode, the 250 words from 0x06 up. -/
def Obligations.IllegalWordsAreTheReservedOnes : Prop :=
  (∀ w : BitVec 8, ((∃ e, decode w = .error e) ↔ (wordRsv w ≠ 0#5 ∨ 6 ≤ (wordOpc w).toNat)) ∧
      ((∃ e, decode w = .error e) ↔ 6 ≤ w.toNat)) ∧
    ((List.range 256).filter fun n => !wordWellFormed (BitVec.ofNat 8 n)).length = 250

/-! ## Steps (00_scope.md R12, 45_host_interface.md) -/

/-- A step that takes a host write of a legal word to `CMD` is `exec` of the decoded command. -/
def Obligations.StepRunsTheDecodedCommand : Prop :=
  ∀ (s : State) (w : BitVec 8) (rest : List Event) (i : Instr),
    s.host = .access (.writeReg 0 w.toNat) :: rest → s.busy = false → decode w = .ok i →
    step s = exec i { s with host := rest }

/-- R12, R216: a step that is the sequencer's is `exec` of the running command, which `PHASE`, and within `U_EXEC`
`OP`, names; with no host access pending the idle block performs no step of its own. That an empty list of events, and
a pending `WAIT` (R182) that finds `BUSY` at 1, give the sequencer the turn is the model's choice (assumption log 6). -/
def Obligations.StepRunsTheRunningCommand : Prop :=
  (∀ (s : State) (i : Instr), s.busy = true → s.running = some i →
    (s.host = [] → step s = exec i s) ∧
    (∀ rest, s.host = .wait :: rest → step s = exec i s) ∧
    (∀ rest, s.host = .sequencer :: rest → step s = exec i { s with host := rest })) ∧
  ∀ s : State,
    (s.phase ∈ [.eCheck, .eFast, .eTail, .eFinal] → s.running = some .encode) ∧
    (s.phase ∈ [.dTrim, .dFast, .dTail, .dFinal] → s.running = some .decode) ∧
    (s.phase = .uExec → s.op = some 2#3 → s.running = some .encchunk) ∧
    (s.phase = .uExec → s.op = some 3#3 → s.running = some .decchunk) ∧
    (s.phase = .uExec → s.op = some 4#3 → s.running = some .enclen) ∧
    (s.phase = .uExec → s.op = some 5#3 → s.running = some .declen) ∧
    (s.busy = false → (s.host = [] → step s = .next s) ∧
      (∀ rest, s.host = .sequencer :: rest → step s = .next { s with host := rest }))

/-- A word of the opcode table placed by `withFetchWord` is run by the very next step, from every state. The value 0
that `withFetchWord` gives a `SRC_LEN` holding `NOVALUE` is the model's choice (assumption log 4). -/
def Obligations.PlacedWordRunsNext : Prop :=
  ∀ (s : State) (w : Nat) (i : Instr), decodeTableWord 8 w = some i →
    step (s.withFetchWord 8 w) = exec i { s.withFetchWord 8 w with host := s.host } ∧
    step (s.withFetchWord 8 w) = .next (State.accepted { s.withFetchWord 8 w with host := s.host } i)

/-! ## Starting a command (45_host_interface.md R177 to R179) -/

/-- R177: acceptance of each command, whole; a stream or length command with `SRC_LEN` at `NOVALUE` is not
admitted. -/
def Obligations.AcceptanceStartsTheCommand : Prop :=
  ∀ (i : Instr) (s : State), s.busy = false →
    ((i ≠ .encchunk ∧ i ≠ .decchunk ∧ s.srcLen = none) → exec i s = .refused .commandNotAdmitted) ∧
    (¬ (i ≠ .encchunk ∧ i ≠ .decchunk ∧ s.srcLen = none) →
      exec i s = .next { s with
        op := some ((encode i).extractLsb' 0 3)
        len := s.srcLen
        status := 0x01#8
        dstLen := none
        outBuf := []
        vin := none
        vout := none
        scr := none
        phase := match i with
          | .encode => .eCheck
          | .decode => .dTrim
          | .encchunk | .decchunk | .enclen | .declen => .uExec })

/-- R178: an illegal word written while idle completes at once with `ILLEGAL_COMMAND`. -/
def Obligations.IllegalWordCompletesAtOnce : Prop :=
  ∀ (s : State) (w : BitVec 8) (rest : List Event),
    s.host = .access (.writeReg 0 w.toNat) :: rest → s.busy = false → 6 ≤ w.toNat →
    step s = .next { s with host := rest, status := 0x0E#8, dstLen := some 0, outBuf := [] }

/-- R179: a write of any word to `CMD` while a command runs is ignored. -/
def Obligations.CommandWriteWhileBusyIsIgnored : Prop :=
  ∀ (s : State) (w : BitVec 8) (rest : List Event),
    s.host = .access (.writeReg 0 w.toNat) :: rest → s.busy = true → step s = .next { s with host := rest }

/-! ## Host accesses (45_host_interface.md R175, R180 to R182) -/

/-- R175, R180, R181: what is not admitted has no meaning: while a command runs every access but a write of `CMD` and
a read of `STATUS`; at any time a write of `STATUS`, of `DST_LEN` or of `OUT`, a read of `CMD`, a register that does
not exist, data that does not fit, an address that does not exist; a read of the result when there is none. That data
too wide for `CMD` is refused is the model's choice (assumption log 10). -/
def Obligations.UnadmittedAccessHasNoMeaning : Prop :=
  ∀ (s : State) (x : HostAccess) (rest : List Event), s.host = .access x :: rest →
    (s.busy = true ∧ (∀ v, x ≠ .writeReg 0 v) ∧ x ≠ .readReg 1) ∨
      (∃ v, x = .writeReg 1 v ∨ x = .writeReg 3 v) ∨ x = .readReg 0 ∨
      (∃ i v, 4 ≤ i ∧ (x = .writeReg i v ∨ x = .readReg i)) ∨
      (∃ a b, x = .writeOut a b) ∨
      (∃ v, 256 ≤ v ∧ x = .writeReg 0 v) ∨
      (∃ v, 2 ^ s.params.aw ≤ v ∧ x = .writeReg 2 v) ∨
      (∃ a b, s.params.inMax ≤ a ∧ x = .writeIn a b) ∨
      (∃ a, (s.params.inMax ≤ a ∨ s.inBuf.read a = none) ∧ x = .readIn a) ∨
      (x = .readReg 2 ∧ s.srcLen = none) ∨
      (x = .readReg 3 ∧ s.done = false) ∨
      (∃ a, x = .readOut a ∧ (s.done = false ∨ s.errc ≠ 0#3 ∨ s.wroteOut = false ∨
        ∀ d, s.dstLen = some d → d ≤ a)) →
    ∃ r : Refusal, step s = .refused r

/-- R180: while idle the host writes `SRC_LEN` and `IN`, each write changing only the location written, and reads back
what stands there. -/
def Obligations.HostWritesOnlyTheLocationWritten : Prop :=
  ∀ (s : State) (rest : List Event), s.busy = false →
    (∀ n, s.host = .access (.writeReg 2 n) :: rest → n < 2 ^ s.params.aw →
      step s = .next { s with host := rest, srcLen := some n }) ∧
    (∀ a b, s.host = .access (.writeIn a b) :: rest → a < s.params.inMax →
      ∃ m : Memory, step s = .next { s with host := rest, inBuf := m } ∧
        ∀ c, m.read c = if c = a then some b else s.inBuf.read c) ∧
    (∀ n, s.host = .access (.readReg 2) :: rest → s.srcLen = some n →
      step s = .next { s with host := rest, replies := s.replies ++ [.reg 2 n] }) ∧
    (∀ a b, s.host = .access (.readIn a) :: rest → a < s.params.inMax → s.inBuf.read a = some b →
      step s = .next { s with host := rest, replies := s.replies ++ [.inByte a b] })

/-- R181, R58, R184: after a completed request the host reads `DST_LEN`, and after a stream or chunk command that
ended `OK` every byte of `OUT` below it; each such read finds a value and changes nothing. -/
def Obligations.ResultReadsFindTheResult : Prop :=
  ∀ (s : State) (rest : List Event), s.Inv → s.busy = false → s.done = true →
    ∃ d, s.dstLen = some d ∧
      (s.host = .access (.readReg 3) :: rest →
        step s = .next { s with host := rest, replies := s.replies ++ [.reg 3 d] }) ∧
      (s.errc = 0#3 → (∃ o, s.op = some o ∧ o.toNat ≤ 3) → ∀ a < d,
        ∃ b, s.outBuf.read a = some b ∧
          (s.host = .access (.readOut a) :: rest →
            step s = .next { s with host := rest, replies := s.replies ++ [.outByte a b] }))

/-- R182, R30: a read of `STATUS` is admitted at any time, returns the register and changes nothing; while a command
runs it returns 0x01; `WAIT` ends with the read that finds `BUSY = 0`. -/
def Obligations.StatusReadChangesNothing : Prop :=
  ∀ (s : State) (rest : List Event), s.StatusOk →
    (s.host = .access (.readReg 1) :: rest →
      step s = .next { s with host := rest, replies := s.replies ++ [.reg 1 s.status.toNat] }) ∧
    (s.busy = true → s.status = 0x01#8) ∧
    (s.busy = false → s.host = .wait :: rest →
      step s = .next { s with host := rest, replies := s.replies ++ [.reg 1 s.status.toNat] })

/-! ## The ends of a command and reset (60_exceptions.md R197, R198, 70_reset_and_hazards.md R215) -/

/-- R197: `raise E` writes the code, discards the result and idles the block, and touches nothing else. -/
def Obligations.RaiseEndsTheCommand : Prop :=
  ∀ (s : State) (e : ErrCode), e ≠ .ok →
    s.raise e = { s with
      status := (match e with
        | .ok => 0x02#8
        | .emptyInput => 0x06#8
        | .invalidCharacter => 0x0A#8
        | .illegalCommand => 0x0E#8
        | .range => 0x12#8)
      dstLen := some 0
      outBuf := []
      vin := none
      vout := none
      scr := none
      phase := .idle }

/-- R198: `complete OK` with flag `c` keeps `DST_LEN` and `OUT` and idles the block. -/
def Obligations.CompleteEndsTheCommand : Prop :=
  ∀ (s : State) (c : Bool),
    s.complete c = { s with
      status := if c then 0x22#8 else 0x02#8
      vin := none
      vout := none
      scr := none
      phase := .idle }

/-- R215, R37: reset at any time puts every piece of state at its reset value. That the parameters, the events to come
and what the host has read stay is the model's choice (assumption log 11). -/
def Obligations.ResetPutsEveryRegisterAtItsValue : Prop :=
  ∀ (s : State) (rest : List Event), s.host = .reset :: rest →
    ∃ t, step s = .next t ∧ t.phase = .idle ∧ t.status = 0x00#8 ∧ t.err = false ∧
      t.srcLen = none ∧ t.dstLen = none ∧ t.op = none ∧ t.len = none ∧ t.slen = none ∧ t.rd = none ∧
      t.wr = none ∧ t.fend = none ∧ t.cap = none ∧ t.vin = none ∧ t.vout = none ∧ t.scr = none ∧
      (∀ a, t.inBuf.read a = none) ∧ (∀ a, t.outBuf.read a = none) ∧
      t.params = s.params ∧ t.host = rest ∧ t.replies = s.replies

/-! ## SizeMath (40_sizemath.md) and the fast-region boundary (43_stream_encode.md R138) -/

/-- R93: both length functions are monotonic, strictly. -/
def Obligations.LengthFunctionsAreMonotonic : Prop :=
  (∀ a b, a ≤ b → encLen a ≤ encLen b) ∧ (∀ a b, a < b → encLen a < encLen b) ∧
  (∀ a b d e, decLen a = some d → decLen b = some e → a ≤ b → d ≤ e) ∧
  (∀ a b d e, decLen a = some d → decLen b = some e → a < b → d < e) ∧
  (∀ n, decLen n = none ↔ n % 4 = 1)

/-- R94: the length functions invert each other where `DecLen` is defined. -/
def Obligations.LengthFunctionsInvertEachOther : Prop :=
  (∀ n, encLen n % 4 ≠ 1 ∧ decLen (encLen n) = some n) ∧
  (∀ m d, decLen m = some d → encLen d = m) ∧ (∀ m, m % 4 ≠ 1 → ∃ d, decLen m = some d)

/-- R138: the properties (a) to (d) of `FastEnd`. -/
def Obligations.FastRegionLeavesAReadableTail : Prop :=
  ∀ l, 1 ≤ l →
    (fastEnd l % 12 = 0 ∧ fastEnd l < l) ∧
    (0 < fastEnd l → fastEnd l + 4 ≤ l) ∧
    (1 ≤ l - fastEnd l ∧ l - fastEnd l ≤ 15) ∧
    (4 ≤ l % 12 → l - fastEnd l = l % 12) ∧
    (l % 12 < 4 → l < 16 → l - fastEnd l = l) ∧
    (l % 12 < 4 → 16 ≤ l → l - fastEnd l = l % 12 + 12) ∧
    (fastEnd l = 0 ↔ l ≤ 15)

/-! ## The kernels (41_chunk_encoder.md, 42_chunk_decoder.md) -/

/-- R102, R121: the four sextets are the four 6-bit fields of the 24-bit value, most significant first; `Pack` puts
them together again; each inverts the other. -/
def Obligations.SextetsAndPackSplitTheSame24Bits : Prop :=
  (∀ b0 b1 b2 : Byte,
    let w := b0.toNat * 65536 + b1.toNat * 256 + b2.toNat
    (sextets b0 b1 b2)[0].toNat = w / 2 ^ 18 % 64 ∧ (sextets b0 b1 b2)[1].toNat = w / 2 ^ 12 % 64 ∧
    (sextets b0 b1 b2)[2].toNat = w / 2 ^ 6 % 64 ∧ (sextets b0 b1 b2)[3].toNat = w % 64 ∧
    pack (sextets b0 b1 b2)[0] (sextets b0 b1 b2)[1] (sextets b0 b1 b2)[2] (sextets b0 b1 b2)[3] = #v[b0, b1, b2]) ∧
  ∀ v0 v1 v2 v3 : Sextet,
    sextets (pack v0 v1 v2 v3)[0] (pack v0 v1 v2 v3)[1] (pack v0 v1 v2 v3)[2] = #v[v0, v1, v2, v3] ∧
    (pack v0 v1 v2 v3)[0].toNat * 65536 + (pack v0 v1 v2 v3)[1].toNat * 256 + (pack v0 v1 v2 v3)[2].toNat =
      v0.toNat * 262144 + v1.toNat * 4096 + v2.toNat * 64 + v3.toNat

/-- R105: `Sym` in full, injective, and inverted by `Val`. -/
def Obligations.SymbolMapIsTheAlphabet : Prop :=
  ((List.range 64).map fun n => (sym (BitVec.ofNat 6 n)).toNat) =
      "ABCDEFGHIJKLMNOPQRSTUVWXYZabcdefghijklmnopqrstuvwxyz0123456789+/".toList.map Char.toNat ∧
    (∀ s t : Sextet, sym s = sym t → s = t) ∧
    ∀ s : Sextet, symbolValue (sym s) = some s

/-- R119, R120: exactly 64 bytes are legal, `Sym` inverts `Val` on them, and the chunk flag is 1 exactly when some
lane is illegal. -/
def Obligations.LegalBytesAreTheAlphabet : Prop :=
  (∀ c : Byte, legal c = true ↔ (c = 0x2B#8 ∨ c = 0x2F#8 ∨ (0x30 ≤ c.toNat ∧ c.toNat ≤ 0x39) ∨
      (0x41 ≤ c.toNat ∧ c.toNat ≤ 0x5A) ∨ (0x61 ≤ c.toNat ∧ c.toNat ≤ 0x7A))) ∧
    ((List.range 256).filter fun n => legal (BitVec.ofNat 8 n)).length = 64 ∧
    legal Config.pad = false ∧
    (∀ (c : Byte) (s : Sextet), symbolValue c = some s → sym s = c) ∧
    (∀ s : Sextet, symbolValue (sym s) = some s) ∧
    ∀ v : Lanes, chunkFlag v = true ↔ ∃ i, ∃ _ : i < 16, legal v[i] = false

/-- R101: output lanes `4g .. 4g+3` of ChunkEncoder depend on input lanes `3g .. 3g+2` alone, so no output lane
depends on input lanes 12 to 15. -/
def Obligations.EncoderIgnoresLanesTwelveUp : Prop :=
  (∀ v w : Lanes, (∀ i (h : i < 16), i < 12 → v[i] = w[i]) → encChunk v = encChunk w) ∧
  ∀ (v w : Lanes) (g : Nat) (_ : g < 4), v[3 * g] = w[3 * g] → v[3 * g + 1] = w[3 * g + 1] →
    v[3 * g + 2] = w[3 * g + 2] → ∀ j (_ : j < 4), (encChunk v)[4 * g + j] = (encChunk w)[4 * g + j]

/-- R108: for a window of `k` real bytes and zeros, the output lanes below `EncLen(k)` are the unpadded text of the
real bytes and every later lane is `'A'`. `textSymbol` takes the real bytes from a space that holds them. -/
def Obligations.EncoderTailLanes : Prop :=
  ∀ (m : Memory) (v : Lanes) (k : Nat), 1 ≤ k → k ≤ 12 →
    (∀ i (h : i < 16), i < k → m.read i = some v[i]) → (∀ i (h : i < 16), k ≤ i → v[i] = 0x00#8) →
    ∀ j (_ : j < 16), (j < encLen k → (encChunk v)[j] = textSymbol m k j) ∧
      (encLen k ≤ j → (encChunk v)[j] = 0x41#8)

/-- R124: ChunkDecoder inverts ChunkEncoder on every vector, and ChunkEncoder inverts ChunkDecoder on every vector of
legal bytes, whatever the parameters. -/
def Obligations.KernelsInvertEachOther : Prop :=
  (∀ (p : Config.Params) (v : Lanes), chunkFlag (encChunk v) = false ∧
    ∀ i (_ : i < 16), i < 12 → (decChunk p (encChunk v))[i] = v[i]) ∧
  ∀ (p : Config.Params) (t : Lanes), (∀ i (_ : i < 16), legal t[i] = true) →
    chunkFlag t = false ∧ encChunk (decChunk p t) = t

/-- R122, R123, R128: the output lanes of a group of four legal bytes do not depend on the open parameters. -/
def Obligations.LegalGroupsIgnoreTheParameters : Prop :=
  ∀ (p q : Config.Params) (v : Lanes) (g : Nat) (_ : g < 4), (∀ j (_ : j < 4), legal v[4 * g + j] = true) →
    ∀ k (_ : k < 3), (decChunk p v)[3 * g + k] = (decChunk q v)[3 * g + k]

/-! ## The phase rules of `ENCODE` (43_stream_encode.md) -/

/-- R136: `E_CHECK`, its three outcomes in the order of the tests. -/
def Obligations.EncodeCheckValidatesAndSizes : Prop :=
  ∀ (s : State) (l : Nat), s.busy = true → s.phase = .eCheck → s.len = some l →
    (l = 0 → exec .encode s = .next (s.raise .emptyInput)) ∧
    (l ≠ 0 → (l > s.params.inMax ∨ encLen l + 16 > s.params.outMax) → exec .encode s = .next (s.raise .range)) ∧
    (l ≠ 0 → l ≤ s.params.inMax → encLen l + 16 ≤ s.params.outMax →
      exec .encode s = .next { s with
        cap := some (encLen l + 16)
        rd := some 0
        wr := some 0
        fend := some (fastEnd l)
        phase := .eFast })

/-- R140, R145: the exits of the two encode loops change `PHASE` and nothing else. -/
def Obligations.EncodeLoopsExit : Prop :=
  ∀ (s : State) (rd : Nat), s.busy = true → s.rd = some rd →
    (∀ fend, s.phase = .eFast → s.fend = some fend → fend ≤ rd → exec .encode s = .next { s with phase := .eTail }) ∧
    (∀ l, s.phase = .eTail → s.len = some l → l ≤ rd → exec .encode s = .next { s with phase := .eFinal })

/-- R141: one fast-path iteration: the whole next state, and what every byte of `OUT` is in it. -/
def Obligations.EncodeFastIteration : Prop :=
  ∀ (s : State) (rd fend wr cap : Nat) (v : Lanes), s.busy = true → s.phase = .eFast →
    s.rd = some rd → s.fend = some fend → rd < fend → s.wr = some wr → s.cap = some cap → wr + 16 ≤ cap →
    rd + 16 ≤ s.params.inMax → (∀ i (_ : i < 16), s.inBuf.read (rd + i) = some v[i]) →
    ∃ out : Memory,
      exec .encode s = .next { s with
        vin := some v
        vout := some (encChunk v)
        outBuf := out
        rd := some (rd + 12)
        wr := some (wr + 16) } ∧
      ∀ a, out.read a = if wr ≤ a ∧ a < wr + 16 then (encChunk v).toList[a - wr]? else s.outBuf.read a

/-- R146: one tail iteration on `k = min(12, LEN - RD)` bytes: the scratch window `v`, the whole next state, and what
every byte of `OUT` is in it. -/
def Obligations.EncodeTailIteration : Prop :=
  ∀ (s : State) (rd l wr cap k : Nat) (v : Lanes), s.busy = true → s.phase = .eTail →
    s.rd = some rd → s.len = some l → rd < l → s.wr = some wr → s.cap = some cap → wr + 16 ≤ cap →
    k = min 12 (l - rd) → rd + k ≤ s.params.inMax →
    (∀ i (_ : i < 16), i < k → s.inBuf.read (rd + i) = some v[i]) → (∀ i (_ : i < 16), k ≤ i → v[i] = 0x00#8) →
    ∃ out : Memory,
      exec .encode s = .next { s with
        scr := some v
        vin := some v
        vout := some (encChunk v)
        outBuf := out
        rd := some (rd + k)
        wr := some (wr + encLen k) } ∧
      ∀ a, out.read a = if wr ≤ a ∧ a < wr + 16 then (encChunk v).toList[a - wr]? else s.outBuf.read a

/-- R150: padding, logical length, completion. -/
def Obligations.EncodeFinalPads : Prop :=
  ∀ (s : State) (wr cap : Nat), s.busy = true → s.phase = .eFinal → s.wr = some wr → s.cap = some cap →
    wr + 2 ≤ cap →
    (wr % 4 = 2 → ∃ out : Memory,
      exec .encode s = .next (State.complete { s with outBuf := out, dstLen := some (wr + 2) } false) ∧
      ∀ a, out.read a = if a = wr ∨ a = wr + 1 then some 0x3D#8 else s.outBuf.read a) ∧
    (wr % 4 = 3 → ∃ out : Memory,
      exec .encode s = .next (State.complete { s with outBuf := out, dstLen := some (wr + 1) } false) ∧
      ∀ a, out.read a = if a = wr then some 0x3D#8 else s.outBuf.read a) ∧
    (wr % 4 = 0 → exec .encode s = .next (State.complete { s with dstLen := some wr } false))

/-! ## The phase rules of `DECODE` (44_stream_decode.md) -/

/-- R157: what stripping removes. -/
def Obligations.StrippingRemovesAtMostTwoPads : Prop :=
  ∀ (s : State) (l : Nat), l ≤ s.params.inMax →
    (l = 0 → s.stripLen l = some 0) ∧
    (∀ b, l = 1 → s.inBuf.read 0 = some b → s.stripLen l = some (if b = 0x3D#8 then 0 else 1)) ∧
    (∀ b c, 2 ≤ l → s.inBuf.read (l - 1) = some b → s.inBuf.read (l - 2) = some c →
      s.stripLen l = some (if b = 0x3D#8 ∧ c = 0x3D#8 then l - 2 else if b = 0x3D#8 then l - 1 else l))

/-- R156: `D_TRIM`, its outcomes in the order of the tests. -/
def Obligations.DecodeTrimValidatesAndSizes : Prop :=
  ∀ (s : State) (l : Nat), s.busy = true → s.phase = .dTrim → s.len = some l →
    (l > s.params.inMax → exec .decode s = .next (s.raise .range)) ∧
    (∀ n, l ≤ s.params.inMax → s.stripLen l = some n →
      (n = 0 → exec .decode s = .next (State.complete { s with slen := some 0, dstLen := some 0 } false)) ∧
      (n % 4 = 1 → exec .decode s = .next (State.raise { s with slen := some n } .invalidCharacter)) ∧
      (∀ d, n ≠ 0 → decLen n = some d →
        (d + 16 > s.params.outMax → exec .decode s = .next (State.raise { s with slen := some n } .range)) ∧
        (d + 16 ≤ s.params.outMax →
          exec .decode s = .next { s with
            slen := some n
            cap := some (d + 16)
            rd := some 0
            wr := some 0
            err := false
            phase := .dFast })))

/-- R160, R164: the exit of the decode loop, and the tail when nothing remains, change `PHASE` and nothing else. -/
def Obligations.DecodeLoopExits : Prop :=
  ∀ (s : State) (rd n : Nat), s.busy = true → s.rd = some rd → s.slen = some n →
    (s.phase = .dFast → n < rd + 16 → exec .decode s = .next { s with phase := .dTail }) ∧
    (s.phase = .dTail → rd = n → exec .decode s = .next { s with phase := .dFinal })

/-- R161, R212: one fast-path iteration, whatever `ERR` is: the whole next state, and what every byte of `OUT` is in
it. -/
def Obligations.DecodeFastIteration : Prop :=
  ∀ (s : State) (rd n wr cap : Nat) (v : Lanes), s.busy = true → s.phase = .dFast →
    s.rd = some rd → s.slen = some n → rd + 16 ≤ n → s.wr = some wr → s.cap = some cap → wr + 16 ≤ cap →
    rd + 16 ≤ s.params.inMax → (∀ i (_ : i < 16), s.inBuf.read (rd + i) = some v[i]) →
    ∃ out : Memory,
      exec .decode s = .next { s with
        vin := some v
        vout := some (decChunk s.params v)
        outBuf := out
        err := s.err || chunkFlag v
        rd := some (rd + 16)
        wr := some (wr + 12) } ∧
      ∀ a, out.read a = if wr ≤ a ∧ a < wr + 16 then (decChunk s.params v).toList[a - wr]? else s.outBuf.read a

/-- R165: the one tail chunk on the 1 to 15 remaining characters: the scratch window `v`, the whole next state, and
what every byte of `OUT` is in it. -/
def Obligations.DecodeTailChunk : Prop :=
  ∀ (s : State) (rd n wr cap d : Nat) (v : Lanes), s.busy = true → s.phase = .dTail →
    s.rd = some rd → s.slen = some n → rd < n → n - rd ≤ 15 → decLen (n - rd) = some d →
    s.wr = some wr → s.cap = some cap → wr + 16 ≤ cap → n ≤ s.params.inMax →
    (∀ i (_ : i < 16), i < n - rd → s.inBuf.read (rd + i) = some v[i]) →
    (∀ i (_ : i < 16), n - rd ≤ i → v[i] = 0x41#8) →
    ∃ out : Memory,
      exec .decode s = .next { s with
        scr := some v
        vin := some v
        vout := some (decChunk s.params v)
        outBuf := out
        err := s.err || chunkFlag v
        rd := some n
        wr := some (wr + d)
        phase := .dFinal } ∧
      ∀ a, out.read a = if wr ≤ a ∧ a < wr + 16 then (decChunk s.params v).toList[a - wr]? else s.outBuf.read a

/-- R168: the verdict. -/
def Obligations.DecodeFinalVerdict : Prop :=
  ∀ s : State, s.busy = true → s.phase = .dFinal →
    (s.err = true → exec .decode s = .next (s.raise .invalidCharacter)) ∧
    (∀ wr, s.err = false → s.wr = some wr →
      exec .decode s = .next (State.complete { s with dstLen := some wr } false))

/-! ## The unit commands (45_host_interface.md R183) -/

/-- R110: the one step of `ENCCHUNK`. -/
def Obligations.EncchunkEncodesTheWindow : Prop :=
  ∀ s : State, s.busy = true → s.phase = .uExec → s.op = some 2#3 →
    (s.params.inMax < 16 → exec .encchunk s = .next (s.raise .range)) ∧
    (∀ v : Lanes, 16 ≤ s.params.inMax → (∀ i (_ : i < 16), s.inBuf.read i = some v[i]) →
      ∃ out : Memory,
        exec .encchunk s = .next (State.complete { s with
          cap := some 16
          outBuf := out
          dstLen := some 16 } false) ∧
        ∀ a, out.read a = if a < 16 then (encChunk v).toList[a]? else s.outBuf.read a)

/-- R128: the one step of `DECCHUNK`: an illegal byte is reported in `STATUS.CF`, not as an error, and `ERR` is not
touched. -/
def Obligations.DecchunkDecodesTheWindow : Prop :=
  ∀ s : State, s.busy = true → s.phase = .uExec → s.op = some 3#3 →
    (s.params.inMax < 16 → exec .decchunk s = .next (s.raise .range)) ∧
    (∀ v : Lanes, 16 ≤ s.params.inMax → (∀ i (_ : i < 16), s.inBuf.read i = some v[i]) →
      ∃ out : Memory,
        exec .decchunk s = .next (State.complete { s with
          cap := some 16
          outBuf := out
          dstLen := some 16 } (chunkFlag v)) ∧
        ∀ a, out.read a = if a < 16 then (decChunk s.params v).toList[a]? else s.outBuf.read a)

/-- R96: the one step of `ENCLEN`. -/
def Obligations.EnclenComputesTheLength : Prop :=
  ∀ (s : State) (n : Nat), s.busy = true → s.phase = .uExec → s.op = some 4#3 → s.len = some n →
    (2 ^ s.params.aw ≤ encLen n → exec .enclen s = .next (s.raise .range)) ∧
    (encLen n < 2 ^ s.params.aw →
      exec .enclen s = .next (State.complete { s with dstLen := some (encLen n) } false))

/-- R97: the one step of `DECLEN`. -/
def Obligations.DeclenComputesTheLength : Prop :=
  ∀ (s : State) (n : Nat), s.busy = true → s.phase = .uExec → s.op = some 5#3 → s.len = some n →
    (n % 4 = 1 → exec .declen s = .next (s.raise .invalidCharacter)) ∧
    (∀ d, decLen n = some d → exec .declen s = .next (State.complete { s with dstLen := some d } false))

/-! ## Where the sequencer is stuck (20_memory.md R50, 60_exceptions.md R196) -/

/-- R50, R222: each rule that reads `IN` stops at a byte that holds `NOVALUE` or lies at or beyond `IN_MAX`. That
`D_TRIM` reads `IN[L-2]` also when `IN[L-1]` is no pad is the model's reading (assumption log 9). -/
def Obligations.UnwrittenInputStopsTheSequencer : Prop :=
  ∀ s : State, s.busy = true →
    (∀ rd fend wr cap, s.phase = .eFast → s.rd = some rd → s.fend = some fend → rd < fend → s.wr = some wr →
      s.cap = some cap → (s.params.inMax < rd + 16 ∨ ∃ i < 16, s.inBuf.read (rd + i) = none) →
      exec .encode s = .fault .stuckRead) ∧
    (∀ rd l wr cap, s.phase = .eTail → s.rd = some rd → s.len = some l → rd < l → s.wr = some wr →
      s.cap = some cap →
      (s.params.inMax < rd + min 12 (l - rd) ∨ ∃ i < min 12 (l - rd), s.inBuf.read (rd + i) = none) →
      exec .encode s = .fault .stuckRead) ∧
    (∀ l, s.phase = .dTrim → s.len = some l → l ≤ s.params.inMax →
      ((1 ≤ l ∧ s.inBuf.read (l - 1) = none) ∨ (2 ≤ l ∧ s.inBuf.read (l - 2) = none)) →
      exec .decode s = .fault .stuckRead) ∧
    (∀ rd n wr cap, s.phase = .dFast → s.rd = some rd → s.slen = some n → rd + 16 ≤ n → s.wr = some wr →
      s.cap = some cap → (s.params.inMax < rd + 16 ∨ ∃ i < 16, s.inBuf.read (rd + i) = none) →
      exec .decode s = .fault .stuckRead) ∧
    (∀ rd n wr cap d, s.phase = .dTail → s.rd = some rd → s.slen = some n → rd < n → n - rd ≤ 15 →
      decLen (n - rd) = some d → s.wr = some wr → s.cap = some cap →
      (s.params.inMax < n ∨ ∃ i < n - rd, s.inBuf.read (rd + i) = none) →
      exec .decode s = .fault .stuckRead) ∧
    (s.phase = .uExec → 16 ≤ s.params.inMax → (∃ i < 16, s.inBuf.read i = none) →
      (s.op = some 2#3 → exec .encchunk s = .fault .stuckRead) ∧
      (s.op = some 3#3 → exec .decchunk s = .fault .stuckRead))

/-! ## Frames -/

/-- R33, R29, R36: no command writes `IN`, `SRC_LEN` or the parameters, nor what the host has read or does next. -/
def Obligations.CommandsLeaveInputAndLengthAlone : Prop :=
  ∀ (i : Instr) (s t : State), exec i s = .next t →
    t.inBuf = s.inBuf ∧ t.srcLen = s.srcLen ∧ t.params = s.params ∧ t.host = s.host ∧ t.replies = s.replies

/-- R38, R53: what a step of a running `ENCODE` leaves alone: `OP`, `LEN`, `SLEN`, `ERR` always; `FEND` and `CAP` but
in an `E_CHECK` that passes; `RD` and `WR` but in that and in a chunk step; `DST_LEN`, `STATUS` and the vectors but in
the step that ends the command, `SCR` also in a tail step, `VIN` and `VOUT` in a chunk step; and every byte of `OUT`
but the sixteen at `WR` of a chunk step, the padding at `WR` of the final step, and all of them when an error discards
`OUT`. The exits of the two loops (R140, R145) are no chunk steps: they leave the cursors, the vectors and all of `OUT`
alone. -/
def Obligations.EncodeFrame : Prop :=
  ∀ s t : State, s.busy = true → exec .encode s = .next t →
    t.op = s.op ∧ t.len = s.len ∧ t.slen = s.slen ∧ t.err = s.err ∧
    (s.phase ≠ .eCheck ∨ t.busy = false → t.fend = s.fend ∧ t.cap = s.cap) ∧
    (s.phase = .eFinal ∨ t.busy = false → t.rd = s.rd ∧ t.wr = s.wr) ∧
    (t.busy = true → t.status = s.status ∧ t.dstLen = s.dstLen ∧ (s.phase ≠ .eTail → t.scr = s.scr)) ∧
    (s.phase = .eCheck → t.busy = true → t.vin = s.vin ∧ t.vout = s.vout ∧ t.outBuf = s.outBuf) ∧
    (∀ rd n, s.rd = some rd → n ≤ rd →
      ((s.phase = .eFast ∧ s.fend = some n) ∨ (s.phase = .eTail ∧ s.len = some n)) →
      t.rd = s.rd ∧ t.wr = s.wr ∧ t.vin = s.vin ∧ t.vout = s.vout ∧ t.scr = s.scr ∧ t.outBuf = s.outBuf) ∧
    ((s.phase = .eFast ∨ s.phase = .eTail) → ∀ wr, s.wr = some wr →
      ∀ a, (a < wr ∨ wr + 16 ≤ a) → t.outBuf.read a = s.outBuf.read a) ∧
    (s.phase = .eFinal → ∀ wr pads, s.wr = some wr → padding (wr % 4) = some pads →
      ∀ a, (a < wr ∨ wr + pads.length ≤ a) → t.outBuf.read a = s.outBuf.read a)

/-- R38, R53: what a step of a running `DECODE` leaves alone: `OP`, `LEN`, `FEND` always; `SLEN` but in `D_TRIM`; `CAP`
but in a `D_TRIM` that passes; `RD`, `WR` and `ERR` but in that and in a chunk step; `DST_LEN`, `STATUS` and the
vectors but in the step that ends the command, `SCR` also in a tail step, `VIN` and `VOUT` in a chunk step; and every
byte of `OUT` but the sixteen at `WR` of a chunk step, and all of them when an error discards `OUT`. The exit of the
loop (R160) and the empty tail (R164) are no chunk steps: they leave the cursors, `ERR`, the vectors and all of `OUT`
alone. -/
def Obligations.DecodeFrame : Prop :=
  ∀ s t : State, s.busy = true → exec .decode s = .next t →
    t.op = s.op ∧ t.len = s.len ∧ t.fend = s.fend ∧
    (s.phase ≠ .dTrim → t.slen = s.slen) ∧
    (s.phase ≠ .dTrim ∨ t.busy = false → t.cap = s.cap) ∧
    (s.phase = .dFinal ∨ t.busy = false → t.rd = s.rd ∧ t.wr = s.wr ∧ t.err = s.err) ∧
    (t.busy = true → t.status = s.status ∧ t.dstLen = s.dstLen ∧ (s.phase ≠ .dTail → t.scr = s.scr)) ∧
    (s.phase = .dTrim → t.busy = true → t.vin = s.vin ∧ t.vout = s.vout) ∧
    (∀ rd n, s.rd = some rd → s.slen = some n →
      ((s.phase = .dFast ∧ n < rd + 16) ∨ (s.phase = .dTail ∧ rd = n)) →
      t.rd = s.rd ∧ t.wr = s.wr ∧ t.err = s.err ∧ t.vin = s.vin ∧ t.vout = s.vout ∧ t.scr = s.scr ∧
        t.outBuf = s.outBuf) ∧
    ((s.phase = .dFast ∨ s.phase = .dTail) → ∀ wr, s.wr = some wr →
      ∀ a, (a < wr ∨ wr + 16 ≤ a) → t.outBuf.read a = s.outBuf.read a) ∧
    ((s.phase = .dTrim ∨ s.phase = .dFinal) → (t.busy = true ∨ t.errc = 0#3) → t.outBuf = s.outBuf)

/-- R38, R183: what the one step of a unit command leaves alone: every working register of the stream commands; for a
length command and for a chunk command that fails also `CAP`; for a length command that ends `OK` all of `OUT`, for a
chunk command that ends `OK` every byte of `OUT` but the sixteen at address 0. -/
def Obligations.UnitCommandFrame : Prop :=
  ∀ (i : Instr) (s t : State), i ∈ [.encchunk, .decchunk, .enclen, .declen] →
    s.busy = true → s.phase = .uExec → s.op = some i.opcode → exec i s = .next t →
    t.op = s.op ∧ t.len = s.len ∧ t.slen = s.slen ∧ t.rd = s.rd ∧ t.wr = s.wr ∧ t.fend = s.fend ∧ t.err = s.err ∧
    (i ∈ [.enclen, .declen] ∨ t.errc ≠ 0#3 → t.cap = s.cap) ∧
    (i ∈ [.enclen, .declen] → t.errc = 0#3 → t.outBuf = s.outBuf) ∧
    (i ∈ [.encchunk, .decchunk] → t.errc = 0#3 → ∀ a, 16 ≤ a → t.outBuf.read a = s.outBuf.read a) ∧
    (t.errc ≠ 0#3 → t.dstLen = some 0 ∧ ∀ a, t.outBuf.read a = none)

/-! ## Invariants and whole-machine rules -/

/-- R37, R216: the invariant holds right after reset. -/
def Obligations.ResetSatisfiesTheInvariant : Prop := State.reset.Inv

/-- Both buffer spaces keep their canonical form in every step from every state. The form is the model's own
(assumption log 2). -/
def Obligations.StepKeepsMemoryCanonical : Prop :=
  ∀ s t : State, s.Canonical → step s = .next t → t.Canonical

/-- R30, R22: `STATUS` keeps to its eight values, `CF` is 1 only after `DECCHUNK`, and `PHASE` is `IDLE` exactly when
`BUSY` is 0, in every step from every state where this holds. -/
def Obligations.StepKeepsStatusLegal : Prop :=
  ∀ s t : State, s.StatusOk → step s = .next t → t.StatusOk

/-- R16, R142, R147, R162, R166, R58: every step keeps the whole invariant: the widths, the cursors, the text and the
data written so far, and what a completed command leaves. -/
def Obligations.StepKeepsTheInvariant : Prop :=
  ∀ s t : State, s.Inv → step s = .next t → t.Inv

/-- R51, R53, R56, R196, R232: under the invariant nothing but an input byte the host has not written stops a running
command, and with its input in place it always has a step. -/
def Obligations.OnlyUnwrittenInputStopsACommand : Prop :=
  ∀ s : State, s.Inv → s.busy = true → s.host = [] →
    (∀ r, step s ≠ .refused r) ∧ (∀ f, step s = .fault f → f = .stuckRead) ∧
    (Loaded s.inBuf (min s.inputDuty s.params.inMax) → ∃ t, step s = .next t)

/-- R51, R38: a running command does not depend on any byte of `IN` at or beyond what it reads, `LEN` for a stream
command and 16 for a chunk command. -/
def Obligations.CommandsDoNotOverRead : Prop :=
  ∀ (s t : State) (m : Memory), s.Inv → s.busy = true → s.host = [] →
    (∀ a < s.inputDuty, m.read a = s.inBuf.read a) → step s = .next t →
    step { s with inBuf := m } = .next { t with inBuf := m }

/-- R22: no transition goes to an earlier stage: the transitions of a running command. -/
def Obligations.PhasesOnlyMoveForward : Prop :=
  ∀ s t : State, s.busy = true → s.host = [] → step s = .next t →
    (s.phase, t.phase) ∈ [(.eCheck, .eFast), (.eCheck, .idle), (.eFast, .eFast), (.eFast, .eTail), (.eTail, .eTail),
      (.eTail, .eFinal), (.eFinal, .idle), (.dTrim, .dFast), (.dTrim, .idle), (.dFast, .dFast), (.dFast, .dTail),
      (.dTail, .dFinal), (.dFinal, .idle), (.uExec, .idle)]

/-- R182, R153, R174, R183: every accepted command whose input is in place ends, within a bound linear in its
length. -/
def Obligations.EveryCommandEnds : Prop :=
  ∀ s : State, s.Inv → s.busy = true → s.host = [] → Loaded s.inBuf (min s.inputDuty s.params.inMax) →
    ∃ n t, n ≤ s.len.getD 0 / 12 + 6 ∧ Host.Core.run Sys2Proof.core n s = .next t ∧ t.busy = false ∧ t.done = true

/-! ## The stream commands end to end -/

/-- R152, R153, R151: `ENCODE` from the write of its word: the number of steps, the length and every byte of the
text. -/
def Obligations.EncodeProducesThePaddedText : Prop :=
  ∀ (s : State) (l : Nat), s.host = [.access (.writeReg 0 0x00)] → s.busy = false → s.srcLen = some l → 1 ≤ l →
    l ≤ s.params.inMax → encLen l + 16 ≤ s.params.outMax → Loaded s.inBuf l →
    ∃ t, Host.Core.run Sys2Proof.core (fastEnd l / 12 + (if l - fastEnd l ≤ 12 then 1 else 2) + 5) s = .next t ∧
      t.status = 0x02#8 ∧ t.dstLen = some (4 * ((l + 2) / 3)) ∧
      (∀ a < 4 * ((l + 2) / 3), t.outBuf.read a = some (paddedText s.inBuf l a)) ∧
      t.inBuf = s.inBuf ∧ t.srcLen = s.srcLen

/-- R169, R174: `DECODE` of a payload of legal bytes from the write of its word: the number of steps, the length and
every byte of the data. -/
def Obligations.DecodeProducesTheData : Prop :=
  ∀ (s : State) (l n d : Nat), s.host = [.access (.writeReg 0 0x01)] → s.busy = false → s.srcLen = some l →
    l ≤ s.params.inMax → Loaded s.inBuf l → s.stripLen l = some n → decLen n = some d →
    (n = 0 ∨ d + 16 ≤ s.params.outMax) → ¬ SomeIllegal s.inBuf n →
    ∃ t, Host.Core.run Sys2Proof.core (if n = 0 then 2 else n / 16 + 5) s = .next t ∧
      t.status = 0x02#8 ∧ t.dstLen = some d ∧
      (∀ a < d, t.outBuf.read a = some (dataByte s.params s.inBuf n a)) ∧
      t.inBuf = s.inBuf ∧ t.srcLen = s.srcLen

/-- R170, R212, R174: `DECODE` of a bad length or of a payload with an illegal byte fails with `INVALID_CHARACTER` and
returns nothing; an illegal byte takes as many steps as a good payload. -/
def Obligations.DecodeRejectsBadPayloads : Prop :=
  ∀ (s : State) (l n : Nat), s.host = [.access (.writeReg 0 0x01)] → s.busy = false → s.srcLen = some l →
    l ≤ s.params.inMax → Loaded s.inBuf l → s.stripLen l = some n →
    (n % 4 = 1 ∨ (SomeIllegal s.inBuf n ∧ ∃ d, decLen n = some d ∧ d + 16 ≤ s.params.outMax)) →
    ∃ t, Host.Core.run Sys2Proof.core (if n % 4 = 1 then 2 else n / 16 + 5) s = .next t ∧
      t.status = 0x0A#8 ∧ t.dstLen = some 0 ∧ t.outBuf = [] ∧ t.inBuf = s.inBuf ∧ t.srcLen = s.srcLen

/-- R173: `DECODE` of the text `ENCODE` produced, with or without its padding, returns the original bytes. -/
def Obligations.DecodeReturnsWhatEncodeTook : Prop :=
  ∀ (s : State) (l : Nat), s.host = [.access (.writeReg 0 0x00)] → s.busy = false → s.srcLen = some l → 1 ≤ l →
    l ≤ s.params.inMax → encLen l + 16 ≤ s.params.outMax → Loaded s.inBuf l →
    ∃ n t, 1 ≤ n ∧ Host.Core.run Sys2Proof.core n s = .next t ∧ t.status = 0x02#8 ∧
      ∀ (u : State) (d : Nat), t.dstLen = some d → u.host = [.access (.writeReg 0 0x01)] → u.busy = false →
        (u.srcLen = some d ∨ u.srcLen = some (encLen l)) → d ≤ u.params.inMax → l + 16 ≤ u.params.outMax →
        (∀ a < d, u.inBuf.read a = t.outBuf.read a) →
        ∃ m v, 1 ≤ m ∧ Host.Core.run Sys2Proof.core m u = .next v ∧ v.status = 0x02#8 ∧ v.dstLen = some l ∧
          ∀ i < l, v.outBuf.read i = s.inBuf.read i

/-- R172: the outcome of `DECODE` does not depend on `ILLEGAL_SEXTET` or `DEC_SLACK`. -/
def Obligations.DecodeIgnoresTheOpenParameters : Prop :=
  ∀ (s t : State) (l n : Nat) (x y : Config.OpenValue), s.host = [.access (.writeReg 0 0x01)] → s.busy = false →
    s.srcLen = some l → Loaded s.inBuf l → 1 ≤ n → Host.Core.run Sys2Proof.core n s = .next t → t.busy = false →
    ∃ u, Host.Core.run Sys2Proof.core n { s with params := { s.params with illegalSextet := x, decSlack := y } } =
        .next u ∧
      u.status = t.status ∧ u.dstLen = t.dstLen ∧
      ∀ d, t.dstLen = some d → ∀ a < d, u.outBuf.read a = t.outBuf.read a
end

