-- ==== Sys2Proof/Laws/Kernels.lean ====
section
/-! SUPPORT. The kernels lane by lane (41_chunk_encoder.md R100, 42_chunk_decoder.md R115), so that no proof unfolds
them again, and the lanes of a window. -/

namespace Sys2Proof.Machine

/-- Lane `i` of a window made from bytes: byte `i`, or the fill (R9, R10). -/
@[simp] theorem lanesOf_getElem (bs : List Byte) (c : Byte) (i : Nat) (h : i < 16) :
    (lanesOf bs c)[i] = bs.getD i c := by
  simp [lanesOf]

/-- Output lane `4g + j` of ChunkEncoder (R100, R103). -/
theorem encChunk_getElem (v : Lanes) (g j : Nat) (hg : g < 4) (hj : j < 4) :
    (encChunk v)[4 * g + j] = sym ((sextets v[3 * g] v[3 * g + 1] v[3 * g + 2])[j]) := by
  have h1 : (4 * g + j) / 4 = g := by omega
  have h2 : (4 * g + j) % 4 = j := by omega
  simp [encChunk, h1, h2]

/-- Output lane `3g + k` of ChunkDecoder, `g` below 4 (R115). -/
theorem decChunk_getElem (p : Config.Params) (v : Lanes) (g k : Nat) (hg : g < 4) (hk : k < 3) :
    (decChunk p v)[3 * g + k] = (pack (laneValue p v[4 * g]) (laneValue p v[4 * g + 1]) (laneValue p v[4 * g + 2])
      (laneValue p v[4 * g + 3]))[k] := by
  have h0 : 3 * g + k < 12 := by omega
  have h1 : (3 * g + k) / 3 = g := by omega
  have h2 : (3 * g + k) % 3 = k := by omega
  simp [decChunk, h0, h1, h2]

/-- Output lanes 12 to 15 of ChunkDecoder are `DEC_SLACK` (R122). -/
theorem decChunk_slack (p : Config.Params) (v : Lanes) (k : Nat) (hk : k < 4) :
    (decChunk p v)[12 + k] = (decSlack p v)[k] := by
  have h0 : ¬ 12 + k < 12 := by omega
  simp [decChunk, h0]

/-- A legal byte's value does not depend on the parameters. -/
theorem laneValue_of_legal (p q : Config.Params) (c : Byte) (h : legal c = true) : laneValue p c = laneValue q c := by
  unfold legal at h
  obtain ⟨v, hv⟩ := Option.isSome_iff_exists.1 h
  simp [laneValue, hv]

/-- The fill byte of the decode scratch window is legal and worth 0 (R125). -/
theorem legal_decFill : legal Config.decFill = true := by decide

theorem laneValue_decFill (p : Config.Params) : laneValue p Config.decFill = 0#6 := by
  simp [laneValue, show symbolValue Config.decFill = some 0#6 by decide]

/-- The value of a legal byte is its `Val` (R117). -/
theorem laneValue_eq_of_symbolValue (p : Config.Params) {c : Byte} {s : Sextet} (h : symbolValue c = some s) :
    laneValue p c = s := by
  simp [laneValue, h]

end Sys2Proof.Machine
end

