-- ==== Sys2Proof/Laws/Memory.lean ====
section
/-! SUPPORT. The laws of a buffer space: a write is read back and leaves every other address alone, every write keeps
the canonical form, and two canonical spaces that read alike are equal. -/

namespace Sys2Proof.Machine

@[simp] theorem Memory.read_nil (a : Nat) : Memory.read [] a = none := rfl

theorem Memory.wf_nil : Memory.wf [] := List.Pairwise.nil

/-- One write, read anywhere. -/
theorem Memory.read_write (m : Memory) (a c : Nat) (b : Byte) :
    (m.write a b).read c = if c = a then some b else m.read c := by
  induction m with
  | nil => simp [Memory.write, Memory.read, eq_comm]
  | cons x rest ih =>
    obtain ⟨k, v⟩ := x
    unfold Memory.write
    by_cases h1 : a < k
    · simp only [h1, ↓reduceIte, Memory.read]
      by_cases h2 : c = a
      · simp [h2]
      · simp [h2, Ne.symm h2]
    · by_cases h2 : a = k
      · subst h2
        by_cases h3 : c = a
        · simp [Memory.read, h3]
        · simp [Memory.read, h3, Ne.symm h3]
      · simp only [h1, h2, ↓reduceIte, Memory.read, ih]
        by_cases h3 : c = a
        · subst h3
          simp [Ne.symm h2]
        · simp [h3]

/-- Every address a write lists is one that was listed or the one written. -/
theorem Memory.mem_write (m : Memory) (a : Nat) (b : Byte) (x : Host.Cell) (h : x ∈ m.write a b) :
    x = (a, b) ∨ x ∈ m := by
  induction m with
  | nil => simpa [Memory.write] using h
  | cons y rest ih =>
    obtain ⟨k, v⟩ := y
    unfold Memory.write at h
    split at h
    · simpa using h
    · split at h
      · rcases List.mem_cons.1 h with h | h
        · exact .inl h
        · exact .inr (List.mem_cons_of_mem _ h)
      · rcases List.mem_cons.1 h with h | h
        · exact .inr (h ▸ List.mem_cons_self)
        · rcases ih h with h | h
          · exact .inl h
          · exact .inr (List.mem_cons_of_mem _ h)

/-- A write keeps the canonical form. -/
theorem Memory.write_wf (m : Memory) (a : Nat) (b : Byte) (h : m.wf) : (m.write a b).wf := by
  induction m with
  | nil => simp [Memory.write]
  | cons y rest ih =>
    obtain ⟨k, v⟩ := y
    obtain ⟨hk, hr⟩ := List.pairwise_cons.1 h
    unfold Memory.write
    split
    · rename_i hak
      refine List.pairwise_cons.2 ⟨?_, h⟩
      intro x hx
      rcases List.mem_cons.1 hx with rfl | hx
      · exact hak
      · exact Nat.lt_trans hak (hk x hx)
    · split
      · rename_i hak
        subst hak
        exact List.pairwise_cons.2 ⟨hk, hr⟩
      · rename_i h1 h2
        refine List.pairwise_cons.2 ⟨?_, ih hr⟩
        intro x hx
        rcases Memory.mem_write _ _ _ _ hx with rfl | hx
        · simp only; omega
        · exact hk x hx

/-- A byte sequence written keeps the canonical form. -/
theorem Memory.writeBytes_wf (bs : List Byte) : ∀ (m : Memory) (a : Nat), m.wf → (m.writeBytes a bs).wf := by
  induction bs with
  | nil => intro m a h; exact h
  | cons b bs ih => intro m a h; exact ih _ _ (Memory.write_wf m a b h)

/-- A byte sequence written, read anywhere. -/
theorem Memory.read_writeBytes (bs : List Byte) : ∀ (m : Memory) (a c : Nat),
    (m.writeBytes a bs).read c = if a ≤ c ∧ c < a + bs.length then bs[c - a]? else m.read c := by
  induction bs with
  | nil =>
    intro m a c
    have h : ¬ (a ≤ c ∧ c < a + ([] : List Byte).length) := by simp
    rw [if_neg h]
    rfl
  | cons b bs ih =>
    intro m a c
    show (Memory.writeBytes (m.write a b) (a + 1) bs).read c = _
    rw [ih, Memory.read_write]
    simp only [List.length_cons]
    by_cases h1 : c = a
    · subst h1
      have h2 : ¬ (c + 1 ≤ c ∧ c < c + 1 + bs.length) := by omega
      simp [h2]
    · by_cases h2 : a + 1 ≤ c ∧ c < a + 1 + bs.length
      · have h3 : a ≤ c ∧ c < a + (bs.length + 1) := by omega
        have h4 : c - a = (c - (a + 1)) + 1 := by omega
        rw [if_pos h2, if_pos h3, h4, List.getElem?_cons_succ]
      · have h3 : ¬ (a ≤ c ∧ c < a + (bs.length + 1)) := by omega
        rw [if_neg h2, if_neg h3, if_neg h1]

/-- An address that is not listed reads as `NOVALUE`. -/
theorem Memory.read_eq_none (m : Memory) (a : Nat) (h : ∀ x ∈ m, x.1 ≠ a) : m.read a = none := by
  induction m with
  | nil => rfl
  | cons y rest ih =>
    obtain ⟨k, v⟩ := y
    have hk : k ≠ a := h (k, v) List.mem_cons_self
    simp only [Memory.read, hk, ↓reduceIte]
    exact ih fun x hx => h x (List.mem_cons_of_mem _ hx)

/-- A byte read is one that is listed. -/
theorem Memory.mem_of_read (m : Memory) (a : Nat) (b : Byte) (h : m.read a = some b) : (a, b) ∈ m := by
  induction m with
  | nil => exact absurd h (by simp)
  | cons y rest ih =>
    obtain ⟨k, v⟩ := y
    unfold Memory.read at h
    split at h
    · rename_i hk
      cases h
      exact hk ▸ List.mem_cons_self
    · exact List.mem_cons_of_mem _ (ih h)

/-- Two canonical spaces that read alike are equal data. -/
theorem Memory.eq_of_read_eq : ∀ (m n : Memory), m.wf → n.wf → (∀ a, m.read a = n.read a) → m = n
  | [], [], _, _, _ => rfl
  | [], (k, v) :: n, _, _, h => by
    have := h k
    simp [Memory.read] at this
  | (k, v) :: m, [], _, _, h => by
    have := h k
    simp [Memory.read] at this
  | (k, v) :: m, (j, w) :: n, hm, hn, h => by
    obtain ⟨hk, hm'⟩ := List.pairwise_cons.1 hm
    obtain ⟨hj, hn'⟩ := List.pairwise_cons.1 hn
    have absent : ∀ (r : Memory) (c : Nat), (∀ x ∈ r, c < x.1) → ∀ a, a ≤ c → Memory.read r a = none := by
      intro r c hr a ha
      exact Memory.read_eq_none r a fun x hx => by have := hr x hx; omega
    have hkj : k = j := by
      rcases Nat.lt_trichotomy k j with hlt | heq | hgt
      · have := h k
        simp only [Memory.read, ↓reduceIte] at this
        rw [if_neg (by omega), absent n j hj k (by omega)] at this
        exact absurd this (by simp)
      · exact heq
      · have := h j
        simp only [Memory.read, ↓reduceIte] at this
        rw [if_neg (by omega), absent m k hk j (by omega)] at this
        exact absurd this (by simp)
    subst hkj
    have hvw : v = w := by
      have := h k
      simpa [Memory.read] using this
    subst hvw
    have : m = n := by
      refine Memory.eq_of_read_eq m n hm' hn' fun a => ?_
      by_cases ha : k = a
      · subst ha
        rw [absent m k hk k (Nat.le_refl _), absent n k hj k (Nat.le_refl _)]
      · have := h a
        simpa [Memory.read, ha] using this
    rw [this]

/-- `MemRead`: what the bytes read are. -/
theorem Memory.readBytes_eq_some (n : Nat) : ∀ (m : Memory) (a : Nat) (bs : List Byte),
    m.readBytes a n = some bs ↔ bs.length = n ∧ ∀ i < n, m.read (a + i) = bs[i]? := by
  induction n with
  | zero =>
    intro m a bs
    cases bs <;> simp [Memory.readBytes]
  | succ n ih =>
    intro m a bs
    constructor
    · intro h
      simp only [Memory.readBytes] at h
      split at h
      · rename_i b cs hb hcs
        obtain ⟨hl, hr⟩ := (ih m (a + 1) cs).1 hcs
        cases h
        refine ⟨by simp [hl], ?_⟩
        intro i hi
        cases i with
        | zero => simpa using hb
        | succ i =>
          have := hr i (by omega)
          rw [List.getElem?_cons_succ, ← this]
          congr 1
          omega
      · exact absurd h (by simp)
    · rintro ⟨hl, hr⟩
      cases bs with
      | nil => simp at hl
      | cons b cs =>
        have h0 := hr 0 (by omega)
        have ht : m.readBytes (a + 1) n = some cs := by
          refine (ih m (a + 1) cs).2 ⟨by simpa using hl, ?_⟩
          intro i hi
          have := hr (i + 1) (by omega)
          rw [List.getElem?_cons_succ] at this
          rw [← this]
          congr 1
          omega
        simp only [Nat.add_zero, List.getElem?_cons_zero] at h0
        simp [Memory.readBytes, h0, ht]

/-- `MemRead` is admitted by the contents when every byte holds a value. -/
theorem Memory.readBytes_isSome (n : Nat) : ∀ (m : Memory) (a : Nat),
    (∀ i < n, ∃ b, m.read (a + i) = some b) → ∃ bs, m.readBytes a n = some bs := by
  induction n with
  | zero => intro m a _; exact ⟨[], rfl⟩
  | succ n ih =>
    intro m a h
    obtain ⟨b, hb⟩ := h 0 (by omega)
    obtain ⟨bs, hbs⟩ := ih m (a + 1) fun i hi => by
      obtain ⟨c, hc⟩ := h (i + 1) (by omega)
      exact ⟨c, by rw [← hc]; congr 1; omega⟩
    exact ⟨b :: bs, by simp only [Nat.add_zero] at hb; simp [Memory.readBytes, hb, hbs]⟩

/-- `MemRead` depends on the bytes it reads alone. -/
theorem Memory.readBytes_congr (n : Nat) (m m' : Memory) (a : Nat)
    (h : ∀ i < n, m.read (a + i) = m'.read (a + i)) : m.readBytes a n = m'.readBytes a n := by
  induction n generalizing a with
  | zero => rfl
  | succ n ih =>
    have h0 := h 0 (by omega)
    simp only [Nat.add_zero] at h0
    have ht := ih (a + 1) fun i hi => by
      have := h (i + 1) (by omega)
      rw [show a + 1 + i = a + (i + 1) by omega]
      exact this
    simp [Memory.readBytes, h0, ht]

end Sys2Proof.Machine
end

