-- ==== Sys2Proof/Laws/State.lean ====
section
/-! SUPPORT. One lemma per field for each named update of the state, so that no proof unfolds a record update, and the
fields of the values of `STATUS` that rules write. -/

namespace Sys2Proof.Machine

@[simp] theorem State.raise_params (s : State) (e : ErrCode) : (s.raise e).params = s.params := rfl
@[simp] theorem State.raise_status (s : State) (e : ErrCode) : (s.raise e).status = statusEnded e false := rfl
@[simp] theorem State.raise_srcLen (s : State) (e : ErrCode) : (s.raise e).srcLen = s.srcLen := rfl
@[simp] theorem State.raise_dstLen (s : State) (e : ErrCode) : (s.raise e).dstLen = some 0 := rfl
@[simp] theorem State.raise_phase (s : State) (e : ErrCode) : (s.raise e).phase = .idle := rfl
@[simp] theorem State.raise_op (s : State) (e : ErrCode) : (s.raise e).op = s.op := rfl
@[simp] theorem State.raise_len (s : State) (e : ErrCode) : (s.raise e).len = s.len := rfl
@[simp] theorem State.raise_slen (s : State) (e : ErrCode) : (s.raise e).slen = s.slen := rfl
@[simp] theorem State.raise_rd (s : State) (e : ErrCode) : (s.raise e).rd = s.rd := rfl
@[simp] theorem State.raise_wr (s : State) (e : ErrCode) : (s.raise e).wr = s.wr := rfl
@[simp] theorem State.raise_fend (s : State) (e : ErrCode) : (s.raise e).fend = s.fend := rfl
@[simp] theorem State.raise_cap (s : State) (e : ErrCode) : (s.raise e).cap = s.cap := rfl
@[simp] theorem State.raise_err (s : State) (e : ErrCode) : (s.raise e).err = s.err := rfl
@[simp] theorem State.raise_vin (s : State) (e : ErrCode) : (s.raise e).vin = none := rfl
@[simp] theorem State.raise_vout (s : State) (e : ErrCode) : (s.raise e).vout = none := rfl
@[simp] theorem State.raise_scr (s : State) (e : ErrCode) : (s.raise e).scr = none := rfl
@[simp] theorem State.raise_inBuf (s : State) (e : ErrCode) : (s.raise e).inBuf = s.inBuf := rfl
@[simp] theorem State.raise_outBuf (s : State) (e : ErrCode) : (s.raise e).outBuf = [] := rfl
@[simp] theorem State.raise_host (s : State) (e : ErrCode) : (s.raise e).host = s.host := rfl
@[simp] theorem State.raise_replies (s : State) (e : ErrCode) : (s.raise e).replies = s.replies := rfl

@[simp] theorem State.complete_params (s : State) (c : Bool) : (s.complete c).params = s.params := rfl
@[simp] theorem State.complete_status (s : State) (c : Bool) : (s.complete c).status = statusEnded .ok c := rfl
@[simp] theorem State.complete_srcLen (s : State) (c : Bool) : (s.complete c).srcLen = s.srcLen := rfl
@[simp] theorem State.complete_dstLen (s : State) (c : Bool) : (s.complete c).dstLen = s.dstLen := rfl
@[simp] theorem State.complete_phase (s : State) (c : Bool) : (s.complete c).phase = .idle := rfl
@[simp] theorem State.complete_op (s : State) (c : Bool) : (s.complete c).op = s.op := rfl
@[simp] theorem State.complete_len (s : State) (c : Bool) : (s.complete c).len = s.len := rfl
@[simp] theorem State.complete_slen (s : State) (c : Bool) : (s.complete c).slen = s.slen := rfl
@[simp] theorem State.complete_rd (s : State) (c : Bool) : (s.complete c).rd = s.rd := rfl
@[simp] theorem State.complete_wr (s : State) (c : Bool) : (s.complete c).wr = s.wr := rfl
@[simp] theorem State.complete_fend (s : State) (c : Bool) : (s.complete c).fend = s.fend := rfl
@[simp] theorem State.complete_cap (s : State) (c : Bool) : (s.complete c).cap = s.cap := rfl
@[simp] theorem State.complete_err (s : State) (c : Bool) : (s.complete c).err = s.err := rfl
@[simp] theorem State.complete_vin (s : State) (c : Bool) : (s.complete c).vin = none := rfl
@[simp] theorem State.complete_vout (s : State) (c : Bool) : (s.complete c).vout = none := rfl
@[simp] theorem State.complete_scr (s : State) (c : Bool) : (s.complete c).scr = none := rfl
@[simp] theorem State.complete_inBuf (s : State) (c : Bool) : (s.complete c).inBuf = s.inBuf := rfl
@[simp] theorem State.complete_outBuf (s : State) (c : Bool) : (s.complete c).outBuf = s.outBuf := rfl
@[simp] theorem State.complete_host (s : State) (c : Bool) : (s.complete c).host = s.host := rfl
@[simp] theorem State.complete_replies (s : State) (c : Bool) : (s.complete c).replies = s.replies := rfl

@[simp] theorem State.accepted_params (s : State) (i : Instr) : (s.accepted i).params = s.params := rfl
@[simp] theorem State.accepted_status (s : State) (i : Instr) : (s.accepted i).status = statusBusy := rfl
@[simp] theorem State.accepted_srcLen (s : State) (i : Instr) : (s.accepted i).srcLen = s.srcLen := rfl
@[simp] theorem State.accepted_dstLen (s : State) (i : Instr) : (s.accepted i).dstLen = none := rfl
@[simp] theorem State.accepted_phase (s : State) (i : Instr) : (s.accepted i).phase = firstPhase i := rfl
@[simp] theorem State.accepted_op (s : State) (i : Instr) : (s.accepted i).op = some i.opcode := rfl
@[simp] theorem State.accepted_len (s : State) (i : Instr) : (s.accepted i).len = s.srcLen := rfl
@[simp] theorem State.accepted_slen (s : State) (i : Instr) : (s.accepted i).slen = s.slen := rfl
@[simp] theorem State.accepted_rd (s : State) (i : Instr) : (s.accepted i).rd = s.rd := rfl
@[simp] theorem State.accepted_wr (s : State) (i : Instr) : (s.accepted i).wr = s.wr := rfl
@[simp] theorem State.accepted_fend (s : State) (i : Instr) : (s.accepted i).fend = s.fend := rfl
@[simp] theorem State.accepted_cap (s : State) (i : Instr) : (s.accepted i).cap = s.cap := rfl
@[simp] theorem State.accepted_err (s : State) (i : Instr) : (s.accepted i).err = s.err := rfl
@[simp] theorem State.accepted_vin (s : State) (i : Instr) : (s.accepted i).vin = none := rfl
@[simp] theorem State.accepted_vout (s : State) (i : Instr) : (s.accepted i).vout = none := rfl
@[simp] theorem State.accepted_scr (s : State) (i : Instr) : (s.accepted i).scr = none := rfl
@[simp] theorem State.accepted_inBuf (s : State) (i : Instr) : (s.accepted i).inBuf = s.inBuf := rfl
@[simp] theorem State.accepted_outBuf (s : State) (i : Instr) : (s.accepted i).outBuf = [] := rfl
@[simp] theorem State.accepted_host (s : State) (i : Instr) : (s.accepted i).host = s.host := rfl
@[simp] theorem State.accepted_replies (s : State) (i : Instr) : (s.accepted i).replies = s.replies := rfl

@[simp] theorem State.illegalWord_params (s : State) : (s.illegalWord).params = s.params := rfl
@[simp] theorem State.illegalWord_status (s : State) : (s.illegalWord).status = statusEnded .illegalCommand false := rfl
@[simp] theorem State.illegalWord_srcLen (s : State) : (s.illegalWord).srcLen = s.srcLen := rfl
@[simp] theorem State.illegalWord_dstLen (s : State) : (s.illegalWord).dstLen = some 0 := rfl
@[simp] theorem State.illegalWord_phase (s : State) : (s.illegalWord).phase = s.phase := rfl
@[simp] theorem State.illegalWord_op (s : State) : (s.illegalWord).op = s.op := rfl
@[simp] theorem State.illegalWord_len (s : State) : (s.illegalWord).len = s.len := rfl
@[simp] theorem State.illegalWord_slen (s : State) : (s.illegalWord).slen = s.slen := rfl
@[simp] theorem State.illegalWord_rd (s : State) : (s.illegalWord).rd = s.rd := rfl
@[simp] theorem State.illegalWord_wr (s : State) : (s.illegalWord).wr = s.wr := rfl
@[simp] theorem State.illegalWord_fend (s : State) : (s.illegalWord).fend = s.fend := rfl
@[simp] theorem State.illegalWord_cap (s : State) : (s.illegalWord).cap = s.cap := rfl
@[simp] theorem State.illegalWord_err (s : State) : (s.illegalWord).err = s.err := rfl
@[simp] theorem State.illegalWord_vin (s : State) : (s.illegalWord).vin = s.vin := rfl
@[simp] theorem State.illegalWord_vout (s : State) : (s.illegalWord).vout = s.vout := rfl
@[simp] theorem State.illegalWord_scr (s : State) : (s.illegalWord).scr = s.scr := rfl
@[simp] theorem State.illegalWord_inBuf (s : State) : (s.illegalWord).inBuf = s.inBuf := rfl
@[simp] theorem State.illegalWord_outBuf (s : State) : (s.illegalWord).outBuf = [] := rfl
@[simp] theorem State.illegalWord_host (s : State) : (s.illegalWord).host = s.host := rfl
@[simp] theorem State.illegalWord_replies (s : State) : (s.illegalWord).replies = s.replies := rfl

@[simp] theorem State.resetNow_params (s : State) : (s.resetNow).params = s.params := rfl
@[simp] theorem State.resetNow_status (s : State) : (s.resetNow).status = 0x00#8 := rfl
@[simp] theorem State.resetNow_srcLen (s : State) : (s.resetNow).srcLen = none := rfl
@[simp] theorem State.resetNow_dstLen (s : State) : (s.resetNow).dstLen = none := rfl
@[simp] theorem State.resetNow_phase (s : State) : (s.resetNow).phase = .idle := rfl
@[simp] theorem State.resetNow_op (s : State) : (s.resetNow).op = none := rfl
@[simp] theorem State.resetNow_len (s : State) : (s.resetNow).len = none := rfl
@[simp] theorem State.resetNow_slen (s : State) : (s.resetNow).slen = none := rfl
@[simp] theorem State.resetNow_rd (s : State) : (s.resetNow).rd = none := rfl
@[simp] theorem State.resetNow_wr (s : State) : (s.resetNow).wr = none := rfl
@[simp] theorem State.resetNow_fend (s : State) : (s.resetNow).fend = none := rfl
@[simp] theorem State.resetNow_cap (s : State) : (s.resetNow).cap = none := rfl
@[simp] theorem State.resetNow_err (s : State) : (s.resetNow).err = false := rfl
@[simp] theorem State.resetNow_vin (s : State) : (s.resetNow).vin = none := rfl
@[simp] theorem State.resetNow_vout (s : State) : (s.resetNow).vout = none := rfl
@[simp] theorem State.resetNow_scr (s : State) : (s.resetNow).scr = none := rfl
@[simp] theorem State.resetNow_inBuf (s : State) : (s.resetNow).inBuf = [] := rfl
@[simp] theorem State.resetNow_outBuf (s : State) : (s.resetNow).outBuf = [] := rfl
@[simp] theorem State.resetNow_host (s : State) : (s.resetNow).host = s.host := rfl
@[simp] theorem State.resetNow_replies (s : State) : (s.resetNow).replies = s.replies := rfl

@[simp] theorem State.reply_params (s : State) (r : Reply) : (s.reply r).params = s.params := rfl
@[simp] theorem State.reply_status (s : State) (r : Reply) : (s.reply r).status = s.status := rfl
@[simp] theorem State.reply_srcLen (s : State) (r : Reply) : (s.reply r).srcLen = s.srcLen := rfl
@[simp] theorem State.reply_dstLen (s : State) (r : Reply) : (s.reply r).dstLen = s.dstLen := rfl
@[simp] theorem State.reply_phase (s : State) (r : Reply) : (s.reply r).phase = s.phase := rfl
@[simp] theorem State.reply_op (s : State) (r : Reply) : (s.reply r).op = s.op := rfl
@[simp] theorem State.reply_len (s : State) (r : Reply) : (s.reply r).len = s.len := rfl
@[simp] theorem State.reply_slen (s : State) (r : Reply) : (s.reply r).slen = s.slen := rfl
@[simp] theorem State.reply_rd (s : State) (r : Reply) : (s.reply r).rd = s.rd := rfl
@[simp] theorem State.reply_wr (s : State) (r : Reply) : (s.reply r).wr = s.wr := rfl
@[simp] theorem State.reply_fend (s : State) (r : Reply) : (s.reply r).fend = s.fend := rfl
@[simp] theorem State.reply_cap (s : State) (r : Reply) : (s.reply r).cap = s.cap := rfl
@[simp] theorem State.reply_err (s : State) (r : Reply) : (s.reply r).err = s.err := rfl
@[simp] theorem State.reply_vin (s : State) (r : Reply) : (s.reply r).vin = s.vin := rfl
@[simp] theorem State.reply_vout (s : State) (r : Reply) : (s.reply r).vout = s.vout := rfl
@[simp] theorem State.reply_scr (s : State) (r : Reply) : (s.reply r).scr = s.scr := rfl
@[simp] theorem State.reply_inBuf (s : State) (r : Reply) : (s.reply r).inBuf = s.inBuf := rfl
@[simp] theorem State.reply_outBuf (s : State) (r : Reply) : (s.reply r).outBuf = s.outBuf := rfl
@[simp] theorem State.reply_host (s : State) (r : Reply) : (s.reply r).host = s.host := rfl
@[simp] theorem State.reply_replies (s : State) (r : Reply) : (s.reply r).replies = s.replies ++ [r] := rfl

@[simp] theorem State.placeWord_params (s : State) (w : BitVec 8) : (s.placeWord w).params = s.params := rfl
@[simp] theorem State.placeWord_status (s : State) (w : BitVec 8) : (s.placeWord w).status = s.status &&& 0xFE#8 := rfl
@[simp] theorem State.placeWord_srcLen (s : State) (w : BitVec 8) : (s.placeWord w).srcLen = lengthFor w s.srcLen := rfl
@[simp] theorem State.placeWord_dstLen (s : State) (w : BitVec 8) : (s.placeWord w).dstLen = s.dstLen := rfl
@[simp] theorem State.placeWord_phase (s : State) (w : BitVec 8) : (s.placeWord w).phase = .idle := rfl
@[simp] theorem State.placeWord_op (s : State) (w : BitVec 8) : (s.placeWord w).op = s.op := rfl
@[simp] theorem State.placeWord_len (s : State) (w : BitVec 8) : (s.placeWord w).len = s.len := rfl
@[simp] theorem State.placeWord_slen (s : State) (w : BitVec 8) : (s.placeWord w).slen = s.slen := rfl
@[simp] theorem State.placeWord_rd (s : State) (w : BitVec 8) : (s.placeWord w).rd = s.rd := rfl
@[simp] theorem State.placeWord_wr (s : State) (w : BitVec 8) : (s.placeWord w).wr = s.wr := rfl
@[simp] theorem State.placeWord_fend (s : State) (w : BitVec 8) : (s.placeWord w).fend = s.fend := rfl
@[simp] theorem State.placeWord_cap (s : State) (w : BitVec 8) : (s.placeWord w).cap = s.cap := rfl
@[simp] theorem State.placeWord_err (s : State) (w : BitVec 8) : (s.placeWord w).err = s.err := rfl
@[simp] theorem State.placeWord_vin (s : State) (w : BitVec 8) : (s.placeWord w).vin = s.vin := rfl
@[simp] theorem State.placeWord_vout (s : State) (w : BitVec 8) : (s.placeWord w).vout = s.vout := rfl
@[simp] theorem State.placeWord_scr (s : State) (w : BitVec 8) : (s.placeWord w).scr = s.scr := rfl
@[simp] theorem State.placeWord_inBuf (s : State) (w : BitVec 8) : (s.placeWord w).inBuf = s.inBuf := rfl
@[simp] theorem State.placeWord_outBuf (s : State) (w : BitVec 8) : (s.placeWord w).outBuf = s.outBuf := rfl
@[simp] theorem State.placeWord_host (s : State) (w : BitVec 8) : (s.placeWord w).host = .access (.writeReg 0 w.toNat) :: s.host := rfl
@[simp] theorem State.placeWord_replies (s : State) (w : BitVec 8) : (s.placeWord w).replies = s.replies := rfl

/-! The fields of the values `STATUS` is given (10_state.md R28, R30). -/

@[simp] theorem statusBusy_eq : statusBusy = 0x01#8 := rfl

@[simp] theorem statusEnded_busy (e : ErrCode) (c : Bool) : (statusEnded e c).getLsbD 0 = false := by
  cases e <;> cases c <;> decide

@[simp] theorem statusEnded_done (e : ErrCode) (c : Bool) : (statusEnded e c).getLsbD 1 = true := by
  cases e <;> cases c <;> decide

@[simp] theorem statusEnded_errc (e : ErrCode) (c : Bool) : (statusEnded e c).extractLsb' 2 3 = e.code := by
  cases e <;> cases c <;> decide

@[simp] theorem statusEnded_cf (e : ErrCode) (c : Bool) : (statusEnded e c).getLsbD 5 = c := by
  cases e <;> cases c <;> decide

@[simp] theorem State.raise_done (s : State) (e : ErrCode) : (s.raise e).done = true := statusEnded_done _ _

@[simp] theorem State.raise_errc (s : State) (e : ErrCode) : (s.raise e).errc = e.code := statusEnded_errc _ _

@[simp] theorem State.raise_cf (s : State) (e : ErrCode) : (s.raise e).cf = false := statusEnded_cf _ _

@[simp] theorem State.complete_done (s : State) (c : Bool) : (s.complete c).done = true := statusEnded_done _ _

@[simp] theorem State.complete_errc (s : State) (c : Bool) : (s.complete c).errc = 0#3 := statusEnded_errc _ _

@[simp] theorem State.complete_cf (s : State) (c : Bool) : (s.complete c).cf = c := statusEnded_cf _ _

@[simp] theorem State.illegalWord_done (s : State) : s.illegalWord.done = true := statusEnded_done _ _

@[simp] theorem State.illegalWord_errc (s : State) : s.illegalWord.errc = 3#3 := statusEnded_errc _ _

@[simp] theorem State.illegalWord_cf (s : State) : s.illegalWord.cf = false := statusEnded_cf _ _

@[simp] theorem State.raise_busy (s : State) (e : ErrCode) : (s.raise e).busy = false := statusEnded_busy _ _

@[simp] theorem State.complete_busy (s : State) (c : Bool) : (s.complete c).busy = false := statusEnded_busy _ _

@[simp] theorem State.illegalWord_busy (s : State) : s.illegalWord.busy = false := statusEnded_busy _ _

@[simp] theorem State.accepted_busy (s : State) (i : Instr) : (s.accepted i).busy = true := by simp [State.busy]

@[simp] theorem State.resetNow_busy (s : State) : s.resetNow.busy = false := by simp [State.busy]

@[simp] theorem State.placeWord_busy (s : State) (w : BitVec 8) : (s.placeWord w).busy = false := by
  simp [State.busy]

end Sys2Proof.Machine
end

