-- ==== Sys2Proof/Laws/Ops.lean ====
section
/-! SUPPORT. What each shared operation can do, said once: the stop of a read that finds nothing, the sequencer's
reads and writes, the operand windows, acceptance. -/

namespace Sys2Proof.Machine

@[simp] theorem orFault_some {α : Type} (f : Fault) (v : α) (k : α → Out) : orFault f (some v) k = k v := rfl

@[simp] theorem orFault_none {α : Type} (f : Fault) (k : α → Out) : orFault f none k = .fault f := rfl

/-- A next state after a read: the read found a value. -/
theorem orFault_eq_next {α : Type} {f : Fault} {r : Option α} {k : α → Out} {t : State} :
    orFault f r k = .next t ↔ ∃ v, r = some v ∧ k v = .next t := by
  cases r <;> simp

/-- No read answers a refusal of its own. -/
theorem orFault_eq_refused {α : Type} {f : Fault} {r : Option α} {k : α → Out} {e : Refusal} :
    orFault f r k = .refused e ↔ ∃ v, r = some v ∧ k v = .refused e := by
  cases r <;> simp

/-- A fault after a read: the read's own, or a later one. -/
theorem orFault_eq_fault {α : Type} {f g : Fault} {r : Option α} {k : α → Out} :
    orFault f r k = .fault g ↔ (r = none ∧ g = f) ∨ ∃ v, r = some v ∧ k v = .fault g := by
  cases r <;> simp [eq_comm]

/-- What a sequencer read of `IN` gives (20_memory.md R50). -/
theorem State.memRead_eq_some {s : State} {a n : Nat} {bs : List Byte} :
    s.memRead a n = some bs ↔
      a + n ≤ s.params.inMax ∧ bs.length = n ∧ ∀ i < n, s.inBuf.read (a + i) = bs[i]? := by
  unfold State.memRead
  split
  · rename_i h
    rw [Memory.readBytes_eq_some]
    simp [h]
  · rename_i h
    simp [h]

/-- When a sequencer read of `IN` is admitted (R50). -/
theorem State.memRead_isSome {s : State} {a n : Nat} (h : a + n ≤ s.params.inMax)
    (hb : ∀ i < n, ∃ b, s.inBuf.read (a + i) = some b) : ∃ bs, s.memRead a n = some bs := by
  obtain ⟨bs, hbs⟩ := Memory.readBytes_isSome n s.inBuf a hb
  exact ⟨bs, by simp [State.memRead, h, hbs]⟩

/-- What a sequencer write to `OUT` leaves (R53, R55). -/
theorem State.memWrite_eq_some {s : State} {cap a : Nat} {bs : List Byte} {m : Memory} :
    s.memWrite cap a bs = some m ↔ a + bs.length ≤ cap ∧ m = s.outBuf.writeBytes a bs := by
  unfold State.memWrite
  split <;> rename_i h <;> simp [h, eq_comm]

/-- The scratch window: lane `i` is `IN[a + i]` below `k` and the fill from `k` on (43_stream_encode.md R146). -/
theorem State.scratch_eq_some {s : State} {a k : Nat} {c : Byte} {v : Lanes} (hk : k ≤ 16) :
    s.scratch a k c = some v ↔
      a + k ≤ s.params.inMax ∧ (∀ i (h : i < 16), i < k → s.inBuf.read (a + i) = some v[i]) ∧
        ∀ i (h : i < 16), k ≤ i → v[i] = c := by
  constructor
  · intro h
    simp only [State.scratch, Option.map_eq_some_iff] at h
    obtain ⟨bs, hbs, rfl⟩ := h
    obtain ⟨h1, h2, h3⟩ := State.memRead_eq_some.1 hbs
    refine ⟨h1, ?_, ?_⟩
    · intro i hi hik
      rw [h3 i hik, lanesOf_getElem _ _ _ hi]
      simp [h2, hik]
    · intro i hi hki
      rw [lanesOf_getElem _ _ _ hi, List.getD_eq_getElem?_getD, List.getElem?_eq_none (by omega)]
      rfl
  · rintro ⟨h1, h2, h3⟩
    obtain ⟨bs, hbs⟩ := State.memRead_isSome h1 fun i hi => ⟨v[i]'(by omega), h2 i (by omega) hi⟩
    obtain ⟨-, hl, hr⟩ := State.memRead_eq_some.1 hbs
    simp only [State.scratch, hbs, Option.map_some, Option.some.injEq]
    apply Vector.ext
    intro i hi
    rw [lanesOf_getElem _ _ _ hi, List.getD_eq_getElem?_getD]
    by_cases hik : i < k
    · have h4 := h2 i hi hik
      rw [hr i hik] at h4
      rw [h4]
      rfl
    · rw [List.getElem?_eq_none (by omega), h3 i hi (by omega)]
      rfl

/-- The window taken directly from `IN`: lane `i` is `IN[a + i]` (R46). -/
theorem State.window_eq_some {s : State} {a : Nat} {v : Lanes} :
    s.window a = some v ↔
      a + 16 ≤ s.params.inMax ∧ ∀ i (h : i < 16), s.inBuf.read (a + i) = some v[i] := by
  have h : s.window a = s.scratch a 16 0x00#8 := rfl
  rw [h, State.scratch_eq_some (Nat.le_refl 16)]
  constructor
  · rintro ⟨h1, h2, -⟩
    exact ⟨h1, fun i hi => h2 i hi hi⟩
  · rintro ⟨h1, h2⟩
    exact ⟨h1, fun i hi _ => h2 i hi, fun i hi hk => absurd hi (by omega)⟩

/-- When a direct window is admitted. -/
theorem State.window_isSome {s : State} {a : Nat} (h : a + 16 ≤ s.params.inMax)
    (hb : ∀ i < 16, ∃ b, s.inBuf.read (a + i) = some b) : ∃ v, s.window a = some v := by
  obtain ⟨bs, hbs⟩ := State.memRead_isSome h hb
  exact ⟨lanesOf bs 0x00#8, by simp [State.window, hbs]⟩

/-- When a scratch window is admitted. -/
theorem State.scratch_isSome {s : State} {a k : Nat} (c : Byte) (h : a + k ≤ s.params.inMax)
    (hb : ∀ i < k, ∃ b, s.inBuf.read (a + i) = some b) : ∃ v, s.scratch a k c = some v := by
  obtain ⟨bs, hbs⟩ := State.memRead_isSome h hb
  exact ⟨lanesOf bs c, by simp [State.scratch, hbs]⟩

/-- A 16-lane store, read anywhere (R46, R55). -/
theorem Memory.read_writeLanes (m : Memory) (a c : Nat) (v : Lanes) :
    (m.writeBytes a v.toList).read c =
      if h : a ≤ c ∧ c < a + 16 then some (v[c - a]'(by omega)) else m.read c := by
  rw [Memory.read_writeBytes]
  simp only [Vector.length_toList]
  split
  · rename_i h
    have hl : c - a < v.toList.length := by simp; omega
    rw [List.getElem?_eq_getElem hl]
    simp
  · rfl

/-- What acceptance can answer (45_host_interface.md R177). -/
theorem accept_cases (i : Instr) (s : State) :
    (accept i s = .next (s.accepted i) ∧ (takesLength i = true → ∃ n, s.srcLen = some n)) ∨
      (accept i s = .refused .commandNotAdmitted ∧ takesLength i = true ∧ s.srcLen = none) := by
  unfold accept
  cases h1 : takesLength i <;> cases h2 : s.srcLen <;> simp

/-- What stripping finds (44_stream_decode.md R157): at most two bytes go. -/
theorem State.stripLen_le {s : State} {l n : Nat} (h : s.stripLen l = some n) : n ≤ l ∧ l ≤ n + 2 := by
  match l with
  | 0 => simp [State.stripLen] at h; omega
  | 1 =>
    simp only [State.stripLen] at h
    split at h
    · simp only [Option.some.injEq] at h
      split at h <;> omega
    · exact absurd h (by simp)
  | l + 2 =>
    simp only [State.stripLen] at h
    split at h
    · simp only [Option.some.injEq] at h
      split at h
      · omega
      · split at h <;> omega
    · exact absurd h (by simp)

/-- Stripping depends on the parameters and `IN` alone. -/
theorem State.stripLen_congr {s t : State} (hp : s.params = t.params) (hi : s.inBuf = t.inBuf) (l : Nat) :
    s.stripLen l = t.stripLen l := by
  match l with
  | 0 => rfl
  | 1 => simp [State.stripLen, State.memRead, hp, hi]
  | l + 2 => simp [State.stripLen, State.memRead, hp, hi]

end Sys2Proof.Machine
end

