-- ==== Sys2Proof/Laws/SizeMath.lean ====
section
/-! SUPPORT. What the cursor proofs use of SizeMath (40_sizemath.md R90, R91, R95) and of `FastEnd`
(43_stream_encode.md R137): the closed forms, from which omega reasons, and the growth by one chunk. -/

namespace Sys2Proof.Machine

@[simp] theorem encLen_zero : encLen 0 = 0 := rfl

@[simp] theorem decLen_zero : decLen 0 = some 0 := rfl

/-- The closed form of R95. -/
theorem encLen_eq (n : Nat) : encLen n = (4 * n + 2) / 3 := by
  unfold encLen
  repeat' split
  all_goals omega

/-- The closed form of R95, off the residue 1. -/
theorem decLen_eq {n : Nat} (h : n % 4 ≠ 1) : decLen n = some (3 * n / 4) := by
  unfold decLen
  rw [if_neg h]
  congr 1
  repeat' split
  all_goals omega

/-- `DecLen` has a value exactly off the residue 1 (R91), and there the closed form. -/
theorem decLen_eq_some {n d : Nat} : decLen n = some d ↔ n % 4 ≠ 1 ∧ d = 3 * n / 4 := by
  by_cases h : n % 4 = 1
  · simp [decLen, h]
  · simp [decLen_eq h, h, eq_comm]

theorem decLen_eq_none {n : Nat} : decLen n = none ↔ n % 4 = 1 := by
  simp [decLen]

theorem decLen_isSome {n : Nat} (h : n % 4 ≠ 1) : ∃ d, decLen n = some d := ⟨_, decLen_eq h⟩

/-- A tail step of `b` bytes after whole groups (R95). -/
theorem encLen_add (a b : Nat) (h : a % 3 = 0) : encLen (a + b) = encLen a + encLen b := by
  simp only [encLen_eq]
  omega

theorem encLen_add_twelve (n : Nat) : encLen (n + 12) = encLen n + 16 := by
  simp only [encLen_eq]
  omega

/-- A remainder after whole groups (R95). -/
theorem decLen_add {a b d e : Nat} (ha : a % 4 = 0) (h : decLen a = some d) (hb : decLen b = some e) :
    decLen (a + b) = some (d + e) := by
  rw [decLen_eq_some] at h hb ⊢
  omega

/-- `FEND` by its three cases, as omega can use it (R137). -/
theorem fastEnd_cases (l : Nat) :
    (4 ≤ l % 12 ∧ fastEnd l = l - l % 12) ∨ (l % 12 < 4 ∧ l < 16 ∧ fastEnd l = 0) ∨
      (l % 12 < 4 ∧ 16 ≤ l ∧ fastEnd l = l - l % 12 - 12) := by
  unfold fastEnd
  split
  · exact .inl ⟨‹_›, rfl⟩
  · split
    · exact .inr (.inl ⟨by omega, ‹_›, rfl⟩)
    · exact .inr (.inr ⟨by omega, by omega, rfl⟩)

end Sys2Proof.Machine
end

