-- ==== Sys2Proof/Laws/Exec.lean ====
section
/-! SUPPORT. What a step can do, said once: the cases of `exec`, of each phase rule that answers a next state, and of
`advance`. Later proofs cite these and unfold no meaning. -/

namespace Sys2Proof.Machine

/-- Rule `r` of command `i` fires at `s`: the command is the running one and its phase is the rule's (R22, R183). -/
inductive Fires : Instr → State → (State → Out) → Prop
  | eCheck {s : State} (h : s.phase = .eCheck) : Fires .encode s ruleECheck
  | eFast {s : State} (h : s.phase = .eFast) : Fires .encode s ruleEFast
  | eTail {s : State} (h : s.phase = .eTail) : Fires .encode s ruleETail
  | eFinal {s : State} (h : s.phase = .eFinal) : Fires .encode s ruleEFinal
  | dTrim {s : State} (h : s.phase = .dTrim) : Fires .decode s ruleDTrim
  | dFast {s : State} (h : s.phase = .dFast) : Fires .decode s ruleDFast
  | dTail {s : State} (h : s.phase = .dTail) : Fires .decode s ruleDTail
  | dFinal {s : State} (h : s.phase = .dFinal) : Fires .decode s ruleDFinal
  | encchunk {s : State} (h : s.phase = .uExec) (o : s.op = some 2#3) : Fires .encchunk s ruleEncchunk
  | decchunk {s : State} (h : s.phase = .uExec) (o : s.op = some 3#3) : Fires .decchunk s ruleDecchunk
  | enclen {s : State} (h : s.phase = .uExec) (o : s.op = some 4#3) : Fires .enclen s ruleEnclen
  | declen {s : State} (h : s.phase = .uExec) (o : s.op = some 5#3) : Fires .declen s ruleDeclen

/-- While idle a command is accepted, or not admitted (R177). -/
theorem exec_idle (i : Instr) {s : State} (h : s.busy = false) : exec i s = accept i s := by
  cases i <;>
    simp [exec, execEncode, execDecode, execEncchunk, execDecchunk, execEnclen, execDeclen, unitCommand, h]

/-- While busy the rule of the running command fires. -/
theorem exec_fires {i : Instr} {s : State} {r : State → Out} (h : s.busy = true) (f : Fires i s r) :
    exec i s = r s := by
  cases f <;>
    simp [exec, execEncode, execDecode, execEncchunk, execDecchunk, execEnclen, execDeclen, unitCommand,
      Instr.opcode, *]

/-- The rule that fires names the running command (R22, R183). -/
theorem Fires.running {i : Instr} {s : State} {r : State → Out} (f : Fires i s r) : s.running = some i := by
  cases f <;> simp only [State.running, *] <;> rfl

/-- With no host access pending, a step of a running command is its rule. -/
theorem step_fires {i : Instr} {s : State} {r : State → Out} (hh : s.host = []) (hb : s.busy = true)
    (f : Fires i s r) : step s = r s := by
  simp only [step, advance, hh, sequencerTurn, hb, f.running, ↓reduceIte, exec_fires hb f]

/-- While busy a command either fires its rule or is ignored (R179). -/
theorem exec_busy (i : Instr) {s : State} (h : s.busy = true) :
    (∃ r, Fires i s r ∧ exec i s = r s) ∨ exec i s = .next s := by
  have unit : ∀ (j : Instr) (r : State → Out), unitCommand j r s = (if s.phase = .uExec ∧ s.op = some j.opcode then
      r s else .next s) := fun j r => by simp [unitCommand, h]
  cases i
  · cases hp : s.phase
    case eCheck => exact .inl ⟨_, .eCheck hp, exec_fires h (.eCheck hp)⟩
    case eFast => exact .inl ⟨_, .eFast hp, exec_fires h (.eFast hp)⟩
    case eTail => exact .inl ⟨_, .eTail hp, exec_fires h (.eTail hp)⟩
    case eFinal => exact .inl ⟨_, .eFinal hp, exec_fires h (.eFinal hp)⟩
    all_goals exact .inr (by simp [exec, execEncode, h, hp])
  · cases hp : s.phase
    case dTrim => exact .inl ⟨_, .dTrim hp, exec_fires h (.dTrim hp)⟩
    case dFast => exact .inl ⟨_, .dFast hp, exec_fires h (.dFast hp)⟩
    case dTail => exact .inl ⟨_, .dTail hp, exec_fires h (.dTail hp)⟩
    case dFinal => exact .inl ⟨_, .dFinal hp, exec_fires h (.dFinal hp)⟩
    all_goals exact .inr (by simp [exec, execDecode, h, hp])
  · by_cases c : s.phase = .uExec ∧ s.op = some 2#3
    · exact .inl ⟨_, .encchunk c.1 c.2, exec_fires h (.encchunk c.1 c.2)⟩
    · exact .inr (by simp only [exec, execEncchunk, unit, Instr.opcode, c, ↓reduceIte])
  · by_cases c : s.phase = .uExec ∧ s.op = some 3#3
    · exact .inl ⟨_, .decchunk c.1 c.2, exec_fires h (.decchunk c.1 c.2)⟩
    · exact .inr (by simp only [exec, execDecchunk, unit, Instr.opcode, c, ↓reduceIte])
  · by_cases c : s.phase = .uExec ∧ s.op = some 4#3
    · exact .inl ⟨_, .enclen c.1 c.2, exec_fires h (.enclen c.1 c.2)⟩
    · exact .inr (by simp only [exec, execEnclen, unit, Instr.opcode, c, ↓reduceIte])
  · by_cases c : s.phase = .uExec ∧ s.op = some 5#3
    · exact .inl ⟨_, .declen c.1 c.2, exec_fires h (.declen c.1 c.2)⟩
    · exact .inr (by simp only [exec, execDeclen, unit, Instr.opcode, c, ↓reduceIte])

/-- Everything `exec` can do when it answers a next state. -/
theorem exec_cases {i : Instr} {s t : State} (h : exec i s = .next t) :
    (s.busy = false ∧ t = s.accepted i ∧ (takesLength i = true → ∃ n, s.srcLen = some n)) ∨
      (s.busy = true ∧ ∃ r, Fires i s r ∧ r s = .next t) ∨ (s.busy = true ∧ t = s) := by
  cases hb : s.busy
  · rw [exec_idle i hb] at h
    rcases accept_cases i s with ⟨ha, hl⟩ | ⟨ha, -, -⟩
    · rw [ha] at h
      cases h
      exact .inl ⟨rfl, rfl, hl⟩
    · rw [ha] at h
      exact absurd h (by simp)
  · rcases exec_busy i hb with ⟨r, hf, hr⟩ | hr
    · exact .inr (.inl ⟨rfl, r, hf, hr ▸ h⟩)
    · rw [hr] at h
      cases h
      exact .inr (.inr ⟨rfl, rfl⟩)

/-- `E_CHECK` (R136). -/
theorem ruleECheck_cases {s t : State} (h : ruleECheck s = .next t) :
    ∃ l, s.len = some l ∧
      ((l = 0 ∧ t = s.raise .emptyInput) ∨
        (1 ≤ l ∧ (s.params.inMax < l ∨ s.params.outMax < encLen l + 16) ∧ t = s.raise .range) ∨
        (1 ≤ l ∧ l ≤ s.params.inMax ∧ encLen l + 16 ≤ s.params.outMax ∧
          t = { s with
            cap := some (encLen l + 16), rd := some 0, wr := some 0, fend := some (fastEnd l), phase := .eFast })) := by
  obtain ⟨l, hl, h⟩ := orFault_eq_next.1 h
  refine ⟨l, hl, ?_⟩
  split at h
  · cases h
    exact .inl ⟨‹_›, rfl⟩
  · split at h
    · cases h
      exact .inr (.inl ⟨by omega, ‹_›, rfl⟩)
    · cases h
      exact .inr (.inr ⟨by omega, by omega, by omega, rfl⟩)

/-- `E_FAST` (R140, R141). -/
theorem ruleEFast_cases {s t : State} (h : ruleEFast s = .next t) :
    ∃ rd fend, s.rd = some rd ∧ s.fend = some fend ∧
      ((fend ≤ rd ∧ t = { s with phase := .eTail }) ∨
        (rd < fend ∧ ∃ wr cap vin, s.wr = some wr ∧ s.cap = some cap ∧ s.window rd = some vin ∧ wr + 16 ≤ cap ∧
          t = { s with
            vin := some vin, vout := some (encChunk vin), outBuf := s.outBuf.writeBytes wr (encChunk vin).toList,
            rd := some (rd + 12), wr := some (wr + 16) })) := by
  obtain ⟨rd, hrd, h⟩ := orFault_eq_next.1 h
  obtain ⟨fend, hf, h⟩ := orFault_eq_next.1 h
  refine ⟨rd, fend, hrd, hf, ?_⟩
  split at h
  · rename_i hlt
    obtain ⟨wr, hwr, h⟩ := orFault_eq_next.1 h
    obtain ⟨cap, hcap, h⟩ := orFault_eq_next.1 h
    obtain ⟨vin, hv, h⟩ := orFault_eq_next.1 h
    obtain ⟨out, ho, h⟩ := orFault_eq_next.1 h
    obtain ⟨hc, rfl⟩ := State.memWrite_eq_some.1 ho
    cases h
    exact .inr ⟨hlt, wr, cap, vin, hwr, hcap, hv, by simpa using hc, rfl⟩
  · cases h
    exact .inl ⟨by omega, rfl⟩

/-- `E_TAIL` (R145, R146). -/
theorem ruleETail_cases {s t : State} (h : ruleETail s = .next t) :
    ∃ rd l, s.rd = some rd ∧ s.len = some l ∧
      ((l ≤ rd ∧ t = { s with phase := .eFinal }) ∨
        (rd < l ∧ ∃ wr cap scr, s.wr = some wr ∧ s.cap = some cap ∧
          s.scratch rd (min 12 (l - rd)) Config.encFill = some scr ∧ wr + 16 ≤ cap ∧
          t = { s with
            scr := some scr, vin := some scr, vout := some (encChunk scr),
            outBuf := s.outBuf.writeBytes wr (encChunk scr).toList,
            rd := some (rd + min 12 (l - rd)), wr := some (wr + encLen (min 12 (l - rd))) })) := by
  obtain ⟨rd, hrd, h⟩ := orFault_eq_next.1 h
  obtain ⟨l, hl, h⟩ := orFault_eq_next.1 h
  refine ⟨rd, l, hrd, hl, ?_⟩
  split at h
  · rename_i hlt
    obtain ⟨wr, hwr, h⟩ := orFault_eq_next.1 h
    obtain ⟨cap, hcap, h⟩ := orFault_eq_next.1 h
    obtain ⟨scr, hv, h⟩ := orFault_eq_next.1 h
    obtain ⟨out, ho, h⟩ := orFault_eq_next.1 h
    obtain ⟨hc, rfl⟩ := State.memWrite_eq_some.1 ho
    cases h
    exact .inr ⟨hlt, wr, cap, scr, hwr, hcap, hv, by simpa using hc, rfl⟩
  · cases h
    exact .inl ⟨by omega, rfl⟩

/-- `E_FINAL` (R150). -/
theorem ruleEFinal_cases {s t : State} (h : ruleEFinal s = .next t) :
    ∃ wr cap pads, s.wr = some wr ∧ s.cap = some cap ∧ padding (wr % 4) = some pads ∧ wr + pads.length ≤ cap ∧
      t = ({ s with
        outBuf := s.outBuf.writeBytes wr pads, dstLen := some (wr + pads.length) } : State).complete false := by
  obtain ⟨wr, hwr, h⟩ := orFault_eq_next.1 h
  obtain ⟨cap, hcap, h⟩ := orFault_eq_next.1 h
  obtain ⟨pads, hp, h⟩ := orFault_eq_next.1 h
  obtain ⟨out, ho, h⟩ := orFault_eq_next.1 h
  obtain ⟨hc, rfl⟩ := State.memWrite_eq_some.1 ho
  cases h
  exact ⟨wr, cap, pads, hwr, hcap, hp, hc, rfl⟩

/-- `D_TRIM` (R156). -/
theorem ruleDTrim_cases {s t : State} (h : ruleDTrim s = .next t) :
    ∃ l, s.len = some l ∧
      ((s.params.inMax < l ∧ t = s.raise .range) ∨
        (l ≤ s.params.inMax ∧ ∃ n, s.stripLen l = some n ∧
          ((n = 0 ∧ t = ({ s with slen := some n, dstLen := some 0 } : State).complete false) ∨
            (n % 4 = 1 ∧ t = ({ s with slen := some n } : State).raise .invalidCharacter) ∨
            (1 ≤ n ∧ n % 4 ≠ 1 ∧ ∃ d, decLen n = some d ∧
              ((s.params.outMax < d + 16 ∧ t = ({ s with slen := some n } : State).raise .range) ∨
                (d + 16 ≤ s.params.outMax ∧
                  t = { s with
                    slen := some n, cap := some (d + 16), rd := some 0, wr := some 0, err := false,
                    phase := .dFast })))))) := by
  obtain ⟨l, hl, h⟩ := orFault_eq_next.1 h
  refine ⟨l, hl, ?_⟩
  split at h
  · cases h
    exact .inl ⟨‹_›, rfl⟩
  · obtain ⟨n, hn, h⟩ := orFault_eq_next.1 h
    refine .inr ⟨by omega, n, hn, ?_⟩
    split at h
    · cases h
      exact .inl ⟨‹_›, rfl⟩
    · split at h
      · cases h
        exact .inr (.inl ⟨‹_›, rfl⟩)
      · obtain ⟨d, hd, h⟩ := orFault_eq_next.1 h
        refine .inr (.inr ⟨by omega, ‹_›, d, hd, ?_⟩)
        split at h
        · cases h
          exact .inl ⟨‹_›, rfl⟩
        · cases h
          exact .inr ⟨by omega, rfl⟩

/-- `D_FAST` (R160, R161). -/
theorem ruleDFast_cases {s t : State} (h : ruleDFast s = .next t) :
    ∃ rd n, s.rd = some rd ∧ s.slen = some n ∧
      ((n < rd + 16 ∧ t = { s with phase := .dTail }) ∨
        (rd + 16 ≤ n ∧ ∃ wr cap vin, s.wr = some wr ∧ s.cap = some cap ∧ s.window rd = some vin ∧ wr + 16 ≤ cap ∧
          t = { s with
            vin := some vin, vout := some (decChunk s.params vin),
            outBuf := s.outBuf.writeBytes wr (decChunk s.params vin).toList,
            err := stickyErr s.err (chunkFlag vin), rd := some (rd + 16), wr := some (wr + 12) })) := by
  obtain ⟨rd, hrd, h⟩ := orFault_eq_next.1 h
  obtain ⟨n, hn, h⟩ := orFault_eq_next.1 h
  refine ⟨rd, n, hrd, hn, ?_⟩
  split at h
  · rename_i hlt
    obtain ⟨wr, hwr, h⟩ := orFault_eq_next.1 h
    obtain ⟨cap, hcap, h⟩ := orFault_eq_next.1 h
    obtain ⟨vin, hv, h⟩ := orFault_eq_next.1 h
    obtain ⟨out, ho, h⟩ := orFault_eq_next.1 h
    obtain ⟨hc, rfl⟩ := State.memWrite_eq_some.1 ho
    cases h
    exact .inr ⟨hlt, wr, cap, vin, hwr, hcap, hv, by simpa using hc, rfl⟩
  · cases h
    exact .inl ⟨by omega, rfl⟩

/-- `D_TAIL` (R164, R165). -/
theorem ruleDTail_cases {s t : State} (h : ruleDTail s = .next t) :
    ∃ rd n, s.rd = some rd ∧ s.slen = some n ∧
      ((rd = n ∧ t = { s with phase := .dFinal }) ∨
        (rd < n ∧ n - rd ≤ 15 ∧ ∃ wr cap d scr, s.wr = some wr ∧ s.cap = some cap ∧ decLen (n - rd) = some d ∧
          s.scratch rd (n - rd) Config.decFill = some scr ∧ wr + 16 ≤ cap ∧
          t = { s with
            scr := some scr, vin := some scr, vout := some (decChunk s.params scr),
            outBuf := s.outBuf.writeBytes wr (decChunk s.params scr).toList,
            err := stickyErr s.err (chunkFlag scr), rd := some (rd + (n - rd)), wr := some (wr + d),
            phase := .dFinal })) := by
  obtain ⟨rd, hrd, h⟩ := orFault_eq_next.1 h
  obtain ⟨n, hn, h⟩ := orFault_eq_next.1 h
  refine ⟨rd, n, hrd, hn, ?_⟩
  split at h
  · cases h
    exact .inl ⟨‹_›, rfl⟩
  · split at h
    · rename_i hlt
      obtain ⟨wr, hwr, h⟩ := orFault_eq_next.1 h
      obtain ⟨cap, hcap, h⟩ := orFault_eq_next.1 h
      obtain ⟨d, hd, h⟩ := orFault_eq_next.1 h
      obtain ⟨scr, hv, h⟩ := orFault_eq_next.1 h
      obtain ⟨out, ho, h⟩ := orFault_eq_next.1 h
      obtain ⟨hc, rfl⟩ := State.memWrite_eq_some.1 ho
      cases h
      exact .inr ⟨hlt.1, hlt.2, wr, cap, d, scr, hwr, hcap, hd, hv, by simpa using hc, rfl⟩
    · exact absurd h (by simp)

/-- `D_FINAL` (R168). -/
theorem ruleDFinal_cases {s t : State} (h : ruleDFinal s = .next t) :
    (s.err = true ∧ t = s.raise .invalidCharacter) ∨
      (s.err = false ∧ ∃ wr, s.wr = some wr ∧ t = ({ s with dstLen := some wr } : State).complete false) := by
  unfold ruleDFinal at h
  split at h
  · cases h
    exact .inl ⟨‹_›, rfl⟩
  · rename_i he
    obtain ⟨wr, hwr, h⟩ := orFault_eq_next.1 h
    cases h
    exact .inr ⟨by simpa using he, wr, hwr, rfl⟩

/-- `ENCCHUNK` (R110). -/
theorem ruleEncchunk_cases {s t : State} (h : ruleEncchunk s = .next t) :
    (s.params.inMax < 16 ∧ t = s.raise .range) ∨
      (16 ≤ s.params.inMax ∧ ∃ vin, s.window 0 = some vin ∧
        t = ({ s with
          cap := some 16, vin := some vin, vout := some (encChunk vin),
          outBuf := s.outBuf.writeBytes 0 (encChunk vin).toList, dstLen := some 16 } : State).complete false) := by
  unfold ruleEncchunk at h
  split at h
  · cases h
    exact .inl ⟨‹_›, rfl⟩
  · obtain ⟨vin, hv, h⟩ := orFault_eq_next.1 h
    obtain ⟨out, ho, h⟩ := orFault_eq_next.1 h
    obtain ⟨-, rfl⟩ := State.memWrite_eq_some.1 ho
    cases h
    exact .inr ⟨by omega, vin, hv, rfl⟩

/-- `DECCHUNK` (R128). -/
theorem ruleDecchunk_cases {s t : State} (h : ruleDecchunk s = .next t) :
    (s.params.inMax < 16 ∧ t = s.raise .range) ∨
      (16 ≤ s.params.inMax ∧ ∃ vin, s.window 0 = some vin ∧
        t = ({ s with
          cap := some 16, vin := some vin, vout := some (decChunk s.params vin),
          outBuf := s.outBuf.writeBytes 0 (decChunk s.params vin).toList,
          dstLen := some 16 } : State).complete (chunkFlag vin)) := by
  unfold ruleDecchunk at h
  split at h
  · cases h
    exact .inl ⟨‹_›, rfl⟩
  · obtain ⟨vin, hv, h⟩ := orFault_eq_next.1 h
    obtain ⟨out, ho, h⟩ := orFault_eq_next.1 h
    obtain ⟨-, rfl⟩ := State.memWrite_eq_some.1 ho
    cases h
    exact .inr ⟨by omega, vin, hv, rfl⟩

/-- `ENCLEN` (R96). -/
theorem ruleEnclen_cases {s t : State} (h : ruleEnclen s = .next t) :
    ∃ n, s.len = some n ∧
      ((2 ^ s.params.aw ≤ encLen n ∧ t = s.raise .range) ∨
        (encLen n < 2 ^ s.params.aw ∧ t = ({ s with dstLen := some (encLen n) } : State).complete false)) := by
  obtain ⟨n, hn, h⟩ := orFault_eq_next.1 h
  refine ⟨n, hn, ?_⟩
  split at h
  · cases h
    exact .inl ⟨‹_›, rfl⟩
  · cases h
    exact .inr ⟨by omega, rfl⟩

/-- `DECLEN` (R97). -/
theorem ruleDeclen_cases {s t : State} (h : ruleDeclen s = .next t) :
    ∃ n, s.len = some n ∧
      ((decLen n = none ∧ t = s.raise .invalidCharacter) ∨
        (∃ d, decLen n = some d ∧ t = ({ s with dstLen := some d } : State).complete false)) := by
  obtain ⟨n, hn, h⟩ := orFault_eq_next.1 h
  refine ⟨n, hn, ?_⟩
  split at h
  · cases h
    exact .inl ⟨‹_›, rfl⟩
  · cases h
    exact .inr ⟨_, ‹_›, rfl⟩

/-- What a fired rule can do to the spaces: `IN` is never written; `OUT` is kept, discarded, or gets one store. -/
theorem Fires.spaces {i : Instr} {s t : State} {r : State → Out} (f : Fires i s r) (h : r s = .next t) :
    t.inBuf = s.inBuf ∧
      (t.outBuf = s.outBuf ∨ t.outBuf = [] ∨ ∃ a bs, t.outBuf = s.outBuf.writeBytes a bs) := by
  cases f with
  | eCheck => obtain ⟨_, -, ⟨-, rfl⟩ | ⟨-, -, rfl⟩ | ⟨-, -, -, rfl⟩⟩ := ruleECheck_cases h <;> simp
  | eFast =>
    obtain ⟨_, _, -, -, ⟨-, rfl⟩ | ⟨-, _, _, _, -, -, -, -, rfl⟩⟩ := ruleEFast_cases h
    · simp
    · exact ⟨rfl, .inr (.inr ⟨_, _, rfl⟩)⟩
  | eTail =>
    obtain ⟨_, _, -, -, ⟨-, rfl⟩ | ⟨-, _, _, _, -, -, -, -, rfl⟩⟩ := ruleETail_cases h
    · simp
    · exact ⟨rfl, .inr (.inr ⟨_, _, rfl⟩)⟩
  | eFinal =>
    obtain ⟨_, _, _, -, -, -, -, rfl⟩ := ruleEFinal_cases h
    exact ⟨rfl, .inr (.inr ⟨_, _, rfl⟩)⟩
  | dTrim =>
    obtain ⟨_, -, ⟨-, rfl⟩ | ⟨-, _, -, ⟨-, rfl⟩ | ⟨-, rfl⟩ | ⟨-, -, _, -, ⟨-, rfl⟩ | ⟨-, rfl⟩⟩⟩⟩ := ruleDTrim_cases h <;>
      simp
  | dFast =>
    obtain ⟨_, _, -, -, ⟨-, rfl⟩ | ⟨-, _, _, _, -, -, -, -, rfl⟩⟩ := ruleDFast_cases h
    · simp
    · exact ⟨rfl, .inr (.inr ⟨_, _, rfl⟩)⟩
  | dTail =>
    obtain ⟨_, _, -, -, ⟨-, rfl⟩ | ⟨-, -, _, _, _, _, -, -, -, -, -, rfl⟩⟩ := ruleDTail_cases h
    · simp
    · exact ⟨rfl, .inr (.inr ⟨_, _, rfl⟩)⟩
  | dFinal => obtain ⟨-, rfl⟩ | ⟨-, _, -, rfl⟩ := ruleDFinal_cases h <;> simp
  | encchunk =>
    obtain ⟨-, rfl⟩ | ⟨-, _, -, rfl⟩ := ruleEncchunk_cases h
    · simp
    · exact ⟨rfl, .inr (.inr ⟨_, _, rfl⟩)⟩
  | decchunk =>
    obtain ⟨-, rfl⟩ | ⟨-, _, -, rfl⟩ := ruleDecchunk_cases h
    · simp
    · exact ⟨rfl, .inr (.inr ⟨_, _, rfl⟩)⟩
  | enclen => obtain ⟨_, -, ⟨-, rfl⟩ | ⟨-, rfl⟩⟩ := ruleEnclen_cases h <;> simp
  | declen => obtain ⟨_, -, ⟨-, rfl⟩ | ⟨_, -, rfl⟩⟩ := ruleDeclen_cases h <;> simp

/-- The sequencer's turn (R12): nothing while idle, otherwise the rule of the running command. -/
theorem sequencerTurn_cases {s t : State} (h : sequencerTurn s = .next t) :
    (s.busy = false ∧ t = s) ∨ (s.busy = true ∧ ∃ i r, Fires i s r ∧ r s = .next t) := by
  unfold sequencerTurn at h
  cases hb : s.busy
  · simp only [hb, Bool.false_eq_true, ↓reduceIte] at h
    cases h
    exact .inl ⟨rfl, rfl⟩
  · simp only [hb, ↓reduceIte] at h
    split at h
    · rename_i i hi
      refine .inr ⟨rfl, i, ?_⟩
      have key : ∃ r, Fires i s r := by
        unfold State.running at hi
        split at hi
        · exact absurd hi (by simp)
        · cases hi; exact ⟨_, .eCheck ‹_›⟩
        · cases hi; exact ⟨_, .eFast ‹_›⟩
        · cases hi; exact ⟨_, .eTail ‹_›⟩
        · cases hi; exact ⟨_, .eFinal ‹_›⟩
        · cases hi; exact ⟨_, .dTrim ‹_›⟩
        · cases hi; exact ⟨_, .dFast ‹_›⟩
        · cases hi; exact ⟨_, .dTail ‹_›⟩
        · cases hi; exact ⟨_, .dFinal ‹_›⟩
        · rename_i hp
          obtain ⟨o, ho, hu⟩ := Option.bind_eq_some_iff.1 hi
          have : ∀ o : BitVec 3, ∀ j, unitOf o = some j → (j = .encchunk ∧ o = 2#3) ∨ (j = .decchunk ∧ o = 3#3) ∨
              (j = .enclen ∧ o = 4#3) ∨ (j = .declen ∧ o = 5#3) := by
            intro o j
            cases j <;> revert o <;> decide
          rcases this o i hu with ⟨rfl, rfl⟩ | ⟨rfl, rfl⟩ | ⟨rfl, rfl⟩ | ⟨rfl, rfl⟩
          · exact ⟨_, .encchunk hp ho⟩
          · exact ⟨_, .decchunk hp ho⟩
          · exact ⟨_, .enclen hp ho⟩
          · exact ⟨_, .declen hp ho⟩
      obtain ⟨r, hf⟩ := key
      exact ⟨r, hf, exec_fires hb hf ▸ h⟩
    · exact absurd h (by simp)

/-- A write of a word to `CMD` (R176): ignored, accepted, or illegal. -/
theorem cmdWrite_cases {w : BitVec 8} {s t : State} (h : cmdWrite w s = .next t) :
    (s.busy = true ∧ t = s) ∨
      (s.busy = false ∧ ∃ i, decode w = .ok i ∧ t = s.accepted i ∧ (takesLength i = true → ∃ n, s.srcLen = some n)) ∨
      (s.busy = false ∧ (∃ e, decode w = .error e) ∧ t = s.illegalWord) := by
  unfold cmdWrite at h
  cases hb : s.busy
  · simp only [hb, Bool.false_eq_true, ↓reduceIte] at h
    split at h
    · rename_i i hi
      rcases exec_cases h with ⟨-, h1, h2⟩ | ⟨h1, -⟩ | ⟨h1, -⟩
      · exact .inr (.inl ⟨rfl, i, hi, h1, h2⟩)
      · rw [hb] at h1; exact absurd h1 (by simp)
      · rw [hb] at h1; exact absurd h1 (by simp)
    · cases h
      exact .inr (.inr ⟨rfl, ⟨_, ‹_›⟩, rfl⟩)
  · simp only [hb, ↓reduceIte] at h
    cases h
    exact .inl ⟨rfl, rfl⟩

/-- Everything a host access can do when it is admitted (R175). -/
theorem hostAccess_cases {x : HostAccess} {s t : State} (h : hostAccess x s = .next t) :
    (∃ w, cmdWrite w s = .next t) ∨ (∃ r, t = s.reply r) ∨
      (s.busy = false ∧ ∃ v, v < 2 ^ s.params.aw ∧ t = { s with srcLen := some v }) ∨
      (s.busy = false ∧ ∃ a b, a < s.params.inMax ∧ t = { s with inBuf := s.inBuf.write a b }) := by
  cases x with
  | writeReg i v =>
    simp only [hostAccess] at h
    split at h
    · rename_i r _
      cases r <;> simp only [writeReg] at h
      · split at h
        · exact .inl ⟨_, h⟩
        · exact absurd h (by simp)
      · exact absurd h (by simp)
      · split at h
        · rename_i hc
          simp only [Bool.and_eq_true, Bool.not_eq_eq_eq_not, Bool.not_true, decide_eq_true_eq] at hc
          cases h
          exact .inr (.inr (.inl ⟨hc.1, v, hc.2, rfl⟩))
        · exact absurd h (by simp)
      · exact absurd h (by simp)
    · exact absurd h (by simp)
  | readReg i =>
    simp only [hostAccess] at h
    split at h
    · rename_i r _
      cases r <;> simp only [readReg, readLength] at h
      · exact absurd h (by simp)
      · cases h
        exact .inr (.inl ⟨_, rfl⟩)
      · split at h
        · split at h
          · cases h
            exact .inr (.inl ⟨_, rfl⟩)
          · exact absurd h (by simp)
        · exact absurd h (by simp)
      · split at h
        · split at h
          · cases h
            exact .inr (.inl ⟨_, rfl⟩)
          · exact absurd h (by simp)
        · exact absurd h (by simp)
    · exact absurd h (by simp)
  | writeIn a b =>
    simp only [hostAccess] at h
    split at h
    · rename_i hc
      simp only [Bool.and_eq_true, Bool.not_eq_eq_eq_not, Bool.not_true, decide_eq_true_eq] at hc
      cases h
      exact .inr (.inr (.inr ⟨hc.1, a, b, hc.2, rfl⟩))
    · exact absurd h (by simp)
  | readIn a =>
    simp only [hostAccess] at h
    split at h
    · split at h
      · cases h
        exact .inr (.inl ⟨_, rfl⟩)
      · exact absurd h (by simp)
    · exact absurd h (by simp)
  | writeOut a b => exact absurd h (by simp [hostAccess])
  | readOut a =>
    simp only [hostAccess] at h
    split at h
    · split at h
      · cases h
        exact .inr (.inl ⟨_, rfl⟩)
      · exact absurd h (by simp)
    · exact absurd h (by simp)

/-- Everything a step can do, over the state without the event it takes. -/
theorem step_cases {s t : State} (h : step s = .next t) :
    ∃ u : State, (∃ l, u = { s with host := l }) ∧
      (sequencerTurn u = .next t ∨ (∃ x, hostAccess x u = .next t) ∨ (∃ r, t = u.reply r) ∨ t = u.resetNow) := by
  unfold step advance at h
  split at h
  · exact ⟨s, ⟨s.host, rfl⟩, .inl h⟩
  · rename_i x rest _
    exact ⟨_, ⟨rest, rfl⟩, .inr (.inl ⟨x, h⟩)⟩
  · rename_i rest _
    unfold hostWait at h
    split at h
    · exact ⟨s, ⟨s.host, rfl⟩, .inl h⟩
    · cases h
      exact ⟨_, ⟨rest, rfl⟩, .inr (.inr (.inl ⟨_, rfl⟩))⟩
  · rename_i rest _
    exact ⟨_, ⟨rest, rfl⟩, .inl h⟩
  · rename_i rest _
    cases h
    exact ⟨_, ⟨rest, rfl⟩, .inr (.inr (.inr rfl))⟩

end Sys2Proof.Machine
end

