-- ==== Sys2Proof/Laws/PerInstr.lean ====
section
/-! SUPPORT. One statement about every command as syntax, a lemma per constructor. -/

namespace Sys2Proof.Laws.FormatC

/-- The command's word has the form of R71: the reserved field 0, the opcode of R72 below it, a legal word (R75). -/
def Statement (i : Instr) : Prop :=
  wordRsv (encode i) = 0#5 ∧ wordOpc (encode i) = i.opcode ∧ wordWellFormed (encode i) = true

theorem encode : Statement .encode := ⟨rfl, rfl, rfl⟩
theorem decode : Statement .decode := ⟨rfl, rfl, rfl⟩
theorem encchunk : Statement .encchunk := ⟨rfl, rfl, rfl⟩
theorem decchunk : Statement .decchunk := ⟨rfl, rfl, rfl⟩
theorem enclen : Statement .enclen := ⟨rfl, rfl, rfl⟩
theorem declen : Statement .declen := ⟨rfl, rfl, rfl⟩

end Sys2Proof.Laws.FormatC
end

