-- ==== Sys2Proof/Laws/Run.lean ====
section
/-! SUPPORT. Runs of many steps, cut and joined. -/

namespace Sys2Proof.Machine

/-- A run whose first step is known. -/
theorem run_next {s t : State} (k : Nat) (h : step s = .next t) :
    Host.Core.run Sys2Proof.core (k + 1) s = Host.Core.run Sys2Proof.core k t := by
  have h' : Sys2Proof.core.step s = .next t := h
  simp only [Host.Core.run, h']

/-- A run cut in two. -/
theorem run_add {s t : State} {a : Nat} (b : Nat) (h : Host.Core.run Sys2Proof.core a s = .next t) :
    Host.Core.run Sys2Proof.core (a + b) s = Host.Core.run Sys2Proof.core b t := by
  induction a generalizing s with
  | zero =>
    cases h
    simp
  | succ a ih =>
    rw [show a + 1 + b = a + b + 1 by omega]
    cases hs : step s with
    | next u =>
      rw [run_next _ hs] at h ⊢
      exact ih h
    | fault r =>
      have hs' : Sys2Proof.core.step s = .fault r := hs
      simp [Host.Core.run, hs'] at h
    | refused r =>
      have hs' : Sys2Proof.core.step s = .refused r := hs
      simp [Host.Core.run, hs'] at h

end Sys2Proof.Machine
end

