-- ==== Sys2Proof/Tests/Slice0.lean ====
section
/-! SUPPORT. The model's own tests. Expected values come from the spec: the words of 30_encoding.md R71, R72, the
examples of 95_test_vectors.md and 96_test_vectors_derived.md (named in each test), the tables of the rules. After
them, for every obligation with hypotheses, a state and operands that meet them. -/

namespace Sys2Proof.Tests

open Sys2Proof Sys2Proof.Machine

/-! ## Helpers -/

def bytesOf (s : String) : List Byte := s.toList.map fun c => BitVec.ofNat 8 c.toNat

/-- A space that holds `bs` from address 0. -/
def space (bs : List Byte) : Memory := Memory.writeBytes [] 0 bs

def text (s : String) : Memory := space (bytesOf s)

/-- The first `n` bytes of the pattern `P` of 95_test_vectors.md. -/
def pattern (n : Nat) : List Byte := (List.range n).map fun i => BitVec.ofNat 8 (37 * i + 11)

/-- A block that runs the command with opcode `o`, in phase `ph`, on the input `m`. -/
def running (o : BitVec 3) (ph : Phase) (m : Memory) : State :=
  { State.reset with status := 0x01#8, op := some o, phase := ph, inBuf := m }

def nextOf : Out → Option State
  | .next t => some t
  | .fault _ => none
  | .refused _ => none

def faultOf : Out → Option Fault
  | .next _ => none
  | .fault f => some f
  | .refused _ => none

def refusalOf : Out → Option Refusal
  | .next _ => none
  | .fault _ => none
  | .refused r => some r

/-- The bytes `OUT[0 .. n)` hold. -/
def outBytes (s : State) (n : Nat) : List (Option Byte) := (List.range n).map s.outBuf.read

/-! ## WellFormed: each check refuses an ill-formed term -/

theorem test_wellFormed_commands :
    [Instr.encode, .decode, .encchunk, .decchunk, .enclen, .declen].all Instr.wellFormed = true := by decide

theorem test_word_reserved_bits : wordWellFormed 0b10000000#8 = false ∧ wordWellFormed 0b00001000#8 = false := by decide

theorem test_word_reserved_opcodes :
    wordWellFormed 0b00000110#8 = false ∧ wordWellFormed 0b00000111#8 = false ∧ wordWellFormed 0b00000101#8 = true := by
  decide

theorem test_params :
    Config.Params.default.wellFormed = true ∧
    ({ Config.Params.default with aw := 0 } : Config.Params).wellFormed = false ∧
    ({ Config.Params.default with inMax := 2 ^ 32 } : Config.Params).wellFormed = false ∧
    ({ Config.Params.default with outMax := 15 } : Config.Params).wellFormed = false ∧
    ({ Config.Params.default with outMax := 2 ^ 32 } : Config.Params).wellFormed = false := by decide

theorem test_access :
    [HostAccess.writeReg 0 256, .writeReg 1 0, .writeReg 2 (2 ^ 32), .writeReg 3 0, .writeReg 4 0, .readReg 0,
      .readReg 4, .writeIn (2 ^ 32 - 1) 0, .readIn (2 ^ 32 - 1), .writeOut 0 0, .readOut (2 ^ 32 - 1)].any
        (HostAccess.wellFormed Config.Params.default) = false ∧
    [HostAccess.writeReg 0 255, .writeReg 2 (2 ^ 32 - 1), .readReg 1, .readReg 3, .writeIn (2 ^ 32 - 2) 0,
      .readOut 0].all (HostAccess.wellFormed Config.Params.default) = true := by decide

/-! ## Decoding: the words of R72, field `rsv` (bits 7:3) and field `opc` (bits 2:0) written out -/

theorem test_decode_encode : decode 0b00000_000#8 = .ok .encode := rfl
theorem test_decode_decode : decode 0b00000_001#8 = .ok .decode := rfl
theorem test_decode_encchunk : decode 0b00000_010#8 = .ok .encchunk := rfl
theorem test_decode_decchunk : decode 0b00000_011#8 = .ok .decchunk := rfl
theorem test_decode_enclen : decode 0b00000_100#8 = .ok .enclen := rfl
theorem test_decode_declen : decode 0b00000_101#8 = .ok .declen := rfl

theorem test_decode_illegal :
    decode 0b00000_110#8 = .error .reservedOpcode ∧ decode 0b00000_111#8 = .error .reservedOpcode ∧
    decode 0b00001_000#8 = .error .reservedBits ∧ decode 0b10000_001#8 = .error .reservedBits ∧
    decodeBytes [] = .error .badLength ∧ decodeBytes [0x00#8, 0x00#8] = .error .badLength :=
  ⟨rfl, rfl, rfl, rfl, rfl, rfl⟩

theorem test_decodeTableWord :
    [0, 1, 2, 3, 4, 5, 6, 8, 255].map (decodeTableWord 8) = [some .encode, some .decode, some .encchunk, some .decchunk,
      some .enclen, some .declen, none, none, none] := by decide

/-- Each row of the opcode table, placed after reset, is run by the very next step. -/
theorem test_withFetchWord :
    [0, 1, 2, 3, 4, 5].map (fun w => (nextOf (step (State.reset.withFetchWord 8 w))).map fun t => (t.op, t.phase)) =
      [some (some 0#3, .eCheck), some (some 1#3, .dTrim), some (some 2#3, .uExec), some (some 3#3, .uExec),
        some (some 4#3, .uExec), some (some 5#3, .uExec)] := by decide

/-! ## Memory -/

theorem test_memory_canonical :
    Memory.write (Memory.write [(4, 1#8)] 9 2#8) 4 3#8 = [(4, 3#8), (9, 2#8)] ∧
    (Memory.write [(4, 1#8)] 2 5#8).read 3 = none ∧ (Memory.write [(4, 1#8)] 2 5#8).wf := by decide

/-! ## The length functions: the table of 40_sizemath.md R92 -/

theorem test_encLen : (List.range 21).map encLen =
    [0, 2, 3, 4, 6, 7, 8, 10, 11, 12, 14, 15, 16, 18, 19, 20, 22, 23, 24, 26, 27] := by decide

theorem test_decLen : (List.range 21).map decLen =
    [some 0, none, some 1, some 2, some 3, none, some 4, some 5, some 6, none, some 7, some 8, some 9, none, some 10,
      some 11, some 12, none, some 13, some 14, some 15] := by decide

/-- The table of 43_stream_encode.md R139, `L` = 1 to 40. -/
theorem test_fastEnd : (List.range 40).map (fun n => fastEnd (n + 1)) =
    [0, 0, 0, 0, 0, 0, 0, 0, 0, 0, 0, 0, 0, 0, 0, 12, 12, 12, 12, 12, 12, 12, 12, 12, 12, 12, 12, 24, 24, 24, 24, 24,
      24, 24, 24, 24, 24, 24, 24, 36] := by decide

/-! ## `ENCODE` -/

/-- 95_test_vectors.md S5. -/
theorem test_encode_empty :
    (nextOf (exec .encode { running 0#3 .eCheck [] with len := some 0 })).map (fun t => (t.status, t.dstLen, t.phase)) =
      some (0x06#8, some 0, .idle) := by decide

/-- The tail of `ENCODE("Hel")`: the first symbols of S2, then the `A` lanes of R108; WR by R92. -/
theorem test_encode_tail :
    (nextOf (exec .encode { running 0#3 .eTail (text "Hel") with
      len := some 3, rd := some 0, wr := some 0, cap := some 20 })).map (fun t => (outBytes t 17, t.rd, t.wr)) =
      some ((bytesOf "SGVsAAAAAAAAAAAA").map some ++ [none], some 3, some 4) := by decide

/-! ## `DECODE` -/

/-- 44_stream_decode.md R158, `QQ==`: two characters stripped, one byte to come. -/
theorem test_decode_trim :
    (nextOf (exec .decode { running 1#3 .dTrim (text "QQ==") with len := some 4 })).map
      (fun t => (t.slen, t.cap, t.err, t.phase)) = some (some 2, some 17, false, .dFast) := by decide

/-- 44_stream_decode.md R158, `====`: the payload `==` sets ERR in the tail. -/
theorem test_decode_tail_illegal :
    (nextOf (exec .decode { running 1#3 .dTail (text "====") with
      len := some 4, slen := some 2, rd := some 0, wr := some 0, cap := some 17 })).map
      (fun t => (t.err, t.rd, t.wr, t.phase)) = some (true, some 2, some 1, .dFinal) := by decide

/-! ## The chunk commands -/

/-- 96_test_vectors_derived.md E7. -/
theorem test_encchunk :
    (nextOf (exec .encchunk (running 2#3 .uExec (space (pattern 16))))).map
      (fun t => (outBytes t 17, t.status, t.dstLen)) =
      some ((bytesOf "CzBVep/E6Q4zWH2i").map some ++ [none], 0x02#8, some 16) := by decide

/-- 60_exceptions.md R194: fewer than sixteen addressable bytes of input. -/
theorem test_encchunk_range :
    (nextOf (exec .encchunk { running 2#3 .uExec (space (pattern 16)) with
      params := { Config.Params.default with inMax := 15 } })).map (fun t => (t.status, t.dstLen)) =
      some (0x12#8, some 0) := by decide

/-- 96_test_vectors_derived.md D4: an illegal byte in lane 15. -/
theorem test_decchunk :
    (nextOf (exec .decchunk (running 3#3 .uExec (text "SGVsbG8gV29ybGQ=")))).map (fun t => (outBytes t 12, t.status)) =
      some ((bytesOf "Hello World").map some ++ [some 0x00#8], 0x22#8) := by decide

/-- 96_test_vectors_derived.md D8: every symbol beyond the letters. -/
theorem test_decchunk_digits :
    (nextOf (exec .decchunk (running 3#3 .uExec (text "wxyz0123456789+/")))).map (fun t => (outBytes t 12, t.status)) =
      some ([0xC3#8, 0x1C#8, 0xB3#8, 0xD3#8, 0x5D#8, 0xB7#8, 0xE3#8, 0x9E#8, 0xBB#8, 0xF3#8, 0xDF#8, 0xBF#8].map some,
        0x02#8) := by decide

/-! ## The length commands: the examples and limits of 40_sizemath.md R96, R97 -/

theorem test_enclen :
    [11, 3221225471, 3221225472].map (fun n => (nextOf (exec .enclen { running 4#3 .uExec [] with len := some n })).map
      fun t => (t.status, t.dstLen)) =
      [some (0x02#8, some 15), some (0x02#8, some 4294967295), some (0x12#8, some 0)] := by decide

theorem test_declen :
    [15, 5].map (fun n => (nextOf (exec .declen { running 5#3 .uExec [] with len := some n })).map
      fun t => (t.status, t.dstLen)) = [some (0x02#8, some 11), some (0x0A#8, some 0)] := by decide

/-! ## The host -/

/-- A byte that was never written stops the sequencer (20_memory.md R50). -/
theorem test_stuck : faultOf (exec .encchunk (running 2#3 .uExec (space (pattern 15)))) = some .stuckRead := by decide

/-- 45_host_interface.md R177: a length command with `SRC_LEN` never written is not admitted; R26: there is no
register 4. -/
theorem test_not_admitted :
    refusalOf (exec .enclen State.reset) = some .commandNotAdmitted ∧
    refusalOf (step { State.reset with host := [.access (.readReg 4)] }) = some .noSuchRegister ∧
    refusalOf (step { State.reset with host := [.access (.readReg 3)] }) = some .accessNotAdmitted := by decide

/-- 30_encoding.md R79: the accesses of `declen(15)`. -/
theorem test_macro : programEvents (lengthMacro .declen 15) =
    [.access (.writeReg 2 15), .access (.writeReg 0 5), .wait, .access (.readReg 3)] := by decide

/-- 30_encoding.md R79, 70_reset_and_hazards.md R220 (6): the length and the bytes are collected after `OK` alone. -/
theorem test_collect :
    collectLines { State.reset with status := 0x02#8, dstLen := some 4 } = [.rdlen, .rdout 0 4] ∧
    collectLines { State.reset with status := 0x0A#8, dstLen := some 0 } = [] := by decide

/-! ## Witnesses: states and operands that meet the hypotheses of the obligations -/

theorem loaded_of (m : Memory) (n : Nat) (h : ∀ i < n, (m.read i).isSome = true) : Loaded m n :=
  fun i hi => Option.isSome_iff_exists.1 (h i hi)

theorem noIllegal_of (m : Memory) (n : Nat) (h : ∀ i < n, (m.read i).all legal = true) : ¬ SomeIllegal m n := by
  rintro ⟨i, hi, b, hb, hl⟩
  have := h i hi
  rw [hb] at this
  simp only [Option.all_some] at this
  rw [hl] at this
  exact absurd this (by decide)

theorem below_of (m : Memory) (n : Nat) (h : ∀ x ∈ m, x.1 < n) : ∀ a b, m.read a = some b → a < n :=
  fun a b hr => h (a, b) (Memory.mem_of_read m a b hr)

theorem fits_none (p : Config.Params) : Fits p none := fun _ h => absurd h (by simp)

theorem fits_some {p : Config.Params} {n : Nat} (h : n < 2 ^ p.aw) : Fits p (some n) :=
  fun _ hm => Option.some.inj hm ▸ h

/-- An accepted `ENCODE` of `Hel`, in its first phase. -/
def started : State := { running 0#3 .eCheck (text "Hel") with srcLen := some 3, len := some 3 }

theorem started_inv : started.Inv where
  params := by decide
  canonical := ⟨by decide, by decide⟩
  inBelow := below_of _ _ (by decide)
  outBelow := below_of _ _ (by decide)
  status := ⟨by decide, by decide, by decide⟩
  widths := ⟨fits_some (by decide), fits_none _, fits_some (by decide), fits_none _, fits_none _, fits_none _,
    fits_none _, fits_none _⟩
  vectors := by decide
  seq := ⟨rfl, rfl, 3, rfl⟩
  result := ⟨fun h => absurd h (by decide), fun h => absurd h (by decide), fun h => absurd h (by decide),
    fun h => absurd h (by decide)⟩

/-- A completed `ENCODE` of `A`: the text `QQ==`. -/
def finished : State :=
  { State.reset with
    status := 0x02#8, op := some 0#3, srcLen := some 1, dstLen := some 4, outBuf := text "QQ==",
    inBuf := text "A" }

theorem finished_inv : finished.Inv where
  params := by decide
  canonical := ⟨by decide, by decide⟩
  inBelow := below_of _ _ (by decide)
  outBelow := below_of _ _ (by decide)
  status := ⟨by decide, by decide, by decide⟩
  widths := ⟨fits_some (by decide), fits_some (by decide), fits_none _, fits_none _, fits_none _, fits_none _,
    fits_none _, fits_none _⟩
  vectors := by decide
  seq := trivial
  result := ⟨fun _ => ⟨4, rfl⟩, fun _ h => absurd h (by decide),
    fun _ _ _ _ hd => Option.some.inj hd ▸ loaded_of _ _ (by decide), fun _ h => absurd h (by decide)⟩

/-- A reset block about to take the events `l`. -/
def withHost (l : List Event) : State := { State.reset with host := l }

theorem witness_EncodeAndDecodeAgree : Instr.declen.wellFormed = true ∧ decode 0x05#8 = .ok .declen := ⟨rfl, rfl⟩

theorem witness_StepRunsTheDecodedCommand :
    (withHost [.access (.writeReg 0 (0x05#8).toNat)]).host = .access (.writeReg 0 (0x05#8).toNat) :: [] ∧
    State.reset.busy = false ∧ decode 0x05#8 = .ok .declen := ⟨rfl, rfl, rfl⟩

theorem witness_StepRunsTheRunningCommand :
    started.busy = true ∧ started.running = some .encode ∧ started.host = [] ∧
    ({ started with host := [.wait] } : State).host = .wait :: [] ∧
    ({ started with host := [.sequencer] } : State).host = .sequencer :: [] ∧
    (running 1#3 .dFinal []).running = some .decode ∧ (running 2#3 .uExec []).running = some .encchunk ∧
    (running 3#3 .uExec []).running = some .decchunk ∧ (running 4#3 .uExec []).running = some .enclen ∧
    (running 5#3 .uExec []).running = some .declen ∧ State.reset.busy = false ∧ State.reset.host = [] := by decide

theorem witness_PlacedWordRunsNext : decodeTableWord 8 0 = some .encode ∧ decodeTableWord 8 5 = some .declen := by
  decide

theorem witness_AcceptanceStartsTheCommand :
    State.reset.busy = false ∧ Instr.declen ≠ .encchunk ∧ Instr.declen ≠ .decchunk ∧ State.reset.srcLen = none ∧
    ¬ (Instr.decchunk ≠ .encchunk ∧ Instr.decchunk ≠ .decchunk ∧ State.reset.srcLen = none) ∧
    ¬ (Instr.encode ≠ .encchunk ∧ Instr.encode ≠ .decchunk ∧ finished.srcLen = none) := by decide

theorem witness_IllegalWordCompletesAtOnce :
    (withHost [.access (.writeReg 0 (0x06#8).toNat)]).host = .access (.writeReg 0 (0x06#8).toNat) :: [] ∧
    State.reset.busy = false ∧ 6 ≤ (0x06#8).toNat ∧ 6 ≤ (0xFF#8).toNat := by decide

theorem witness_CommandWriteWhileBusyIsIgnored :
    ({ started with host := [.access (.writeReg 0 (0xFF#8).toNat)] } : State).host =
      .access (.writeReg 0 (0xFF#8).toNat) :: [] ∧ started.busy = true := by decide

theorem witness_UnadmittedAccessHasNoMeaning :
    (started.busy = true ∧ (∀ v, HostAccess.writeIn 0 0x41#8 ≠ .writeReg 0 v) ∧
      HostAccess.writeIn 0 0x41#8 ≠ .readReg 1 ∧
      ({ started with host := [.access (.writeIn 0 0x41#8)] } : State).host = .access (.writeIn 0 0x41#8) :: []) ∧
    ((withHost [.access (.writeReg 3 0)]).host = .access (.writeReg 3 0) :: [] ∧
      (withHost [.access (.readReg 0)]).host = .access (.readReg 0) :: [] ∧
      (withHost [.access (.writeOut 0 0x41#8)]).host = .access (.writeOut 0 0x41#8) :: []) ∧
    (4 ≤ 4 ∧ (withHost [.access (.readReg 4)]).host = .access (.readReg 4) :: []) ∧
    (256 ≤ 256 ∧ (withHost [.access (.writeReg 0 256)]).host = .access (.writeReg 0 256) :: []) ∧
    (2 ^ State.reset.params.aw ≤ 2 ^ 32 ∧
      (withHost [.access (.writeReg 2 (2 ^ 32))]).host = .access (.writeReg 2 (2 ^ 32)) :: []) ∧
    (State.reset.params.inMax ≤ 2 ^ 32 - 1 ∧
      (withHost [.access (.writeIn (2 ^ 32 - 1) 0)]).host = .access (.writeIn (2 ^ 32 - 1) 0) :: []) ∧
    ((withHost [.access (.readIn 0)]).inBuf.read 0 = none ∧
      (withHost [.access (.readIn 0)]).host = .access (.readIn 0) :: []) ∧
    ((withHost [.access (.readReg 2)]).srcLen = none ∧
      (withHost [.access (.readReg 2)]).host = .access (.readReg 2) :: []) ∧
    ((withHost [.access (.readReg 3)]).done = false ∧
      (withHost [.access (.readReg 3)]).host = .access (.readReg 3) :: []) ∧
    ((∀ d, ({ finished with host := [.access (.readOut 4)] } : State).dstLen = some d → d ≤ 4) ∧
      ({ finished with host := [.access (.readOut 4)] } : State).host = .access (.readOut 4) :: []) :=
  ⟨⟨by decide, fun _ h => HostAccess.noConfusion h, by decide, rfl⟩, ⟨rfl, rfl, rfl⟩, ⟨by decide, rfl⟩,
    ⟨by decide, rfl⟩, ⟨by decide, rfl⟩, ⟨by decide, rfl⟩, ⟨rfl, rfl⟩, ⟨rfl, rfl⟩, ⟨by decide, rfl⟩,
    ⟨fun _ h => Option.some.inj h ▸ by decide, rfl⟩⟩

theorem witness_HostWritesOnlyTheLocationWritten :
    ((withHost [.access (.writeReg 2 (2 ^ 32 - 1))]).busy = false ∧ 2 ^ 32 - 1 < 2 ^ State.reset.params.aw ∧
      (withHost [.access (.writeReg 2 (2 ^ 32 - 1))]).host = .access (.writeReg 2 (2 ^ 32 - 1)) :: []) ∧
    ((withHost [.access (.writeIn (2 ^ 32 - 2) 1)]).busy = false ∧ 2 ^ 32 - 2 < State.reset.params.inMax ∧
      (withHost [.access (.writeIn (2 ^ 32 - 2) 1)]).host = .access (.writeIn (2 ^ 32 - 2) 1) :: []) ∧
    (({ finished with host := [.access (.readReg 2)] } : State).busy = false ∧
      ({ finished with host := [.access (.readReg 2)] } : State).srcLen = some 1 ∧
      ({ finished with host := [.access (.readReg 2)] } : State).host = .access (.readReg 2) :: []) ∧
    (({ finished with host := [.access (.readIn 0)] } : State).busy = false ∧ 0 < finished.params.inMax ∧
      ({ finished with host := [.access (.readIn 0)] } : State).inBuf.read 0 = some 0x41#8 ∧
      ({ finished with host := [.access (.readIn 0)] } : State).host = .access (.readIn 0) :: []) := by decide

theorem witness_ResultReadsFindTheResult :
    finished.Inv ∧ finished.busy = false ∧ finished.done = true ∧ finished.errc = 0#3 ∧
    (∃ o, finished.op = some o ∧ o.toNat ≤ 3) ∧ finished.dstLen = some 4 ∧
    ({ finished with host := [.access (.readOut 3)] } : State).host = .access (.readOut 3) :: [] :=
  ⟨finished_inv, by decide, by decide, by decide, ⟨0#3, rfl, by decide⟩, rfl, rfl⟩

theorem witness_StatusReadChangesNothing :
    started.StatusOk ∧ started.busy = true ∧ finished.StatusOk ∧ finished.busy = false ∧
    ({ finished with host := [.wait] } : State).host = .wait :: [] ∧
    (withHost [.access (.readReg 1)]).host = .access (.readReg 1) :: [] :=
  ⟨started_inv.status, by decide, finished_inv.status, by decide, rfl, rfl⟩

theorem witness_RaiseEndsTheCommand : ErrCode.emptyInput ≠ .ok ∧ ErrCode.range ≠ .ok := by decide

theorem witness_ResetPutsEveryRegisterAtItsValue :
    ({ started with host := [.reset] } : State).host = .reset :: [] := rfl

theorem witness_LengthFunctions :
    decLen 2 = some 1 ∧ decLen 3 = some 2 ∧ 2 < 3 ∧ decLen 0 = some 0 ∧ 3 % 4 ≠ 1 := by decide

theorem witness_FastRegionLeavesAReadableTail :
    1 ≤ 1 ∧ 0 < fastEnd 16 ∧ 4 ≤ 16 % 12 ∧ (15 % 12 < 4 ∧ 15 < 16) ∧ (24 % 12 < 4 ∧ 16 ≤ 24) := by decide

theorem witness_SymbolMaps : symbolValue 0x41#8 = some 0#6 ∧ symbolValue 0x2F#8 = some 63#6 ∧ sym 63#6 = sym 63#6 := by
  decide

def ones : Lanes := lanesOf (List.replicate 12 0xFF#8) 0xFF#8
def onesThenZeros : Lanes := lanesOf (List.replicate 12 0xFF#8) 0x00#8

theorem witness_EncoderIgnoresLanesTwelveUp :
    (∀ i (_ : i < 16), i < 12 → ones[i] = onesThenZeros[i]) ∧ ones ≠ onesThenZeros ∧
    ones[3 * 3] = onesThenZeros[3 * 3] ∧ ones[3 * 3 + 1] = onesThenZeros[3 * 3 + 1] ∧
    ones[3 * 3 + 2] = onesThenZeros[3 * 3 + 2] := by decide

theorem witness_EncoderTailLanes :
    ((∀ i (h : i < 16), i < 1 → (text "M").read i = some (lanesOf (bytesOf "M") 0)[i]) ∧
      ∀ i (h : i < 16), 1 ≤ i → (lanesOf (bytesOf "M") 0)[i] = 0x00#8) ∧
    (∀ i (h : i < 16), i < 12 → (space (pattern 12)).read i = some (lanesOf (pattern 12) 0)[i]) ∧
      ∀ i (h : i < 16), 12 ≤ i → (lanesOf (pattern 12) 0)[i] = 0x00#8 := by decide

theorem witness_KernelsInvertEachOther :
    ∀ i (_ : i < 16), legal (lanesOf (bytesOf "wxyz0123456789+/") 0)[i] = true := by decide

/-- 96_test_vectors_derived.md D21: an illegal byte in group 1, group 2 legal. -/
theorem witness_LegalGroupsIgnoreTheParameters :
    (∀ j (_ : j < 4), legal (lanesOf (bytesOf "TWFu*WFuTWFuTWFu") 0)[4 * 2 + j] = true) ∧
    legal (lanesOf (bytesOf "TWFu*WFuTWFuTWFu") 0)[4] = false := by decide

def smallParams : Config.Params := { Config.Params.default with aw := 8, inMax := 16, outMax := 38 }

/-- A running command on the sixteen bytes `P(16)`, which is all this platform has. -/
def small (o : BitVec 3) (ph : Phase) : State := { running o ph (space (pattern 16)) with params := smallParams }

/-- `E_CHECK` of `l` bytes on a platform with 16 bytes of `IN` and 38 of `OUT`. -/
def checking (l : Nat) : State := { small 0#3 .eCheck with len := some l }

theorem witness_EncodeCheckValidatesAndSizes :
    ((checking 0).busy = true ∧ (checking 0).phase = .eCheck ∧ (checking 0).len = some 0) ∧
    ((checking 17).len = some 17 ∧ 17 ≠ 0 ∧ (17 > smallParams.inMax ∨ encLen 17 + 16 > smallParams.outMax)) ∧
    ((checking 16).len = some 16 ∧ 16 ≠ 0 ∧ 16 ≤ (checking 16).params.inMax ∧
      encLen 16 + 16 ≤ (checking 16).params.outMax) := by decide

theorem witness_EncodeLoopsExit :
    (({ small 0#3 .eFast with rd := some 12, fend := some 12 } : State).busy = true ∧
      ({ small 0#3 .eFast with rd := some 12, fend := some 12 } : State).rd = some 12 ∧
      ({ small 0#3 .eFast with rd := some 12, fend := some 12 } : State).phase = .eFast ∧
      ({ small 0#3 .eFast with rd := some 12, fend := some 12 } : State).fend = some 12 ∧ 12 ≤ 12) ∧
    (({ small 0#3 .eTail with rd := some 16, len := some 16 } : State).busy = true ∧
      ({ small 0#3 .eTail with rd := some 16, len := some 16 } : State).rd = some 16 ∧
      ({ small 0#3 .eTail with rd := some 16, len := some 16 } : State).phase = .eTail ∧
      ({ small 0#3 .eTail with rd := some 16, len := some 16 } : State).len = some 16 ∧ 16 ≤ 16) := by decide

/-- `ENCODE` of sixteen bytes: its one fast-path iteration (`FEND` = 12). -/
def encFast : State := { small 0#3 .eFast with rd := some 0, fend := some 12, wr := some 0, cap := some 38 }

theorem witness_EncodeFastIteration :
    encFast.busy = true ∧ encFast.phase = .eFast ∧ encFast.rd = some 0 ∧ encFast.fend = some 12 ∧ 0 < 12 ∧
    encFast.wr = some 0 ∧ encFast.cap = some 38 ∧ 0 + 16 ≤ 38 ∧ 0 + 16 ≤ encFast.params.inMax ∧
    ∀ i (_ : i < 16), encFast.inBuf.read (0 + i) = some (lanesOf (pattern 16) 0)[i] := by decide

/-- `ENCODE` of `l` bytes with `r` of them consumed, in the tail. -/
def encTail (l r : Nat) : State :=
  { small 0#3 .eTail with len := some l, rd := some r, wr := some (encLen r), cap := some (encLen l + 16) }

/-- The last four of sixteen bytes, and the first twelve of fifteen. -/
theorem witness_EncodeTailIteration :
    ((encTail 16 12).busy = true ∧ (encTail 16 12).phase = .eTail ∧ (encTail 16 12).rd = some 12 ∧
      (encTail 16 12).len = some 16 ∧ 12 < 16 ∧ (encTail 16 12).wr = some 16 ∧ (encTail 16 12).cap = some 38 ∧
      16 + 16 ≤ 38 ∧ 4 = min 12 (16 - 12) ∧ 12 + 4 ≤ (encTail 16 12).params.inMax ∧
      (∀ i (_ : i < 16), i < 4 → (encTail 16 12).inBuf.read (12 + i) = some (lanesOf ((pattern 16).drop 12) 0)[i]) ∧
      ∀ i (_ : i < 16), 4 ≤ i → (lanesOf ((pattern 16).drop 12) 0)[i] = 0x00#8) ∧
    ((encTail 15 0).rd = some 0 ∧ (encTail 15 0).len = some 15 ∧ 0 < 15 ∧ (encTail 15 0).wr = some 0 ∧
      (encTail 15 0).cap = some 36 ∧ 0 + 16 ≤ 36 ∧ 12 = min 12 (15 - 0) ∧ 0 + 12 ≤ (encTail 15 0).params.inMax ∧
      (∀ i (_ : i < 16), i < 12 → (encTail 15 0).inBuf.read (0 + i) = some (lanesOf (pattern 12) 0)[i]) ∧
      ∀ i (_ : i < 16), 12 ≤ i → (lanesOf (pattern 12) 0)[i] = 0x00#8) := by decide

def encFinal (w : Nat) : State := { small 0#3 .eFinal with wr := some w, cap := some (w + 2) }

theorem witness_EncodeFinalPads :
    ((encFinal 22).busy = true ∧ (encFinal 22).phase = .eFinal ∧ (encFinal 22).wr = some 22 ∧
      (encFinal 22).cap = some 24 ∧ 22 + 2 ≤ 24 ∧ 22 % 4 = 2) ∧
    ((encFinal 23).wr = some 23 ∧ (encFinal 23).cap = some 25 ∧ 23 + 2 ≤ 25 ∧ 23 % 4 = 3) ∧
    ((encFinal 24).wr = some 24 ∧ (encFinal 24).cap = some 26 ∧ 24 + 2 ≤ 26 ∧ 24 % 4 = 0) := by decide

/-- `D_TRIM` of `m`, `l` bytes, on a platform with 16 bytes of `IN` and `o` of `OUT`. -/
def trimming (l o : Nat) (m : Memory) : State :=
  { running 1#3 .dTrim m with params := { smallParams with outMax := o }, len := some l }

theorem witness_StrippingRemovesAtMostTwoPads :
    0 ≤ (trimming 0 38 []).params.inMax ∧
    (1 ≤ (trimming 1 38 (text "=")).params.inMax ∧ (trimming 1 38 (text "=")).inBuf.read 0 = some 0x3D#8) ∧
    (16 ≤ (trimming 16 38 (text "SGVsbG8gV29ybA==")).params.inMax ∧ 2 ≤ 16 ∧
      (trimming 16 38 (text "SGVsbG8gV29ybA==")).inBuf.read (16 - 1) = some 0x3D#8 ∧
      (trimming 16 38 (text "SGVsbG8gV29ybA==")).inBuf.read (16 - 2) = some 0x3D#8) := by decide

theorem witness_DecodeTrimValidatesAndSizes :
    ((trimming 17 38 []).busy = true ∧ (trimming 17 38 []).phase = .dTrim ∧ (trimming 17 38 []).len = some 17 ∧
      17 > (trimming 17 38 []).params.inMax) ∧
    ((trimming 2 38 (text "==")).len = some 2 ∧ 2 ≤ (trimming 2 38 (text "==")).params.inMax ∧
      (trimming 2 38 (text "==")).stripLen 2 = some 0) ∧
    ((trimming 2 38 (text "Q=")).stripLen 2 = some 1 ∧ 1 % 4 = 1) ∧
    ((trimming 4 16 (text "QQ==")).len = some 4 ∧ 4 ≤ (trimming 4 16 (text "QQ==")).params.inMax ∧
      (trimming 4 16 (text "QQ==")).stripLen 4 = some 2 ∧ 2 ≠ 0 ∧ decLen 2 = some 1 ∧
      1 + 16 > (trimming 4 16 (text "QQ==")).params.outMax) ∧
    ((trimming 4 17 (text "QQ==")).stripLen 4 = some 2 ∧ 1 + 16 ≤ (trimming 4 17 (text "QQ==")).params.outMax) := by
  decide

/-- `DECODE` of `n` payload bytes with `r` of them consumed, in phase `ph`. -/
def decAt (ph : Phase) (n r w c : Nat) : State :=
  { small 1#3 ph with slen := some n, rd := some r, wr := some w, cap := some c }

theorem witness_DecodeLoopExits :
    ((decAt .dFast 15 0 0 27).busy = true ∧ (decAt .dFast 15 0 0 27).rd = some 0 ∧
      (decAt .dFast 15 0 0 27).slen = some 15 ∧ (decAt .dFast 15 0 0 27).phase = .dFast ∧ 15 < 0 + 16) ∧
    ((decAt .dTail 16 16 12 28).busy = true ∧ (decAt .dTail 16 16 12 28).rd = some 16 ∧
      (decAt .dTail 16 16 12 28).slen = some 16 ∧ (decAt .dTail 16 16 12 28).phase = .dTail) := by decide

theorem witness_DecodeFastIteration :
    (decAt .dFast 16 0 0 28).busy = true ∧ (decAt .dFast 16 0 0 28).phase = .dFast ∧
    (decAt .dFast 16 0 0 28).rd = some 0 ∧ (decAt .dFast 16 0 0 28).slen = some 16 ∧ 0 + 16 ≤ 16 ∧
    (decAt .dFast 16 0 0 28).wr = some 0 ∧ (decAt .dFast 16 0 0 28).cap = some 28 ∧ 0 + 16 ≤ 28 ∧
    0 + 16 ≤ (decAt .dFast 16 0 0 28).params.inMax ∧
    ∀ i (_ : i < 16), (decAt .dFast 16 0 0 28).inBuf.read (0 + i) = some (lanesOf (pattern 16) 0)[i] := by decide

theorem witness_DecodeTailChunk :
    (decAt .dTail 15 0 0 27).busy = true ∧ (decAt .dTail 15 0 0 27).phase = .dTail ∧
    (decAt .dTail 15 0 0 27).rd = some 0 ∧ (decAt .dTail 15 0 0 27).slen = some 15 ∧ 0 < 15 ∧ 15 - 0 ≤ 15 ∧
    decLen (15 - 0) = some 11 ∧ (decAt .dTail 15 0 0 27).wr = some 0 ∧ (decAt .dTail 15 0 0 27).cap = some 27 ∧
    0 + 16 ≤ 27 ∧ 15 ≤ (decAt .dTail 15 0 0 27).params.inMax ∧
    (∀ i (_ : i < 16), i < 15 - 0 →
      (decAt .dTail 15 0 0 27).inBuf.read (0 + i) = some (lanesOf (pattern 15) 0x41#8)[i]) ∧
    (∀ i (_ : i < 16), 15 - 0 ≤ i → (lanesOf (pattern 15) 0x41#8)[i] = 0x41#8) := by decide

theorem witness_DecodeFinalVerdict :
    (({ decAt .dFinal 15 15 11 27 with err := true } : State).busy = true ∧
      ({ decAt .dFinal 15 15 11 27 with err := true } : State).phase = .dFinal ∧
      ({ decAt .dFinal 15 15 11 27 with err := true } : State).err = true) ∧
    ((decAt .dFinal 15 15 11 27).busy = true ∧ (decAt .dFinal 15 15 11 27).phase = .dFinal ∧
      (decAt .dFinal 15 15 11 27).err = false ∧ (decAt .dFinal 15 15 11 27).wr = some 11) := by decide

/-- For both chunk commands: a platform with 15 bytes of `IN`, and one with exactly 16. -/
theorem witness_ChunkCommands :
    (({ small 2#3 .uExec with params := { smallParams with inMax := 15 } } : State).busy = true ∧
      ({ small 2#3 .uExec with params := { smallParams with inMax := 15 } } : State).phase = .uExec ∧
      ({ small 2#3 .uExec with params := { smallParams with inMax := 15 } } : State).op = some 2#3 ∧
      ({ small 2#3 .uExec with params := { smallParams with inMax := 15 } } : State).params.inMax < 16) ∧
    ((small 2#3 .uExec).busy = true ∧ (small 2#3 .uExec).phase = .uExec ∧ (small 2#3 .uExec).op = some 2#3 ∧
      (small 3#3 .uExec).op = some 3#3 ∧ (small 3#3 .uExec).busy = true ∧ (small 3#3 .uExec).phase = .uExec ∧
      16 ≤ (small 2#3 .uExec).params.inMax ∧ (small 3#3 .uExec).inBuf = (small 2#3 .uExec).inBuf ∧
      ∀ i (_ : i < 16), (small 2#3 .uExec).inBuf.read i = some (lanesOf (pattern 16) 0)[i]) := by decide

def measuring (o : BitVec 3) (n : Nat) : State := { running o .uExec [] with len := some n }

theorem witness_LengthCommands :
    ((measuring 4#3 3221225472).busy = true ∧ (measuring 4#3 3221225472).phase = .uExec ∧
      (measuring 4#3 3221225472).op = some 4#3 ∧ (measuring 4#3 3221225472).len = some 3221225472 ∧
      2 ^ (measuring 4#3 3221225472).params.aw ≤ encLen 3221225472) ∧
    ((measuring 4#3 3221225471).len = some 3221225471 ∧ encLen 3221225471 < 2 ^ (measuring 4#3 0).params.aw) ∧
    ((measuring 5#3 1).busy = true ∧ (measuring 5#3 1).phase = .uExec ∧ (measuring 5#3 1).op = some 5#3 ∧
      (measuring 5#3 1).len = some 1 ∧ 1 % 4 = 1) ∧
    ((measuring 5#3 0).len = some 0 ∧ decLen 0 = some 0) := by decide

/-- For each rule that reads `IN`: the read reaches `IN_MAX`, or meets a byte that was never written. -/
theorem witness_UnwrittenInputStopsTheSequencer :
    (encFast.busy = true ∧ encFast.phase = .eFast ∧
      ({ encFast with inBuf := space (pattern 15) } : State).inBuf.read (0 + 15) = none ∧
      ({ encFast with rd := some 1 } : State).rd = some 1 ∧ encFast.params.inMax < 1 + 16) ∧
    ((encTail 17 12).busy = true ∧ (encTail 17 12).phase = .eTail ∧ (encTail 17 12).rd = some 12 ∧
      (encTail 17 12).len = some 17 ∧ 12 < 17 ∧ (encTail 17 12).wr = some 16 ∧ (encTail 17 12).cap = some 39 ∧
      (encTail 17 12).params.inMax < 12 + min 12 (17 - 12) ∧ (encTail 17 12).inBuf.read (12 + 4) = none) ∧
    ((trimming 1 38 []).busy = true ∧ (trimming 1 38 []).phase = .dTrim ∧ (trimming 1 38 []).len = some 1 ∧
      1 ≤ (trimming 1 38 []).params.inMax ∧ 1 ≤ 1 ∧ (trimming 1 38 []).inBuf.read (1 - 1) = none ∧
      2 ≤ 2 ∧ (trimming 2 38 [(1, 0x3D#8)]).inBuf.read (2 - 2) = none) ∧
    ((decAt .dFast 17 1 0 28).busy = true ∧ (decAt .dFast 17 1 0 28).rd = some 1 ∧
      (decAt .dFast 17 1 0 28).slen = some 17 ∧ 1 + 16 ≤ 17 ∧ (decAt .dFast 17 1 0 28).params.inMax < 1 + 16 ∧
      (decAt .dFast 17 1 0 28).inBuf.read (1 + 15) = none) ∧
    ((decAt .dTail 18 16 12 29).busy = true ∧ (decAt .dTail 18 16 12 29).rd = some 16 ∧
      (decAt .dTail 18 16 12 29).slen = some 18 ∧ 16 < 18 ∧ 18 - 16 ≤ 15 ∧ decLen (18 - 16) = some 1 ∧
      (decAt .dTail 18 16 12 29).params.inMax < 18 ∧ (decAt .dTail 18 16 12 29).inBuf.read (16 + 0) = none) ∧
    (({ small 2#3 .uExec with inBuf := space (pattern 15) } : State).phase = .uExec ∧
      16 ≤ ({ small 2#3 .uExec with inBuf := space (pattern 15) } : State).params.inMax ∧
      ({ small 2#3 .uExec with inBuf := space (pattern 15) } : State).inBuf.read 15 = none) := by decide

theorem witness_CommandsLeaveInputAndLengthAlone :
    (∃ t, exec .encode started = .next t) ∧ ∃ t, exec .encode finished = .next t := ⟨⟨_, rfl⟩, ⟨_, rfl⟩⟩

theorem witness_EncodeFrame :
    (∃ t, exec .encode started = .next t) ∧
    (∃ t, exec .encode { small 0#3 .eFast with
      rd := some 0, fend := some 12, wr := some 0, cap := some 38 } = .next t) ∧
    (∃ t, exec .encode { small 0#3 .eFinal with wr := some 22, cap := some 38 } = .next t ∧
      padding (22 % 4) = some [0x3D#8, 0x3D#8]) ∧
    (∃ t, exec .encode { small 0#3 .eFast with rd := some 12, fend := some 12 } = .next t ∧ 12 ≤ 12) ∧
    ∃ t, exec .encode { small 0#3 .eTail with rd := some 16, len := some 16 } = .next t ∧ 16 ≤ 16 :=
  ⟨⟨_, rfl⟩, ⟨_, rfl⟩, ⟨_, rfl, rfl⟩, ⟨_, rfl, by decide⟩, ⟨_, rfl, by decide⟩⟩

theorem witness_DecodeFrame :
    (∃ t, exec .decode { running 1#3 .dTrim (text "QQ==") with len := some 4 } = .next t) ∧
    (∃ t, exec .decode { small 1#3 .dFast with
      rd := some 0, slen := some 16, wr := some 0, cap := some 28 } = .next t) ∧
    (∃ t, exec .decode { small 1#3 .dFinal with wr := some 11 } = .next t) ∧
    (∃ t, exec .decode { small 1#3 .dFast with rd := some 0, slen := some 15 } = .next t ∧ 15 < 0 + 16) ∧
    ∃ t, exec .decode { small 1#3 .dTail with rd := some 16, slen := some 16 } = .next t :=
  ⟨⟨_, rfl⟩, ⟨_, rfl⟩, ⟨_, rfl⟩, ⟨_, rfl, by decide⟩, ⟨_, rfl⟩⟩

theorem witness_UnitCommandFrame :
    (∃ t, exec .encchunk (small 2#3 .uExec) = .next t ∧ t.errc = 0#3) ∧
    ∃ t, exec .declen { running 5#3 .uExec [] with len := some 1 } = .next t ∧ t.errc ≠ 0#3 :=
  ⟨⟨_, rfl, by decide⟩, ⟨_, rfl, by decide⟩⟩

theorem witness_StepKeepsMemoryCanonical : started.Canonical ∧ ∃ t, step started = .next t :=
  ⟨started_inv.canonical, _, rfl⟩

theorem witness_StepKeepsStatusLegal : started.StatusOk ∧ ∃ t, step started = .next t := ⟨started_inv.status, _, rfl⟩

theorem witness_StepKeepsTheInvariant : started.Inv ∧ ∃ t, step started = .next t := ⟨started_inv, _, rfl⟩

theorem witness_OnlyUnwrittenInputStopsACommand :
    started.Inv ∧ started.busy = true ∧ started.host = [] ∧
    Loaded started.inBuf (min started.inputDuty started.params.inMax) :=
  ⟨started_inv, by decide, rfl, loaded_of _ _ (by decide)⟩

theorem witness_CommandsDoNotOverRead :
    started.Inv ∧ started.busy = true ∧ started.host = [] ∧
    (∀ a < started.inputDuty, (text "HelX").read a = started.inBuf.read a) ∧ text "HelX" ≠ started.inBuf ∧
    ∃ t, step started = .next t := ⟨started_inv, by decide, rfl, by decide, by decide, _, rfl⟩

theorem witness_PhasesOnlyMoveForward : started.busy = true ∧ started.host = [] ∧ ∃ t, step started = .next t :=
  ⟨by decide, rfl, _, rfl⟩

theorem witness_EveryCommandEnds :
    started.Inv ∧ started.busy = true ∧ started.host = [] ∧
    Loaded started.inBuf (min started.inputDuty started.params.inMax) := witness_OnlyUnwrittenInputStopsACommand

/-- An idle block of sixteen input bytes, `m` loaded and `SRC_LEN` written, about to take a command word. -/
def ready (w l : Nat) (m : Memory) : State :=
  { State.reset with
    params := smallParams, srcLen := some l, inBuf := m, host := [.access (.writeReg 0 w)] }

theorem witness_EncodeProducesThePaddedText :
    (ready 0 16 (space (pattern 16))).host = [.access (.writeReg 0 0x00)] ∧
    (ready 0 16 (space (pattern 16))).busy = false ∧ (ready 0 16 (space (pattern 16))).srcLen = some 16 ∧ 1 ≤ 16 ∧
    16 ≤ smallParams.inMax ∧ encLen 16 + 16 ≤ smallParams.outMax ∧ Loaded (space (pattern 16)) 16 :=
  ⟨rfl, by decide, rfl, by decide, by decide, by decide, loaded_of _ _ (by decide)⟩

theorem witness_DecodeProducesTheData :
    (ready 1 4 (text "QQ==")).host = [.access (.writeReg 0 0x01)] ∧ (ready 1 4 (text "QQ==")).busy = false ∧
    4 ≤ smallParams.inMax ∧ Loaded (text "QQ==") 4 ∧ (ready 1 4 (text "QQ==")).stripLen 4 = some 2 ∧
    decLen 2 = some 1 ∧ 1 + 16 ≤ smallParams.outMax ∧ ¬ SomeIllegal (text "QQ==") 2 :=
  ⟨rfl, by decide, by decide, loaded_of _ _ (by decide), by decide, by decide, by decide, noIllegal_of _ _ (by decide)⟩

theorem witness_DecodeRejectsBadPayloads :
    ((ready 1 2 (text "Q=")).stripLen 2 = some 1 ∧ 1 % 4 = 1 ∧ Loaded (text "Q=") 2) ∧
    (ready 1 4 (text "====")).stripLen 4 = some 2 ∧ SomeIllegal (text "====") 2 ∧
    (∃ d, decLen 2 = some d ∧ d + 16 ≤ smallParams.outMax) ∧ Loaded (text "====") 4 :=
  ⟨⟨by decide, by decide, loaded_of _ _ (by decide)⟩, by decide, ⟨0, by decide, 0x3D#8, by decide, by decide⟩,
    ⟨1, by decide, by decide⟩, loaded_of _ _ (by decide)⟩

/-- The text `QQ==` of the completed `ENCODE` of `A` as the input of a `DECODE`, with and without its padding. -/
theorem witness_DecodeReturnsWhatEncodeTook :
    (ready 0 1 (text "A")).busy = false ∧ encLen 1 + 16 ≤ smallParams.outMax ∧ Loaded (text "A") 1 ∧
    finished.dstLen = some 4 ∧ (ready 1 4 (text "QQ==")).srcLen = some 4 ∧
    (ready 1 2 (text "QQ==")).srcLen = some (encLen 1) ∧ 4 ≤ smallParams.inMax ∧ 1 + 16 ≤ smallParams.outMax ∧
    ∀ a < 4, (ready 1 4 (text "QQ==")).inBuf.read a = finished.outBuf.read a :=
  ⟨by decide, by decide, loaded_of _ _ (by decide), rfl, rfl, rfl, by decide, by decide, by decide⟩

theorem witness_DecodeIgnoresTheOpenParameters :
    (ready 1 4 (text "QQ==")).host = [.access (.writeReg 0 0x01)] ∧ (ready 1 4 (text "QQ==")).busy = false ∧
    (ready 1 4 (text "QQ==")).srcLen = some 4 ∧ Loaded (text "QQ==") 4 ∧ 1 ≤ 5 ∧
    ∃ t, Host.Core.run Sys2Proof.core 5 (ready 1 4 (text "QQ==")) = .next t ∧ t.busy = false :=
  ⟨rfl, by decide, rfl, loaded_of _ _ (by decide), by decide, _, rfl, by decide⟩

end Sys2Proof.Tests
end

/-! PROOFS. Command words: which words decode to which command (30_encoding.md R71, R72). -/

namespace Sys2Proof

/-- The two fields of R71 make up the whole word. -/
theorem wordRsv_append_wordOpc (w : BitVec 8) : wordRsv w ++ wordOpc w = w := by
  have join : wordRsv w ++ wordOpc w = w.extractLsb' 0 8 := BitVec.extractLsb'_append_extractLsb'_eq_extractLsb' rfl
  rw [join, BitVec.extractLsb'_eq_self]

@[simp] theorem wordRsv_encode (i : Instr) : wordRsv (encode i) = 0#5 := by
  cases i <;> rfl

@[simp] theorem wordOpc_encode (i : Instr) : wordOpc (encode i) = i.opcode := by
  cases i <;> rfl

/-- `commandOf` and `Instr.opcode` are the same map of R72, read in the two directions. -/
theorem commandOf_eq_ok_iff (o : BitVec 3) (i : Instr) : commandOf o = .ok i ↔ o = i.opcode := by
  constructor
  · intro h
    rw [commandOf] at h
    split at h <;> cases h <;> exact BitVec.eq_of_toNat_eq ‹_›
  · rintro rfl
    cases i <;> rfl

/-- A word is the word of a command exactly when its reserved field is 0 and its opcode is the command's. -/
theorem eq_encode_iff (w : BitVec 8) (i : Instr) : w = encode i ↔ wordRsv w = 0#5 ∧ wordOpc w = i.opcode := by
  constructor
  · rintro rfl
    simp
  · rintro ⟨hrsv, hopc⟩
    rw [← wordRsv_append_wordOpc w, hrsv, hopc, encode]

/-- R72: selection is equality of the whole word, so the only word that decodes to a command is the encoder's. -/
theorem decode_eq_ok_iff (w : BitVec 8) (i : Instr) : decode w = .ok i ↔ w = encode i := by
  rw [eq_encode_iff, ← commandOf_eq_ok_iff, decode]
  by_cases hrsv : wordRsv w = 0#5 <;> simp [hrsv]

/-- Settles O1: each word of the opcode map is the encoder's word of its command. -/
theorem commandWordsSelectTheirCommands : Obligations.CommandWordsSelectTheirCommands := fun w =>
  ⟨decode_eq_ok_iff w .encode, decode_eq_ok_iff w .decode, decode_eq_ok_iff w .encchunk,
    decode_eq_ok_iff w .decchunk, decode_eq_ok_iff w .enclen, decode_eq_ok_iff w .declen⟩

end Sys2Proof

/-! PROOFS. The length functions of SizeMath: monotonicity and the inverse laws (40_sizemath.md R93, R94). -/

namespace Sys2Proof.Machine

/-- In the closed form, one more byte raises the dividend `4n + 2` by more than the divisor 3. -/
theorem encLen_lt_encLen {a b : Nat} (h : a < b) : encLen a < encLen b := by
  rw [encLen_eq, encLen_eq]
  omega

theorem encLen_le_encLen {a b : Nat} (h : a ≤ b) : encLen a ≤ encLen b := by
  obtain hlt | rfl := Nat.lt_or_eq_of_le h
  · exact Nat.le_of_lt (encLen_lt_encLen hlt)
  · exact Nat.le_refl _

/-- No encoded length leaves the remainder that `DecLen` refuses. -/
theorem encLen_mod_four_ne_one (n : Nat) : encLen n % 4 ≠ 1 := by
  rw [encLen_eq]
  omega

theorem decLen_encLen (n : Nat) : decLen (encLen n) = some n := by
  refine decLen_eq_some.mpr ⟨encLen_mod_four_ne_one n, ?_⟩
  rw [encLen_eq]
  omega

/-- By the three remainders that R91 admits. -/
theorem encLen_eq_of_decLen_eq_some {m d : Nat} (h : decLen m = some d) : encLen d = m := by
  obtain ⟨hm, rfl⟩ := decLen_eq_some.mp h
  rw [encLen_eq]
  obtain h0 | h2 | h3 : m % 4 = 0 ∨ m % 4 = 2 ∨ m % 4 = 3 := by omega
  · omega
  · omega
  · omega

/-- Were the decoded lengths in the other order, `EncLen` would give `b ≤ a` back. -/
theorem decLen_lt_decLen {a b d e : Nat} (ha : decLen a = some d) (hb : decLen b = some e) (h : a < b) : d < e := by
  refine Nat.lt_of_not_le fun hed => Nat.not_le_of_lt h ?_
  calc b = encLen e := (encLen_eq_of_decLen_eq_some hb).symm
    _ ≤ encLen d := encLen_le_encLen hed
    _ = a := encLen_eq_of_decLen_eq_some ha

/-- Were the decoded lengths strictly in the other order, `EncLen` would give `b < a` back. -/
theorem decLen_le_decLen {a b d e : Nat} (ha : decLen a = some d) (hb : decLen b = some e) (h : a ≤ b) : d ≤ e := by
  refine Nat.le_of_not_lt fun hed => Nat.not_lt_of_le h ?_
  calc b = encLen e := (encLen_eq_of_decLen_eq_some hb).symm
    _ < encLen d := encLen_lt_encLen hed
    _ = a := encLen_eq_of_decLen_eq_some ha

/-- Settles O17: `DecLen` takes its order from that of `EncLen`, whose inverse it is. -/
theorem lengthFunctionsAreMonotonic : Obligations.LengthFunctionsAreMonotonic :=
  ⟨fun _ _ => encLen_le_encLen, fun _ _ => encLen_lt_encLen, fun _ _ _ _ => decLen_le_decLen,
    fun _ _ _ _ => decLen_lt_decLen, fun _ => decLen_eq_none⟩

/-- Settles O18: both inverse laws, by the closed forms of R95. -/
theorem lengthFunctionsInvertEachOther : Obligations.LengthFunctionsInvertEachOther :=
  ⟨fun n => ⟨encLen_mod_four_ne_one n, decLen_encLen n⟩, fun _ _ h => encLen_eq_of_decLen_eq_some h,
    fun _ h => decLen_isSome h⟩

end Sys2Proof.Machine

/-! PROOFS. ChunkEncoder: the symbol map and its inverse, and which input lanes an output lane depends on
(41_chunk_encoder.md R101, R105). -/

namespace Sys2Proof.Machine

/-- The byte that `Sym` computes from an offset, as a number: the addition is modulo 256 (R104). -/
theorem toNat_setWidth_add_ofNat (s : Sextet) (n : Nat) :
    (s.setWidth 8 + BitVec.ofNat 8 n).toNat = (s.toNat + n) % 256 := by
  rw [BitVec.toNat_add, BitVec.toNat_setWidth_of_le (by decide), BitVec.toNat_ofNat, Nat.add_mod_mod]

/-- An offset `c` of R104 undone by the opposite offset `d` of R117 leaves the sextet. -/
theorem setWidth_add_add_cancel (s : Sextet) {c d : Byte} (h : c + d = 0#8) :
    (s.setWidth 8 + c + d).setWidth 6 = s := by
  rw [BitVec.add_assoc, h, BitVec.add_zero, BitVec.setWidth_setWidth_of_le s (by decide), BitVec.setWidth_eq]

/-- `Val` inverts `Sym`: the offset of each range of R104 moves it onto one range of R117, whose offset is the
opposite one. -/
theorem symbolValue_sym (s : Sextet) : symbolValue (sym s) = some s := by
  have hs : s.toNat < 64 := s.isLt
  simp only [sym]
  split
  case isTrue upper =>
    have hc := toNat_setWidth_add_ofNat s 0x41
    rw [symbolValue, if_pos (by omega), setWidth_add_add_cancel s (by decide)]
  case isFalse notUpper =>
  split
  case isTrue lower =>
    have hc := toNat_setWidth_add_ofNat s 0x47
    rw [symbolValue, if_neg (by omega), if_pos (by omega), setWidth_add_add_cancel s (by decide)]
  case isFalse notLower =>
  split
  case isTrue digit =>
    have hc := toNat_setWidth_add_ofNat s 0xFC
    rw [symbolValue, if_neg (by omega), if_neg (by omega), if_pos (by omega), setWidth_add_add_cancel s (by decide)]
  case isFalse notDigit =>
  split
  case isTrue plus =>
    have hc := toNat_setWidth_add_ofNat s 0xED
    rw [symbolValue, if_neg (by omega), if_neg (by omega), if_neg (by omega), if_pos (by omega),
      setWidth_add_add_cancel s (by decide)]
  case isFalse slash =>
    have hc := toNat_setWidth_add_ofNat s 0xF0
    rw [symbolValue, if_neg (by omega), if_neg (by omega), if_neg (by omega), if_neg (by omega), if_pos (by omega),
      setWidth_add_add_cancel s (by decide)]

/-- `Sym` has a left inverse. -/
theorem sym_injective {s t : Sextet} (h : sym s = sym t) : s = t :=
  Option.some.inj (by rw [← symbolValue_sym s, h, symbolValue_sym])

/-- Settles O21: the table of R105 is compared value by value; the rest is that `Val` inverts `Sym`. -/
theorem symbolMapIsTheAlphabet : Obligations.SymbolMapIsTheAlphabet :=
  ⟨by decide, fun _ _ => sym_injective, symbolValue_sym⟩

/-- R101: an output lane draws on the three input lanes of its group alone. -/
theorem encChunk_getElem_congr {v w : Lanes} {g : Nat} (hg : g < 4) (h0 : v[3 * g] = w[3 * g])
    (h1 : v[3 * g + 1] = w[3 * g + 1]) (h2 : v[3 * g + 2] = w[3 * g + 2]) {j : Nat} (hj : j < 4) :
    (encChunk v)[4 * g + j] = (encChunk w)[4 * g + j] := by
  rw [encChunk_getElem v g j hg hj, encChunk_getElem w g j hg hj, h0, h1, h2]

/-- The four groups draw on lanes 0 to 11 and fill all sixteen output lanes (R103). -/
theorem encChunk_congr {v w : Lanes} (h : ∀ i (_ : i < 16), i < 12 → v[i] = w[i]) : encChunk v = encChunk w := by
  refine Vector.ext fun i hi => ?_
  obtain ⟨g, j, hg, hj, rfl⟩ : ∃ g j, g < 4 ∧ j < 4 ∧ i = 4 * g + j := ⟨i / 4, i % 4, by omega⟩
  exact encChunk_getElem_congr hg (h _ _ (by omega)) (h _ _ (by omega)) (h _ _ (by omega)) hj

/-- Settles O23: group by group, and the whole vector from its four groups. -/
theorem encoderIgnoresLanesTwelveUp : Obligations.EncoderIgnoresLanesTwelveUp :=
  ⟨fun _ _ => encChunk_congr, fun _ _ _ hg h0 h1 h2 _ => encChunk_getElem_congr hg h0 h1 h2⟩

end Sys2Proof.Machine

/-! PROOFS. ChunkDecoder: the legal bytes and the chunk flag, and the two kernels as inverses of each other
(42_chunk_decoder.md R119, R120, R124). -/

namespace Sys2Proof.Machine

/-- The legal bytes are those of the five ranges of R117. -/
theorem legal_iff (c : Byte) : legal c = true ↔ (c = 0x2B#8 ∨ c = 0x2F#8 ∨ (0x30 ≤ c.toNat ∧ c.toNat ≤ 0x39) ∨
    (0x41 ≤ c.toNat ∧ c.toNat ≤ 0x5A) ∨ (0x61 ≤ c.toNat ∧ c.toNat ≤ 0x7A)) := by
  rw [BitVec.toNat_eq, BitVec.toNat_eq, legal, symbolValue]
  repeat' split
  all_goals
    simp only [Option.isSome_some, Option.isSome_none, Bool.false_eq_true, true_iff, false_iff, BitVec.toNat_ofNat]
    omega

/-- R104 in numbers: where the symbols of the sextets lie. -/
theorem toNat_sym (s : Sextet) : (sym s).toNat =
    if s.toNat ≤ 25 then s.toNat + 0x41
    else if s.toNat ≤ 51 then s.toNat + 0x47
    else if s.toNat ≤ 61 then s.toNat - 4
    else if s.toNat = 62 then 0x2B
    else 0x2F := by
  have hs : s.toNat < 64 := s.isLt
  simp only [sym, apply_ite BitVec.toNat, toNat_setWidth_add_ofNat]
  repeat' split
  all_goals omega

/-- R118: an offset that lands in 0..63 loses nothing in the six bits. -/
theorem toNat_setWidth_add_of_lt {c : Byte} {n : Nat} (h : (c.toNat + n) % 256 < 64) :
    ((c + BitVec.ofNat 8 n).setWidth 6).toNat = (c.toNat + n) % 256 := by
  rw [BitVec.toNat_setWidth, BitVec.toNat_add, BitVec.toNat_ofNat, Nat.add_mod_mod, Nat.mod_eq_of_lt h]

/-- `Sym` inverts `Val` on the legal bytes: each range of R117 goes to the range of R104 that gives it back. -/
theorem sym_of_symbolValue {c : Byte} {s : Sextet} (h : symbolValue c = some s) : sym s = c := by
  refine BitVec.eq_of_toNat_eq ?_
  rw [symbolValue] at h
  repeat' split at h
  case isFalse.isFalse.isFalse.isFalse.isFalse => exact nomatch h
  all_goals
    obtain rfl := Option.some.inj h
    rw [toNat_sym, toNat_setWidth_add_of_lt (by omega)]
    repeat' split
    all_goals omega

theorem chunkFlag_eq_true_iff (v : Lanes) : chunkFlag v = true ↔ ∃ i, ∃ _ : i < 16, legal v[i] = false := by
  rw [chunkFlag, Vector.any_toList, Vector.any_eq_true]
  simp only [Bool.not_eq_true']

theorem chunkFlag_eq_false_iff (v : Lanes) : chunkFlag v = false ↔ ∀ i (_ : i < 16), legal v[i] = true := by
  rw [chunkFlag, Vector.any_toList, Vector.any_eq_false]
  simp only [Bool.not_eq_true', Bool.not_eq_false]

/-- Settles O22: the 64 are counted over the 256 bytes; the rest is the ranges and the flag, lane by lane. -/
theorem legalBytesAreTheAlphabet : Obligations.LegalBytesAreTheAlphabet :=
  ⟨legal_iff, by decide, by decide, fun _ _ => sym_of_symbolValue, symbolValue_sym, chunkFlag_eq_true_iff⟩

/-- `Pack` inverts `Sextets`: each bit of the three bytes is in one sextet, from which it goes back to its place. -/
theorem pack_sextets (b0 b1 b2 : Byte) :
    pack (sextets b0 b1 b2)[0] (sextets b0 b1 b2)[1] (sextets b0 b1 b2)[2] (sextets b0 b1 b2)[3] = #v[b0, b1, b2] := by
  refine Vector.ext fun k hk => BitVec.eq_of_getElem_eq fun i hi => ?_
  obtain rfl | rfl | rfl : k = 0 ∨ k = 1 ∨ k = 2 := by omega
  all_goals
    obtain rfl | rfl | rfl | rfl | rfl | rfl | rfl | rfl :
      i = 0 ∨ i = 1 ∨ i = 2 ∨ i = 3 ∨ i = 4 ∨ i = 5 ∨ i = 6 ∨ i = 7 := by omega
    all_goals simp [sextets, pack]

/-- `Sextets` inverts `Pack`, bit by bit likewise. -/
theorem sextets_pack (v0 v1 v2 v3 : Sextet) :
    sextets (pack v0 v1 v2 v3)[0] (pack v0 v1 v2 v3)[1] (pack v0 v1 v2 v3)[2] = #v[v0, v1, v2, v3] := by
  refine Vector.ext fun j hj => BitVec.eq_of_getElem_eq fun i hi => ?_
  obtain rfl | rfl | rfl | rfl : j = 0 ∨ j = 1 ∨ j = 2 ∨ j = 3 := by omega
  all_goals
    obtain rfl | rfl | rfl | rfl | rfl | rfl : i = 0 ∨ i = 1 ∨ i = 2 ∨ i = 3 ∨ i = 4 ∨ i = 5 := by omega
    all_goals simp [sextets, pack]

theorem legal_sym (s : Sextet) : legal (sym s) = true := by
  rw [legal, symbolValue_sym, Option.isSome_some]

theorem sym_laneValue (p : Config.Params) {c : Byte} (h : legal c = true) : sym (laneValue p c) = c := by
  obtain ⟨s, hs⟩ := Option.isSome_iff_exists.mp h
  rw [laneValue_eq_of_symbolValue p hs, sym_of_symbolValue hs]

/-- Every output lane of ChunkEncoder is a symbol. -/
theorem chunkFlag_encChunk (v : Lanes) : chunkFlag (encChunk v) = false := by
  refine (chunkFlag_eq_false_iff _).mpr fun i hi => ?_
  obtain ⟨g, j, hg, hj, rfl⟩ : ∃ g j, g < 4 ∧ j < 4 ∧ i = 4 * g + j := ⟨i / 4, i % 4, by omega⟩
  rw [encChunk_getElem v g j hg hj, legal_sym]

/-- ChunkDecoder reads in ChunkEncoder's output the sextets that the symbols stand for. -/
theorem laneValue_encChunk (p : Config.Params) (v : Lanes) {g j : Nat} (hg : g < 4) (hj : j < 4) :
    laneValue p (encChunk v)[4 * g + j] = (sextets v[3 * g] v[3 * g + 1] v[3 * g + 2])[j] := by
  rw [encChunk_getElem v g j hg hj, laneValue_eq_of_symbolValue p (symbolValue_sym _)]

/-- Lane `k` of a group: its three bytes are cut into sextets and packed again. -/
theorem decChunk_encChunk_getElem (p : Config.Params) (v : Lanes) {i : Nat} (hi : i < 12) :
    (decChunk p (encChunk v))[i] = v[i] := by
  obtain ⟨g, k, hg, hk, rfl⟩ : ∃ g k, g < 4 ∧ k < 3 ∧ i = 3 * g + k := ⟨i / 3, i % 3, by omega⟩
  have hfirst : laneValue p (encChunk v)[4 * g] = _ := laneValue_encChunk p v (j := 0) hg (by decide)
  rw [decChunk_getElem p _ g k hg hk, hfirst, laneValue_encChunk p v hg (by decide),
    laneValue_encChunk p v hg (by decide), laneValue_encChunk p v hg (by decide)]
  simp only [pack_sextets]
  obtain rfl | rfl | rfl : k = 0 ∨ k = 1 ∨ k = 2 := by omega
  all_goals rfl

/-- Lane `j` of a group: its four values are packed and cut into sextets again, and each legal byte is the symbol of
its value. -/
theorem encChunk_decChunk (p : Config.Params) {t : Lanes} (h : ∀ i (_ : i < 16), legal t[i] = true) :
    encChunk (decChunk p t) = t := by
  refine Vector.ext fun i hi => ?_
  obtain ⟨g, j, hg, hj, rfl⟩ : ∃ g j, g < 4 ∧ j < 4 ∧ i = 4 * g + j := ⟨i / 4, i % 4, by omega⟩
  have hfirst : (decChunk p t)[3 * g] = _ := decChunk_getElem p t g 0 hg (by decide)
  rw [encChunk_getElem _ g j hg hj, hfirst, decChunk_getElem p t g 1 hg (by decide),
    decChunk_getElem p t g 2 hg (by decide)]
  simp only [sextets_pack]
  obtain rfl | rfl | rfl | rfl : j = 0 ∨ j = 1 ∨ j = 2 ∨ j = 3 := by omega
  all_goals exact sym_laneValue p (h _ _)

/-- Settles O25: both directions group by group, through `Sym` and `Val` on the lanes and `Sextets` and `Pack` on the
24 bits between them. -/
theorem kernelsInvertEachOther : Obligations.KernelsInvertEachOther :=
  ⟨fun p v => ⟨chunkFlag_encChunk v, fun _ _ => decChunk_encChunk_getElem p v⟩,
    fun p t h => ⟨(chunkFlag_eq_false_iff t).mpr h, encChunk_decChunk p h⟩⟩

end Sys2Proof.Machine

/-! PROOFS. StreamDriver encode: the fast region, and the steps of `E_CHECK` and `E_FAST` (43_stream_encode.md R136,
R138, R141). -/

namespace Sys2Proof.Machine

/-- R138 (a). -/
theorem fastEnd_mod_twelve (l : Nat) : fastEnd l % 12 = 0 := by
  obtain ⟨_, hf⟩ | ⟨_, _, hf⟩ | ⟨_, _, hf⟩ := fastEnd_cases l
  all_goals omega

/-- R138 (a): no case of R137 leaves the tail empty. -/
theorem fastEnd_lt {l : Nat} (h : 1 ≤ l) : fastEnd l < l := by
  obtain ⟨_, hf⟩ | ⟨_, _, hf⟩ | ⟨_, _, hf⟩ := fastEnd_cases l
  all_goals omega

/-- R138 (b): the last window of 16 bytes, which starts 12 below `FEND`, lies in the input. -/
theorem fastEnd_add_four_le {l : Nat} (h : 0 < fastEnd l) : fastEnd l + 4 ≤ l := by
  obtain ⟨_, hf⟩ | ⟨_, _, hf⟩ | ⟨_, _, hf⟩ := fastEnd_cases l
  all_goals omega

/-- R138 (c): two tail chunks of at most 12 bytes are enough. -/
theorem sub_fastEnd_le_fifteen (l : Nat) : l - fastEnd l ≤ 15 := by
  obtain ⟨_, hf⟩ | ⟨_, _, hf⟩ | ⟨_, _, hf⟩ := fastEnd_cases l
  all_goals omega

theorem sub_fastEnd_of_four_le_mod {l : Nat} (h : 4 ≤ l % 12) : l - fastEnd l = l % 12 := by
  rw [fastEnd, if_pos h]
  omega

theorem fastEnd_of_lt_sixteen {l : Nat} (hm : l % 12 < 4) (h : l < 16) : fastEnd l = 0 := by
  rw [fastEnd, if_neg (by omega), if_pos h]

theorem sub_fastEnd_of_sixteen_le {l : Nat} (hm : l % 12 < 4) (h : 16 ≤ l) : l - fastEnd l = l % 12 + 12 := by
  rw [fastEnd, if_neg (by omega), if_neg (by omega)]
  omega

/-- R138 (d): an input has a fast region exactly when one window of 16 bytes fits in it. -/
theorem fastEnd_eq_zero_iff (l : Nat) : fastEnd l = 0 ↔ l ≤ 15 := by
  obtain ⟨_, hf⟩ | ⟨_, _, hf⟩ | ⟨_, _, hf⟩ := fastEnd_cases l
  all_goals omega

/-- Settles O19: (a), (b) and (d) hold in each of the three cases of R137; the tail lengths of (c) are read off the
case that gives them. -/
theorem fastRegionLeavesAReadableTail : Obligations.FastRegionLeavesAReadableTail := fun l hl =>
  ⟨⟨fastEnd_mod_twelve l, fastEnd_lt hl⟩, fastEnd_add_four_le,
    ⟨Nat.sub_pos_of_lt (fastEnd_lt hl), sub_fastEnd_le_fifteen l⟩, sub_fastEnd_of_four_le_mod,
    fun hm h => by rw [fastEnd_of_lt_sixteen hm h, Nat.sub_zero], sub_fastEnd_of_sixteen_le, fastEnd_eq_zero_iff l⟩

/-- `E_CHECK` once `LEN` holds a value: the tests of R136, in their order. -/
theorem ruleECheck_eq {s : State} {l : Nat} (hl : s.len = some l) :
    ruleECheck s =
      if l = 0 then .next (s.raise .emptyInput)
      else if l > s.params.inMax ∨ encLen l + 16 > s.params.outMax then .next (s.raise .range)
      else .next { s with
        cap := some (encLen l + 16), rd := some 0, wr := some 0, fend := some (fastEnd l), phase := .eFast } := by
  rw [ruleECheck, hl, orFault_some]

/-- Settles O27: the rule of `E_CHECK` fires, and each clause names the branch that its tests select. -/
theorem encodeCheckValidatesAndSizes : Obligations.EncodeCheckValidatesAndSizes := by
  intro s l hb hp hl
  rw [exec_fires hb (.eCheck hp), ruleECheck_eq hl]
  refine ⟨fun empty => ?_, fun nonempty outOfRange => ?_, fun nonempty hin hout => ?_⟩
  · rw [if_pos empty]
  · rw [if_neg nonempty, if_pos outOfRange]
  · rw [if_neg nonempty, if_neg (by omega)]

/-- A store of sixteen lanes within `CAP` is admitted (20_memory.md R53). -/
theorem State.memWrite_lanes (s : State) {cap a : Nat} (v : Lanes) (h : a + 16 ≤ cap) :
    s.memWrite cap a v.toList = some (s.outBuf.writeBytes a v.toList) :=
  State.memWrite_eq_some.mpr ⟨by rwa [Vector.length_toList], rfl⟩

/-- R141: below `FEND`, with the window in place and the store admitted, `E_FAST` encodes the window. -/
theorem ruleEFast_iteration {s : State} {rd fend wr cap : Nat} {v : Lanes} (hrd : s.rd = some rd)
    (hfend : s.fend = some fend) (hlt : rd < fend) (hwr : s.wr = some wr) (hcap : s.cap = some cap)
    (hstore : wr + 16 ≤ cap) (hwindow : s.window rd = some v) :
    ruleEFast s = .next { s with
      vin := some v, vout := some (encChunk v), outBuf := s.outBuf.writeBytes wr (encChunk v).toList,
      rd := some (rd + 12), wr := some (wr + 16) } := by
  simp only [ruleEFast, hrd, hfend, hlt, hwr, hcap, hwindow, State.memWrite_lanes s _ hstore, orFault_some, ↓reduceIte]

/-- Settles O29: the sixteen bytes in place make up the window, and what the store leaves is read byte by byte. -/
theorem encodeFastIteration : Obligations.EncodeFastIteration := by
  intro s rd fend wr cap v hb hp hrd hfend hlt hwr hcap hstore hin hbytes
  have hwindow : s.window rd = some v := State.window_eq_some.mpr ⟨hin, hbytes⟩
  refine ⟨s.outBuf.writeBytes wr (encChunk v).toList, ?_, fun a => ?_⟩
  · rw [exec_fires hb (.eFast hp), ruleEFast_iteration hrd hfend hlt hwr hcap hstore hwindow]
  · rw [Memory.read_writeBytes, Vector.length_toList]

end Sys2Proof.Machine

/-! PROOFS. StreamDriver decode: the steps of `D_TRIM`, `D_FAST`, `D_TAIL` and `D_FINAL`
(44_stream_decode.md R156, R160, R161, R164, R165, R168). -/

namespace Sys2Proof.Machine

/-- `D_TRIM` once `LEN` holds an admitted length and the stripped length is known: the tests of R156, in their order. -/
theorem ruleDTrim_eq {s : State} {l n : Nat} (hl : s.len = some l) (hin : l ≤ s.params.inMax)
    (hn : s.stripLen l = some n) :
    ruleDTrim s =
      if n = 0 then .next (State.complete { s with slen := some n, dstLen := some 0 } false)
      else if n % 4 = 1 then .next (State.raise { s with slen := some n } .invalidCharacter)
      else orFault .noPhaseRule (decLen n) fun d =>
        if d + 16 > s.params.outMax then .next (State.raise { s with slen := some n } .range)
        else .next { s with
          slen := some n, cap := some (d + 16), rd := some 0, wr := some 0, err := false, phase := .dFast } := by
  rw [ruleDTrim, hl, orFault_some, if_neg (Nat.not_lt_of_le hin), hn, orFault_some]

/-- R156: a length beyond `IN` fails before any byte is read. -/
theorem ruleDTrim_of_inMax_lt {s : State} {l : Nat} (hl : s.len = some l) (hout : s.params.inMax < l) :
    ruleDTrim s = .next (s.raise .range) := by
  rw [ruleDTrim, hl, orFault_some, if_pos hout]

/-- R156: a payload that passes the tests goes on to the loop. -/
theorem ruleDTrim_passes {s : State} {l n d : Nat} (hl : s.len = some l) (hin : l ≤ s.params.inMax)
    (hn : s.stripLen l = some n) (hpos : n ≠ 0) (hd : decLen n = some d) (hout : d + 16 ≤ s.params.outMax) :
    ruleDTrim s = .next { s with
      slen := some n, cap := some (d + 16), rd := some 0, wr := some 0, err := false, phase := .dFast } := by
  rw [ruleDTrim_eq hl hin hn, if_neg hpos, if_neg (decLen_eq_some.mp hd).1, hd, orFault_some,
    if_neg (Nat.not_lt_of_le hout)]

/-- Settles O33: the rule of `D_TRIM` fires, and each clause names the branch that its tests select. -/
theorem decodeTrimValidatesAndSizes : Obligations.DecodeTrimValidatesAndSizes := by
  intro s l hb hp hl
  rw [exec_fires hb (.dTrim hp)]
  refine ⟨ruleDTrim_of_inMax_lt hl, fun n hin hn => ⟨?_, ?_, fun d hpos hd => ⟨?_, ?_⟩⟩⟩
  · rintro rfl
    rw [ruleDTrim_eq hl hin hn, if_pos rfl]
  · intro hbad
    rw [ruleDTrim_eq hl hin hn, if_neg (by omega), if_pos hbad]
  · intro hout
    rw [ruleDTrim_eq hl hin hn, if_neg hpos, if_neg (decLen_eq_some.mp hd).1, hd, orFault_some, if_pos hout]
  · exact ruleDTrim_passes hl hin hn hpos hd

/-- R160: with less than a window of payload left, the loop ends. -/
theorem ruleDFast_exit {s : State} {rd n : Nat} (hrd : s.rd = some rd) (hn : s.slen = some n) (hlt : n < rd + 16) :
    ruleDFast s = .next { s with phase := .dTail } := by
  rw [ruleDFast, hrd, hn, orFault_some, orFault_some, if_neg (Nat.not_le_of_lt hlt)]

/-- R164: with nothing left there is no tail chunk. -/
theorem ruleDTail_empty {s : State} {n : Nat} (hrd : s.rd = some n) (hn : s.slen = some n) :
    ruleDTail s = .next { s with phase := .dFinal } := by
  rw [ruleDTail, hrd, hn, orFault_some, orFault_some, if_pos rfl]

/-- Settles O34: the rule of the phase fires, with its exit condition met. -/
theorem decodeLoopExits : Obligations.DecodeLoopExits := by
  intro s rd n hb hrd hn
  refine ⟨fun hp hlt => ?_, fun hp heq => ?_⟩
  · rw [exec_fires hb (.dFast hp), ruleDFast_exit hrd hn hlt]
  · subst heq
    rw [exec_fires hb (.dTail hp), ruleDTail_empty hrd hn]

/-- R161: with a window of payload left, its bytes in place and the store admitted, `D_FAST` decodes the window. -/
theorem ruleDFast_iteration {s : State} {rd n wr cap : Nat} {v : Lanes} (hrd : s.rd = some rd)
    (hn : s.slen = some n) (hle : rd + 16 ≤ n) (hwr : s.wr = some wr) (hcap : s.cap = some cap)
    (hstore : wr + 16 ≤ cap) (hwindow : s.window rd = some v) :
    ruleDFast s = .next { s with
      vin := some v, vout := some (decChunk s.params v),
      outBuf := s.outBuf.writeBytes wr (decChunk s.params v).toList, err := stickyErr s.err (chunkFlag v),
      rd := some (rd + 16), wr := some (wr + 12) } := by
  simp only [ruleDFast, hrd, hn, hle, hwr, hcap, hwindow, State.memWrite_lanes s _ hstore, orFault_some, ↓reduceIte]

/-- Settles O35: the sixteen bytes in place make up the window, and what the store leaves is read byte by byte. -/
theorem decodeFastIteration : Obligations.DecodeFastIteration := by
  intro s rd n wr cap v hb hp hrd hn hle hwr hcap hstore hin hbytes
  have hwindow : s.window rd = some v := State.window_eq_some.mpr ⟨hin, hbytes⟩
  refine ⟨s.outBuf.writeBytes wr (decChunk s.params v).toList, ?_, fun a => ?_⟩
  · rw [exec_fires hb (.dFast hp), ruleDFast_iteration hrd hn hle hwr hcap hstore hwindow, stickyErr]
  · rw [Memory.read_writeBytes, Vector.length_toList]

/-- R168: an illegal byte anywhere in the payload is reported here. -/
theorem ruleDFinal_of_err {s : State} (herr : s.err = true) : ruleDFinal s = .next (s.raise .invalidCharacter) := by
  rw [ruleDFinal, if_pos herr]

/-- R168: otherwise the write cursor is the length of the data. -/
theorem ruleDFinal_of_ok {s : State} {wr : Nat} (herr : s.err = false) (hwr : s.wr = some wr) :
    ruleDFinal s = .next (State.complete { s with dstLen := some wr } false) := by
  rw [ruleDFinal, herr, if_neg Bool.false_ne_true, hwr, orFault_some]

/-- Settles O37: the rule of `D_FINAL` fires, and `ERR` selects the verdict. -/
theorem decodeFinalVerdict : Obligations.DecodeFinalVerdict := by
  intro s hb hp
  rw [exec_fires hb (.dFinal hp)]
  exact ⟨ruleDFinal_of_err, fun _ => ruleDFinal_of_ok⟩

end Sys2Proof.Machine

/-! PROOFS. The text of an input and the data of a payload, window by window: what ChunkEncoder and ChunkDecoder give
on the window at a cursor, what a store of it leaves in `OUT`, and that the payload of a text carries the input
(43_stream_encode.md R142, R147, R152, 44_stream_decode.md R162, R166, R169, R173). -/

namespace Sys2Proof.Machine

theorem rawByte_of_le {m : Memory} {n i : Nat} (h : n ≤ i) : rawByte m n i = 0x00#8 := if_neg (Nat.not_lt_of_le h)

theorem rawByte_of_read {m : Memory} {n i : Nat} {b : Byte} (h : i < n) (hb : m.read i = some b) :
    rawByte m n i = b := by
  rw [rawByte, if_pos h, hb, Option.getD_some]

/-- Bytes below the cursor do not depend on where the cursor stands. -/
theorem rawByte_congr (m : Memory) {n k i : Nat} (hn : i < n) (hk : i < k) : rawByte m n i = rawByte m k i := by
  rw [rawByte, if_pos hn, rawByte, if_pos hk]

/-- The sextet whose symbol is `textSymbol m n a` (R102, R152). -/
def textSextet (m : Memory) (n a : Nat) : Sextet :=
  (sextets (rawByte m n (3 * (a / 4))) (rawByte m n (3 * (a / 4) + 1)) (rawByte m n (3 * (a / 4) + 2)))[a % 4]'(by
    omega)

theorem textSymbol_eq_sym (m : Memory) (n a : Nat) : textSymbol m n a = sym (textSextet m n a) := rfl

theorem textSextet_group (m : Memory) (n g : Nat) {j : Nat} (hj : j < 4) :
    textSextet m n (4 * g + j) =
      (sextets (rawByte m n (3 * g)) (rawByte m n (3 * g + 1)) (rawByte m n (3 * g + 2)))[j] := by
  have hg : (4 * g + j) / 4 = g := by omega
  have hm : (4 * g + j) % 4 = j := by omega
  simp only [textSextet, hg, hm]

/-- R142: the text of whole groups stays as the input grows. -/
theorem textSymbol_of_le (m : Memory) {r n a : Nat} (hr : r % 3 = 0) (hn : r ≤ n) (ha : a < encLen r) :
    textSymbol m r a = textSymbol m n a := by
  rw [encLen_eq] at ha
  have hbyte : ∀ i < r, rawByte m r i = rawByte m n i := fun i hi => rawByte_congr m hi (by omega)
  rw [textSymbol, textSymbol, hbyte _ (by omega), hbyte _ (by omega), hbyte _ (by omega)]

/-- ChunkEncoder on the window at `r`, the bytes from `n` on replaced by zeros: the text of `n` bytes from
`EncLen r`. -/
theorem encChunk_getElem_eq_textSymbol {m : Memory} {v : Lanes} {r n : Nat} (hr : r % 3 = 0)
    (hv : ∀ i (_ : i < 16), i < 12 → v[i] = rawByte m n (r + i)) {j : Nat} (hj : j < 16) :
    (encChunk v)[j] = textSymbol m n (encLen r + j) := by
  obtain ⟨g, k, hg, hk, rfl⟩ : ∃ g k, g < 4 ∧ k < 4 ∧ j = 4 * g + k := ⟨j / 4, j % 4, by omega⟩
  have hpos : encLen r + (4 * g + k) = 4 * (r / 3 + g) + k := by rw [encLen_eq]; omega
  have hbase : r + 3 * g = 3 * (r / 3 + g) := by omega
  rw [encChunk_getElem v g k hg hk, hpos, textSymbol_eq_sym, textSextet_group m n _ hk, hv _ _ (by omega),
    hv _ _ (by omega), hv _ _ (by omega), ← Nat.add_assoc, ← Nat.add_assoc, hbase]

/-- The first twelve lanes of a window of `k` bytes and zeros (R141, R146). -/
theorem window_lane_eq_rawByte {m : Memory} {v : Lanes} {r k : Nat}
    (hreal : ∀ i (_ : i < 16), i < k → m.read (r + i) = some v[i])
    (hfill : ∀ i (_ : i < 16), i < 12 → k ≤ i → v[i] = 0x00#8) (i : Nat) (hi : i < 16) (h12 : i < 12) :
    v[i] = rawByte m (r + k) (r + i) := by
  by_cases hik : i < k
  · rw [rawByte_of_read (by omega) (hreal i hi hik)]
  · rw [rawByte_of_le (by omega), hfill i hi h12 (by omega)]

/-- R142, R147: the store of one encoded window of `k` bytes at `EncLen r` extends the text from `r` to `r + k`
bytes. -/
theorem text_extends {m out : Memory} {v : Lanes} {r k : Nat} (hr : r % 3 = 0) (hk : k ≤ 12)
    (hv : ∀ i (_ : i < 16), i < 12 → v[i] = rawByte m (r + k) (r + i))
    (htext : ∀ a < encLen r, out.read a = some (textSymbol m r a)) :
    ∀ a < encLen (r + k), (out.writeBytes (encLen r) (encChunk v).toList).read a = some (textSymbol m (r + k) a) := by
  intro a ha
  have hend : encLen (r + k) ≤ encLen r + 16 := by rw [encLen_eq, encLen_eq]; omega
  rw [Memory.read_writeLanes]
  by_cases hlt : a < encLen r
  · rw [dif_neg (by omega), htext a hlt, textSymbol_of_le m hr (Nat.le_add_right r k) hlt]
  · rw [dif_pos (by omega), encChunk_getElem_eq_textSymbol hr hv, Nat.add_sub_cancel' (Nat.le_of_not_lt hlt)]

/-- The text proper comes before the padding (R152). -/
theorem paddedText_of_lt {m : Memory} {n a : Nat} (h : a < encLen n) : paddedText m n a = textSymbol m n a := by
  rw [encLen_eq] at h
  rw [paddedText, if_neg (by omega), if_neg (by omega)]

/-- From the end of the text to the next multiple of four there is padding (R152). -/
theorem paddedText_of_le {m : Memory} {n a : Nat} (h : encLen n ≤ a) (ha : a < 4 * ((n + 2) / 3)) :
    paddedText m n a = Config.pad := by
  rw [encLen_eq] at h
  rw [paddedText]
  split
  · rfl
  · rw [if_pos (by omega)]

/-- R150: the padding completes the last group of four. -/
theorem padding_encLen (n : Nat) :
    padding (encLen n % 4) = some (List.replicate (4 * ((n + 2) / 3) - encLen n) Config.pad) := by
  obtain h | h | h : n % 3 = 0 ∨ n % 3 = 1 ∨ n % 3 = 2 := by omega
  · have hm : encLen n % 4 = 0 := by rw [encLen_eq]; omega
    have hp : 4 * ((n + 2) / 3) - encLen n = 0 := by rw [encLen_eq]; omega
    rw [hm, hp]
    rfl
  · have hm : encLen n % 4 = 2 := by rw [encLen_eq]; omega
    have hp : 4 * ((n + 2) / 3) - encLen n = 2 := by rw [encLen_eq]; omega
    rw [hm, hp]
    rfl
  · have hm : encLen n % 4 = 3 := by rw [encLen_eq]; omega
    have hp : 4 * ((n + 2) / 3) - encLen n = 1 := by rw [encLen_eq]; omega
    rw [hm, hp]
    rfl

theorem payloadValue_of_le {p : Config.Params} {m : Memory} {n i : Nat} (h : n ≤ i) : payloadValue p m n i = 0#6 :=
  if_neg (Nat.not_lt_of_le h)

theorem payloadValue_of_read {p : Config.Params} {m : Memory} {n i : Nat} {b : Byte} (h : i < n)
    (hb : m.read i = some b) : payloadValue p m n i = laneValue p b := by
  rw [payloadValue, if_pos h, hb, Option.getD_some]

/-- Values below the cursor do not depend on where the cursor stands. -/
theorem payloadValue_congr (p : Config.Params) (m : Memory) {n k i : Nat} (hn : i < n) (hk : i < k) :
    payloadValue p m n i = payloadValue p m k i := by
  rw [payloadValue, if_pos hn, payloadValue, if_pos hk]

theorem dataByte_group (p : Config.Params) (m : Memory) (n g : Nat) {k : Nat} (hk : k < 3) :
    dataByte p m n (3 * g + k) = (pack (payloadValue p m n (4 * g)) (payloadValue p m n (4 * g + 1))
      (payloadValue p m n (4 * g + 2)) (payloadValue p m n (4 * g + 3)))[k] := by
  have hg : (3 * g + k) / 3 = g := by omega
  have hm : (3 * g + k) % 3 = k := by omega
  simp only [dataByte, hg, hm]

/-- R162: the data of whole groups stays as the payload grows. -/
theorem dataByte_of_le (p : Config.Params) (m : Memory) {r n a : Nat} (hr : r % 4 = 0) (hn : r ≤ n)
    (ha : a < 3 * r / 4) : dataByte p m r a = dataByte p m n a := by
  have hvalue : ∀ i < r, payloadValue p m r i = payloadValue p m n i := fun i hi => payloadValue_congr p m hi (by omega)
  rw [dataByte, dataByte, hvalue _ (by omega), hvalue _ (by omega), hvalue _ (by omega), hvalue _ (by omega)]

/-- ChunkDecoder on the window at `r`, the characters from `n` on worth 0: the data of `n` characters from
`DecLen r`. -/
theorem decChunk_getElem_eq_dataByte {p : Config.Params} {m : Memory} {v : Lanes} {r n : Nat} (hr : r % 4 = 0)
    (hv : ∀ i (_ : i < 16), laneValue p v[i] = payloadValue p m n (r + i)) {j : Nat} (hj : j < 12) :
    (decChunk p v)[j] = dataByte p m n (3 * r / 4 + j) := by
  obtain ⟨g, k, hg, hk, rfl⟩ : ∃ g k, g < 4 ∧ k < 3 ∧ j = 3 * g + k := ⟨j / 3, j % 3, by omega⟩
  have hpos : 3 * r / 4 + (3 * g + k) = 3 * (r / 4 + g) + k := by omega
  have hbase : r + 4 * g = 4 * (r / 4 + g) := by omega
  rw [decChunk_getElem p v g k hg hk, hpos, dataByte_group p m n _ hk, hv, hv, hv, hv, ← Nat.add_assoc,
    ← Nat.add_assoc, ← Nat.add_assoc, hbase]

/-- The lane values of a window of `k` characters and the fill `'A'` (R161, R165). -/
theorem window_laneValue_eq_payloadValue (p : Config.Params) {m : Memory} {v : Lanes} {r k : Nat}
    (hreal : ∀ i (_ : i < 16), i < k → m.read (r + i) = some v[i])
    (hfill : ∀ i (_ : i < 16), k ≤ i → v[i] = Config.decFill) (i : Nat) (hi : i < 16) :
    laneValue p v[i] = payloadValue p m (r + k) (r + i) := by
  by_cases hik : i < k
  · rw [payloadValue_of_read (by omega) (hreal i hi hik)]
  · rw [payloadValue_of_le (by omega), hfill i hi (by omega), laneValue_decFill]

/-- R162, R166: the store of one decoded window of `k` characters at `DecLen r` extends the data from `r` to `r + k`
characters. -/
theorem data_extends {p : Config.Params} {m out : Memory} {v : Lanes} {r k w e : Nat} (hr : r % 4 = 0) (hk : k ≤ 16)
    (hw : decLen r = some w) (he : decLen (r + k) = some e)
    (hv : ∀ i (_ : i < 16), laneValue p v[i] = payloadValue p m (r + k) (r + i))
    (hdata : ∀ a < w, out.read a = some (dataByte p m r a)) :
    ∀ a < e, (out.writeBytes w (decChunk p v).toList).read a = some (dataByte p m (r + k) a) := by
  intro a ha
  obtain ⟨-, rfl⟩ := decLen_eq_some.mp hw
  obtain ⟨-, rfl⟩ := decLen_eq_some.mp he
  rw [Memory.read_writeLanes]
  by_cases hlt : a < 3 * r / 4
  · rw [dif_neg (by omega), hdata a hlt, dataByte_of_le p m hr (Nat.le_add_right r k) hlt]
  · rw [dif_pos (by omega), decChunk_getElem_eq_dataByte hr hv (by omega), Nat.add_sub_cancel' (Nat.le_of_not_lt hlt)]

/-- R162, R166: the flag of one window of `k` characters and legal fill says whether an illegal byte is among them. -/
theorem someIllegal_add_iff {m : Memory} {v : Lanes} {r k : Nat} (hk : k ≤ 16)
    (hreal : ∀ i (_ : i < 16), i < k → m.read (r + i) = some v[i])
    (hfill : ∀ i (_ : i < 16), k ≤ i → v[i] = Config.decFill) :
    SomeIllegal m (r + k) ↔ SomeIllegal m r ∨ chunkFlag v = true := by
  rw [chunkFlag_eq_true_iff]
  constructor
  · rintro ⟨i, hi, b, hb, hbad⟩
    by_cases hir : i < r
    · exact .inl ⟨i, hir, b, hb, hbad⟩
    · obtain ⟨j, rfl⟩ := Nat.exists_eq_add_of_le (Nat.le_of_not_lt hir)
      have hlane := hreal j (by omega) (by omega)
      obtain rfl := Option.some.inj (hb.symm.trans hlane)
      exact .inr ⟨j, by omega, hbad⟩
  · rintro (⟨i, hi, b, hb, hbad⟩ | ⟨j, hj, hbad⟩)
    · exact ⟨i, by omega, b, hb, hbad⟩
    · by_cases hjk : j < k
      · exact ⟨r + j, by omega, v[j], hreal j hj hjk, hbad⟩
      · rw [hfill j hj (by omega), legal_decFill] at hbad
        exact absurd hbad (by decide)

/-- R108: beyond the text of `n` bytes the sextets are 0, since only zeros flow into them. -/
theorem textSextet_of_le {m : Memory} {n a : Nat} (h : encLen n ≤ a) : textSextet m n a = 0#6 := by
  obtain ⟨g, j, hj, rfl⟩ : ∃ g j, j < 4 ∧ a = 4 * g + j := ⟨a / 4, a % 4, by omega⟩
  rw [encLen_eq] at h
  rw [textSextet_group m n g hj]
  obtain rfl | rfl | rfl | rfl : j = 0 ∨ j = 1 ∨ j = 2 ∨ j = 3 := by omega
  · simp [sextets, rawByte_of_le (m := m) (show n ≤ 3 * g by omega)]
  · simp [sextets, rawByte_of_le (m := m) (show n ≤ 3 * g by omega),
      rawByte_of_le (m := m) (show n ≤ 3 * g + 1 by omega)]
  · simp [sextets, rawByte_of_le (m := m) (show n ≤ 3 * g + 1 by omega),
      rawByte_of_le (m := m) (show n ≤ 3 * g + 2 by omega)]
  · simp [sextets, rawByte_of_le (m := m) (show n ≤ 3 * g + 2 by omega)]

/-- The value of each character of the text of `n` bytes is the sextet it stands for, and past the text both are 0. -/
theorem payloadValue_of_text (p : Config.Params) {m k : Memory} {n : Nat}
    (htext : ∀ a < encLen n, k.read a = some (textSymbol m n a)) (a : Nat) :
    payloadValue p k (encLen n) a = textSextet m n a := by
  by_cases ha : a < encLen n
  · rw [payloadValue_of_read ha (htext a ha), textSymbol_eq_sym, laneValue_eq_of_symbolValue p (symbolValue_sym _)]
  · rw [payloadValue_of_le (by omega), textSextet_of_le (by omega)]

/-- R173: the data of the text of `n` bytes is those bytes. -/
theorem dataByte_of_text (p : Config.Params) {m k : Memory} {n : Nat}
    (htext : ∀ a < encLen n, k.read a = some (textSymbol m n a)) (i : Nat) :
    dataByte p k (encLen n) i = rawByte m n i := by
  obtain ⟨g, j, hj, rfl⟩ : ∃ g j, j < 3 ∧ i = 3 * g + j := ⟨i / 3, i % 3, by omega⟩
  have hfirst : textSextet m n (4 * g) = _ := textSextet_group m n g (j := 0) (by decide)
  rw [dataByte_group p k _ g hj]
  simp only [payloadValue_of_text p htext, hfirst, textSextet_group m n g (show 1 < 4 by decide),
    textSextet_group m n g (show 2 < 4 by decide), textSextet_group m n g (show 3 < 4 by decide), pack_sextets]
  obtain rfl | rfl | rfl : j = 0 ∨ j = 1 ∨ j = 2 := by omega
  all_goals rfl

/-- No symbol is the pad character (R119). -/
theorem textSymbol_ne_pad (m : Memory) (n a : Nat) : textSymbol m n a ≠ Config.pad := by
  intro hpad
  have hlegal := legal_sym (textSextet m n a)
  rw [← textSymbol_eq_sym, hpad] at hlegal
  exact absurd hlegal (by decide)

/-- Every character of a text is a symbol. -/
theorem not_someIllegal_of_text {m k : Memory} {n : Nat} (htext : ∀ a < encLen n, k.read a = some (textSymbol m n a)) :
    ¬ SomeIllegal k (encLen n) := by
  rintro ⟨a, ha, b, hb, hbad⟩
  obtain rfl := Option.some.inj (hb.symm.trans (htext a ha))
  rw [textSymbol_eq_sym, legal_sym] at hbad
  exact absurd hbad (by decide)

end Sys2Proof.Machine

/-! PROOFS. Runs of one command: acceptance from the host's write of its word, and what stays as it was from the state
the command started from (45_host_interface.md R177, 10_state.md R33, R29). -/

namespace Sys2Proof.Machine

/-- In `s` a command started from `s₀` runs in phase `ph`, no host access pending: `IN`, `SRC_LEN` and the parameters
are those of `s₀`. -/
structure RunsFrom (s₀ : State) (ph : Phase) (s : State) : Prop where
  host : s.host = []
  busy : s.busy = true
  phase : s.phase = ph
  inBuf : s.inBuf = s₀.inBuf
  srcLen : s.srcLen = s₀.srcLen
  params : s.params = s₀.params

/-- R176, R177: the write of an admitted command's word to `CMD` starts the command. -/
theorem step_accepts {s : State} {i : Instr} {l : Nat} {rest : List Event}
    (hh : s.host = .access (.writeReg 0 (encode i).toNat) :: rest) (hb : s.busy = false) (hl : s.srcLen = some l) :
    step s = .next (State.accepted { s with host := rest } i) := by
  have hidle : State.busy { s with host := rest } = false := hb
  have hdec : decode (encode i) = .ok i := (decode_eq_ok_iff _ _).mpr rfl
  calc step s = cmdWrite (encode i) { s with host := rest } := by
        simp [step, advance, hh, hostAccess, hostReg, writeReg, BitVec.ofNat_toNat, (encode i).isLt]
    _ = exec i { s with host := rest } := by simp [cmdWrite, hidle, hdec]
    _ = accept i { s with host := rest } := exec_idle i hidle
    _ = .next (State.accepted { s with host := rest } i) := by simp [accept, hl]

/-- The step of such a command is the rule of its phase. -/
theorem RunsFrom.step_eq {s₀ s : State} {ph : Phase} {i : Instr} {r : State → Out} (hs : RunsFrom s₀ ph s)
    (f : Fires i s r) : step s = r s :=
  step_fires hs.host hs.busy f

theorem accepted_runsFrom (s : State) (i : Instr) :
    RunsFrom s (firstPhase i) (State.accepted { s with host := [] } i) where
  host := rfl
  busy := State.accepted_busy _ _
  phase := rfl
  inBuf := rfl
  srcLen := rfl
  params := rfl

end Sys2Proof.Machine

/-! PROOFS. `ENCODE` end to end: each rule keeps `EncodeAt`, the two loops run to their ends, and what is left in `OUT`
is the padded text (43_stream_encode.md R142, R147, R152, R153). -/

namespace Sys2Proof.Machine

/-- R136: an input within the ranges goes on to the fast loop. -/
theorem ruleECheck_passes {s : State} {l : Nat} (hl : s.len = some l) (hpos : 1 ≤ l) (hin : l ≤ s.params.inMax)
    (hout : encLen l + 16 ≤ s.params.outMax) :
    ruleECheck s = .next { s with
      cap := some (encLen l + 16), rd := some 0, wr := some 0, fend := some (fastEnd l), phase := .eFast } := by
  rw [ruleECheck_eq hl, if_neg (by omega), if_neg (by omega)]

/-- R140. -/
theorem ruleEFast_exit {s : State} {rd fend : Nat} (hrd : s.rd = some rd) (hfend : s.fend = some fend)
    (hle : fend ≤ rd) : ruleEFast s = .next { s with phase := .eTail } := by
  rw [ruleEFast, hrd, hfend, orFault_some, orFault_some, if_neg (Nat.not_lt_of_le hle)]

/-- R145. -/
theorem ruleETail_exit {s : State} {rd l : Nat} (hrd : s.rd = some rd) (hl : s.len = some l) (hle : l ≤ rd) :
    ruleETail s = .next { s with phase := .eFinal } := by
  rw [ruleETail, hrd, hl, orFault_some, orFault_some, if_neg (Nat.not_lt_of_le hle)]

/-- R146: while bytes remain, with the scratch window in place and the store admitted, `E_TAIL` encodes it. -/
theorem ruleETail_iteration {s : State} {rd l wr cap : Nat} {v : Lanes} (hrd : s.rd = some rd) (hl : s.len = some l)
    (hlt : rd < l) (hwr : s.wr = some wr) (hcap : s.cap = some cap) (hstore : wr + 16 ≤ cap)
    (hscratch : s.scratch rd (min 12 (l - rd)) Config.encFill = some v) :
    ruleETail s = .next { s with
      scr := some v, vin := some v, vout := some (encChunk v), outBuf := s.outBuf.writeBytes wr (encChunk v).toList,
      rd := some (rd + min 12 (l - rd)), wr := some (wr + encLen (min 12 (l - rd))) } := by
  simp only [ruleETail, hrd, hl, hlt, hwr, hcap, hscratch, State.memWrite_lanes s _ hstore, orFault_some, ↓reduceIte]

/-- R150: the padding is stored at `WR` and counted in `DST_LEN`. -/
theorem ruleEFinal_eq {s : State} {wr cap : Nat} {pads : List Byte} (hwr : s.wr = some wr) (hcap : s.cap = some cap)
    (hpads : padding (wr % 4) = some pads) (hstore : wr + pads.length ≤ cap) :
    ruleEFinal s = .next (State.complete
      { s with outBuf := s.outBuf.writeBytes wr pads, dstLen := some (wr + pads.length) } false) := by
  simp only [ruleEFinal, hwr, hcap, hpads, State.memWrite_eq_some.mpr ⟨hstore, rfl⟩, orFault_some]

/-- Where `E_CHECK` leaves the command (R136). -/
theorem encodeAt_start {s : State} {l : Nat} (hop : s.op = some 0#3) (hl : s.len = some l) (hpos : 1 ≤ l)
    (hin : l ≤ s.params.inMax) (hout : encLen l + 16 ≤ s.params.outMax) :
    EncodeAt { s with
      cap := some (encLen l + 16), rd := some 0, wr := some 0, fend := some (fastEnd l), phase := .eFast } l 0 where
  op := hop
  len := hl
  fend := rfl
  cap := rfl
  rd := rfl
  wr := rfl
  pos := hpos
  inFits := hin
  outFits := hout
  within := Nat.zero_le l
  cut := .inl rfl
  text := fun a ha => absurd ha (by simp)

/-- The store of a chunk at `WR` is within `CAP` (R56). -/
theorem EncodeAt.store_le {s : State} {l r : Nat} (h : EncodeAt s l r) : encLen r + 16 ≤ encLen l + 16 :=
  Nat.add_le_add_right (encLen_le_encLen h.within) 16

/-- R142: one fast iteration, its window in `IN`, consumes twelve bytes. -/
theorem EncodeAt.fast_iteration {s : State} {l r : Nat} {v : Lanes} (h : EncodeAt s l r) (hr : r % 12 = 0)
    (hle : r + 16 ≤ l) (hv : s.window r = some v) :
    EncodeAt { s with
      vin := some v, vout := some (encChunk v), outBuf := s.outBuf.writeBytes (encLen r) (encChunk v).toList,
      rd := some (r + 12), wr := some (encLen r + 16) } l (r + 12) :=
  { h with
    rd := rfl
    wr := by rw [encLen_add_twelve]
    within := by omega
    cut := .inl (by omega)
    text := by
      obtain ⟨-, hreal⟩ := State.window_eq_some.mp hv
      exact text_extends (by omega) (Nat.le_refl 12)
        (window_lane_eq_rawByte (fun i hi _ => hreal i hi) fun i _ h12 hk => absurd h12 (by omega)) h.text }

/-- R147: one tail iteration consumes twelve bytes or all that remain. -/
theorem EncodeAt.tail_iteration {s : State} {l r : Nat} {v : Lanes} (h : EncodeAt s l r) (hlt : r < l)
    (hv : s.scratch r (min 12 (l - r)) Config.encFill = some v) :
    EncodeAt { s with
      scr := some v, vin := some v, vout := some (encChunk v),
      outBuf := s.outBuf.writeBytes (encLen r) (encChunk v).toList,
      rd := some (r + min 12 (l - r)), wr := some (encLen r + encLen (min 12 (l - r))) } l (r + min 12 (l - r)) :=
  have hr : r % 12 = 0 := h.cut.resolve_right (by omega)
  have ⟨_, hreal, hfill⟩ := (State.scratch_eq_some (by omega)).mp hv
  { h with
    rd := rfl
    wr := by rw [encLen_add r _ (by omega)]
    within := by omega
    cut := by omega
    text := text_extends (by omega) (by omega)
      (window_lane_eq_rawByte hreal fun i hi _ hk => hfill i hi hk) h.text }

/-- R177, R136: acceptance and the check. -/
theorem run_eCheck {s : State} {l : Nat} (hh : s.host = [.access (.writeReg 0 (encode .encode).toNat)])
    (hb : s.busy = false) (hl : s.srcLen = some l) (hpos : 1 ≤ l) (hin : l ≤ s.params.inMax)
    (hout : encLen l + 16 ≤ s.params.outMax) :
    ∃ t, Host.Core.run Sys2Proof.core 2 s = .next t ∧ RunsFrom s .eFast t ∧ EncodeAt t l 0 := by
  have ha := accepted_runsFrom s .encode
  have hcheck := (ha.step_eq (.eCheck ha.phase)).trans (ruleECheck_passes (l := l) hl hpos hin hout)
  exact ⟨_, (run_next 1 (step_accepts hh hb hl)).trans (run_next 0 hcheck), { ha with phase := rfl },
    encodeAt_start rfl hl hpos hin hout⟩

section
variable {s₀ : State} {l : Nat} (hload : Loaded s₀.inBuf l)
include hload

/-- R140, R141: the fast loop runs to `FEND`, `j` iterations and the exit. -/
theorem run_eFast (j : Nat) {s : State} {r : Nat} (hs : RunsFrom s₀ .eFast s) (h : EncodeAt s l r) (hr : r % 12 = 0)
    (hj : r + 12 * j = fastEnd l) :
    ∃ t, Host.Core.run Sys2Proof.core (j + 1) s = .next t ∧ RunsFrom s₀ .eTail t ∧ EncodeAt t l (fastEnd l) := by
  induction j generalizing s r with
  | zero =>
    obtain rfl : r = fastEnd l := by omega
    have hstep := (hs.step_eq (.eFast hs.phase)).trans (ruleEFast_exit h.rd h.fend (Nat.le_refl _))
    exact ⟨_, run_next 0 hstep, { hs with phase := rfl }, { h with }⟩
  | succ j ih =>
    have hpos := fastEnd_add_four_le (l := l) (by omega)
    obtain ⟨v, hv⟩ : ∃ v, s.window r = some v :=
      State.window_isSome (Nat.le_trans (by omega) h.inFits) fun i hi => hs.inBuf ▸ hload (r + i) (by omega)
    have hstep := (hs.step_eq (.eFast hs.phase)).trans
      (ruleEFast_iteration h.rd h.fend (by omega) h.wr h.cap h.store_le hv)
    rw [run_next (j + 1) hstep]
    exact ih { hs with } (h.fast_iteration hr (by omega) hv) (by omega) (by omega)

/-- R145, R146: the tail loop runs to the end of the input, `j` iterations and the exit. -/
theorem run_eTail (j : Nat) {s : State} {r : Nat} (hs : RunsFrom s₀ .eTail s) (h : EncodeAt s l r)
    (hend : l ≤ r + 12 * j) (hj : r + 12 * j < l + 12) :
    ∃ t, Host.Core.run Sys2Proof.core (j + 1) s = .next t ∧ RunsFrom s₀ .eFinal t ∧ EncodeAt t l l := by
  induction j generalizing s r with
  | zero =>
    obtain rfl : r = l := Nat.le_antisymm h.within hend
    have hstep := (hs.step_eq (.eTail hs.phase)).trans (ruleETail_exit h.rd h.len (Nat.le_refl _))
    exact ⟨_, run_next 0 hstep, { hs with phase := rfl }, { h with }⟩
  | succ j ih =>
    have hlt : r < l := by omega
    obtain ⟨v, hv⟩ : ∃ v, s.scratch r (min 12 (l - r)) Config.encFill = some v :=
      State.scratch_isSome _ (Nat.le_trans (by omega) h.inFits) fun i hi => hs.inBuf ▸ hload (r + i) (by omega)
    have hstep := (hs.step_eq (.eTail hs.phase)).trans
      (ruleETail_iteration h.rd h.len hlt h.wr h.cap h.store_le hv)
    rw [run_next (j + 1) hstep]
    exact ih { hs with } (h.tail_iteration hlt hv) (by omega) (by omega)

end

/-- R150, R152: the final step completes the text with its padding. -/
theorem step_eFinal {s₀ s : State} {l : Nat} (hs : RunsFrom s₀ .eFinal s) (h : EncodeAt s l l) :
    ∃ t, step s = .next t ∧ t.status = 0x02#8 ∧ t.dstLen = some (4 * ((l + 2) / 3)) ∧
      (∀ a < 4 * ((l + 2) / 3), t.outBuf.read a = some (paddedText s₀.inBuf l a)) ∧
      t.inBuf = s₀.inBuf ∧ t.srcLen = s₀.srcLen := by
  have hlen : encLen l + (4 * ((l + 2) / 3) - encLen l) = 4 * ((l + 2) / 3) := by rw [encLen_eq]; omega
  have hstore : encLen l + (4 * ((l + 2) / 3) - encLen l) ≤ encLen l + 16 := by rw [encLen_eq]; omega
  refine ⟨_, (hs.step_eq (.eFinal hs.phase)).trans
    (ruleEFinal_eq h.wr h.cap (padding_encLen l) (by rwa [List.length_replicate])), rfl, ?_, fun a ha => ?_,
    hs.inBuf, hs.srcLen⟩
  · rw [State.complete_dstLen, List.length_replicate, hlen]
  · rw [State.complete_outBuf, Memory.read_writeBytes, List.length_replicate, hlen, ← hs.inBuf]
    by_cases hlt : a < encLen l
    · rw [if_neg (by omega), h.text a hlt, paddedText_of_lt hlt]
    · rw [if_pos ⟨by omega, ha⟩, List.getElem?_replicate, if_pos (by omega), paddedText_of_le (by omega) ha]

/-- R152, R153: `ENCODE` from the write of its word: the number of steps, and the padded text they leave. -/
theorem run_encode {s : State} {l : Nat} (hh : s.host = [.access (.writeReg 0 (encode .encode).toNat)])
    (hb : s.busy = false) (hl : s.srcLen = some l) (hpos : 1 ≤ l) (hin : l ≤ s.params.inMax)
    (hout : encLen l + 16 ≤ s.params.outMax) (hload : Loaded s.inBuf l) :
    ∃ t, Host.Core.run Sys2Proof.core (fastEnd l / 12 + (if l - fastEnd l ≤ 12 then 1 else 2) + 5) s = .next t ∧
      t.status = 0x02#8 ∧ t.dstLen = some (4 * ((l + 2) / 3)) ∧
      (∀ a < 4 * ((l + 2) / 3), t.outBuf.read a = some (paddedText s.inBuf l a)) ∧
      t.inBuf = s.inBuf ∧ t.srcLen = s.srcLen := by
  have hmod := fastEnd_mod_twelve l
  have htail := sub_fastEnd_le_fifteen l
  have hlt := fastEnd_lt hpos
  obtain ⟨t₀, hrun₀, hs₀, h₀⟩ := run_eCheck hh hb hl hpos hin hout
  obtain ⟨t₁, hrun₁, hs₁, h₁⟩ := run_eFast hload (fastEnd l / 12) hs₀ h₀ rfl (by omega)
  obtain ⟨t₂, hrun₂, hs₂, h₂⟩ := run_eTail hload (if l - fastEnd l ≤ 12 then 1 else 2) hs₁ h₁
    (by split <;> omega) (by split <;> omega)
  obtain ⟨t, hstep, ht⟩ := step_eFinal hs₂ h₂
  refine ⟨t, ?_, ht⟩
  have hsteps : fastEnd l / 12 + (if l - fastEnd l ≤ 12 then 1 else 2) + 5 =
      2 + (fastEnd l / 12 + 1 + ((if l - fastEnd l ≤ 12 then 1 else 2) + 1 + (0 + 1))) := by omega
  rw [hsteps, run_add _ hrun₀, run_add _ hrun₁, run_add _ hrun₂, run_next 0 hstep]
  rfl

end Sys2Proof.Machine

/-! PROOFS. `DECODE` from the write of its word to `D_FINAL`: what stripping removes, each rule keeps `DecodeAt`, the
loop and the tail run to the end of the payload (44_stream_decode.md R157, R162, R166, R174). -/

namespace Sys2Proof.Machine

/-- R157, for an input of two bytes or more: the last two of them decide. -/
theorem State.stripLen_add_two {s : State} {l : Nat} {b c : Byte} (hin : l + 2 ≤ s.params.inMax)
    (hb : s.inBuf.read l = some b) (hc : s.inBuf.read (l + 1) = some c) :
    s.stripLen (l + 2) =
      some (if b = Config.pad ∧ c = Config.pad then l else if c = Config.pad then l + 1 else l + 2) := by
  have hread : s.memRead l 2 = some [b, c] := by
    simp [State.memRead, hin, Memory.readBytes, hb, hc]
  simp [State.stripLen, hread]

/-- R157: stripping takes off one or two `'='` that follow a payload of two characters or more, and nothing where
none follows. -/
theorem State.stripLen_of_pads {s : State} {n k : Nat} (hn : 2 ≤ n) (hk : k ≤ 2) (hin : n + k ≤ s.params.inMax)
    (hsymbols : ∀ i < n, ∃ b, s.inBuf.read i = some b ∧ b ≠ Config.pad)
    (hpads : ∀ i < k, s.inBuf.read (n + i) = some Config.pad) : s.stripLen (n + k) = some n := by
  obtain ⟨m, rfl⟩ := Nat.exists_eq_add_of_le' hn
  obtain ⟨b, hb, -⟩ := hsymbols m (by omega)
  obtain ⟨c, hc, hcpad⟩ := hsymbols (m + 1) (by omega)
  obtain rfl | rfl | rfl : k = 0 ∨ k = 1 ∨ k = 2 := by omega
  · rw [Nat.add_zero, State.stripLen_add_two hin hb hc, if_neg (fun h => hcpad h.2), if_neg hcpad]
  · rw [State.stripLen_add_two (l := m + 1) hin hc (hpads 0 (by decide)), if_neg (fun h => hcpad h.1), if_pos rfl]
  · rw [State.stripLen_add_two hin (hpads 0 (by decide)) (hpads 1 (by decide)), if_pos ⟨rfl, rfl⟩]

/-- R165: on the 1 to 15 characters that remain, with the scratch window in place and the store admitted, `D_TAIL`
decodes it. -/
theorem ruleDTail_chunk {s : State} {rd n wr cap d : Nat} {v : Lanes} (hrd : s.rd = some rd) (hn : s.slen = some n)
    (hlt : rd < n) (hle : n - rd ≤ 15) (hwr : s.wr = some wr) (hcap : s.cap = some cap) (hstore : wr + 16 ≤ cap)
    (hd : decLen (n - rd) = some d) (hscratch : s.scratch rd (n - rd) Config.decFill = some v) :
    ruleDTail s = .next { s with
      scr := some v, vin := some v, vout := some (decChunk s.params v),
      outBuf := s.outBuf.writeBytes wr (decChunk s.params v).toList, err := stickyErr s.err (chunkFlag v),
      rd := some (rd + (n - rd)), wr := some (wr + d), phase := .dFinal } := by
  simp only [ruleDTail, hrd, hn, Nat.ne_of_lt hlt, hlt, hle, and_self, hwr, hcap, hd, hscratch,
    State.memWrite_lanes s _ hstore, orFault_some, ↓reduceIte]

/-- Where `D_TRIM` leaves the command (R156). -/
theorem decodeAt_start {s : State} {l n d : Nat} (hop : s.op = some 1#3) (hl : s.len = some l)
    (hin : l ≤ s.params.inMax) (hn : s.stripLen l = some n) (hpos : 1 ≤ n) (hd : decLen n = some d)
    (hout : d + 16 ≤ s.params.outMax) :
    DecodeAt { s with
      slen := some n, cap := some (d + 16), rd := some 0, wr := some 0, err := false, phase := .dFast } l n 0 where
  op := hop
  len := hl
  slen := rfl
  strip := (State.stripLen_congr rfl rfl l).trans hn
  cap := ⟨d, hd, rfl, hout⟩
  rd := rfl
  wr := rfl
  pos := hpos
  residue := (decLen_eq_some.mp hd).1
  inFits := hin
  within := Nat.zero_le n
  cut := .inl rfl
  sticky := ⟨fun h => absurd h Bool.false_ne_true, fun ⟨_, hi, _⟩ => absurd hi (Nat.not_lt_zero _)⟩
  data := by
    intro w hw a ha
    obtain rfl := Option.some.inj (decLen_zero.symm.trans hw)
    exact absurd ha (Nat.not_lt_zero a)

/-- The payload lies in the input. -/
theorem DecodeAt.payload_le {s : State} {l n r : Nat} (h : DecodeAt s l n r) : n ≤ s.params.inMax :=
  Nat.le_trans (State.stripLen_le h.strip).1 h.inFits

/-- At a cut the write cursor holds `DecLen`, and the store of a chunk there is within `CAP` (R56). -/
theorem DecodeAt.store_le {s : State} {l n r : Nat} (h : DecodeAt s l n r) (hr : r % 4 ≠ 1) :
    ∃ w cap, decLen r = some w ∧ s.wr = some w ∧ s.cap = some cap ∧ w + 16 ≤ cap := by
  obtain ⟨d, hd, hcap, -⟩ := h.cap
  obtain ⟨w, hw⟩ := decLen_isSome hr
  exact ⟨w, d + 16, hw, h.wr.trans hw, hcap, Nat.add_le_add_right (decLen_le_decLen hw hd h.within) 16⟩

/-- The sticky flag over one more window of `k` characters and legal fill (R25). -/
theorem DecodeAt.sticky_add {s : State} {l n r k : Nat} {v : Lanes} (h : DecodeAt s l n r) (hk : k ≤ 16)
    (hreal : ∀ i (_ : i < 16), i < k → s.inBuf.read (r + i) = some v[i])
    (hfill : ∀ i (_ : i < 16), k ≤ i → v[i] = Config.decFill) :
    stickyErr s.err (chunkFlag v) = true ↔ SomeIllegal s.inBuf (r + k) := by
  rw [stickyErr, Bool.or_eq_true, h.sticky, someIllegal_add_iff hk hreal hfill]

/-- The data over one more window of `k` characters and fill. -/
theorem DecodeAt.data_add {s : State} {l n r k w : Nat} {v : Lanes} (h : DecodeAt s l n r) (hr : r % 4 = 0)
    (hk : k ≤ 16) (hw : decLen r = some w) (hreal : ∀ i (_ : i < 16), i < k → s.inBuf.read (r + i) = some v[i])
    (hfill : ∀ i (_ : i < 16), k ≤ i → v[i] = Config.decFill) :
    ∀ e, decLen (r + k) = some e → ∀ a < e, (s.outBuf.writeBytes w (decChunk s.params v).toList).read a =
      some (dataByte s.params s.inBuf (r + k) a) :=
  fun _ he => data_extends hr hk hw he (window_laneValue_eq_payloadValue _ hreal hfill) (h.data w hw)

/-- R162: one fast iteration, its window in `IN`, consumes sixteen characters. -/
theorem DecodeAt.fast_iteration {s : State} {l n r w : Nat} {v : Lanes} (h : DecodeAt s l n r) (hr : r % 16 = 0)
    (hle : r + 16 ≤ n) (hw : decLen r = some w) (hv : s.window r = some v) :
    DecodeAt { s with
      vin := some v, vout := some (decChunk s.params v),
      outBuf := s.outBuf.writeBytes w (decChunk s.params v).toList, err := stickyErr s.err (chunkFlag v),
      rd := some (r + 16), wr := some (w + 12) } l n (r + 16) :=
  have ⟨_, hlanes⟩ := State.window_eq_some.mp hv
  have hreal : ∀ i (_ : i < 16), i < 16 → s.inBuf.read (r + i) = some v[i] := fun i hi _ => hlanes i hi
  have hfill : ∀ i (_ : i < 16), 16 ≤ i → v[i] = Config.decFill := fun i hi hk => absurd hi (Nat.not_lt_of_le hk)
  { h with
    strip := (State.stripLen_congr rfl rfl l).trans h.strip
    rd := rfl
    wr := (decLen_add (by omega) hw rfl).symm
    within := hle
    cut := .inl (by omega)
    sticky := h.sticky_add (Nat.le_refl 16) hreal hfill
    data := h.data_add (by omega) (Nat.le_refl 16) hw hreal hfill }

/-- R166: the tail chunk consumes all that remains. -/
theorem DecodeAt.tail_chunk {s : State} {l n r w d : Nat} {v : Lanes} (h : DecodeAt s l n r) (hr : r % 16 = 0)
    (hle : n - r ≤ 15) (hw : decLen r = some w) (hd : decLen (n - r) = some d)
    (hv : s.scratch r (n - r) Config.decFill = some v) :
    DecodeAt { s with
      scr := some v, vin := some v, vout := some (decChunk s.params v),
      outBuf := s.outBuf.writeBytes w (decChunk s.params v).toList, err := stickyErr s.err (chunkFlag v),
      rd := some (r + (n - r)), wr := some (w + d), phase := .dFinal } l n (r + (n - r)) :=
  have hk : n - r ≤ 16 := Nat.le_succ_of_le hle
  have ⟨_, hreal, hfill⟩ := (State.scratch_eq_some hk).mp hv
  { h with
    strip := (State.stripLen_congr rfl rfl l).trans h.strip
    rd := rfl
    wr := (decLen_add (by omega) hw hd).symm
    within := Nat.le_of_eq (Nat.add_sub_cancel' h.within)
    cut := .inr (Nat.add_sub_cancel' h.within)
    sticky := h.sticky_add hk hreal hfill
    data := h.data_add (by omega) hk hw hreal hfill }

/-- A change of phase moves no cursor. -/
theorem DecodeAt.with_phase {s : State} {l n r : Nat} (h : DecodeAt s l n r) (ph : Phase) :
    DecodeAt { s with phase := ph } l n r :=
  { h with strip := (State.stripLen_congr rfl rfl l).trans h.strip }

/-- R177, R156: acceptance and a `D_TRIM` that passes. -/
theorem run_dTrim {s : State} {l n d : Nat} (hh : s.host = [.access (.writeReg 0 (encode .decode).toNat)])
    (hb : s.busy = false) (hl : s.srcLen = some l) (hin : l ≤ s.params.inMax) (hn : s.stripLen l = some n)
    (hpos : 1 ≤ n) (hd : decLen n = some d) (hout : d + 16 ≤ s.params.outMax) :
    ∃ t, Host.Core.run Sys2Proof.core 2 s = .next t ∧ RunsFrom s .dFast t ∧ DecodeAt t l n 0 := by
  have ha := accepted_runsFrom s .decode
  have hstrip : (State.accepted { s with host := [] } .decode).stripLen l = some n :=
    (State.stripLen_congr rfl rfl l).trans hn
  have htrim := (ha.step_eq (.dTrim ha.phase)).trans
    (ruleDTrim_passes (l := l) hl hin hstrip (Nat.ne_of_gt hpos) hd hout)
  exact ⟨_, (run_next 1 (step_accepts hh hb hl)).trans (run_next 0 htrim), { ha with phase := rfl },
    decodeAt_start rfl hl hin hstrip hpos hd hout⟩

section
variable {s₀ : State} {l n : Nat} (hload : Loaded s₀.inBuf n)
include hload

/-- R160, R161: the loop runs while a whole window of payload is left, `j` iterations and the exit. -/
theorem run_dFast (j : Nat) {s : State} {r : Nat} (hs : RunsFrom s₀ .dFast s) (h : DecodeAt s l n r) (hr : r % 16 = 0)
    (hj : r + 16 * j = 16 * (n / 16)) :
    ∃ t, Host.Core.run Sys2Proof.core (j + 1) s = .next t ∧ RunsFrom s₀ .dTail t ∧ DecodeAt t l n (16 * (n / 16)) := by
  induction j generalizing s r with
  | zero =>
    obtain rfl : r = 16 * (n / 16) := by omega
    have hstep := (hs.step_eq (.dFast hs.phase)).trans (ruleDFast_exit h.rd h.slen (by omega))
    exact ⟨_, run_next 0 hstep, { hs with phase := rfl }, h.with_phase _⟩
  | succ j ih =>
    obtain ⟨w, cap, hw, hwr, hcap, hstore⟩ := h.store_le (by omega)
    obtain ⟨v, hv⟩ : ∃ v, s.window r = some v :=
      State.window_isSome (Nat.le_trans (by omega) h.payload_le) fun i hi => hs.inBuf ▸ hload (r + i) (by omega)
    have hstep := (hs.step_eq (.dFast hs.phase)).trans
      (ruleDFast_iteration h.rd h.slen (by omega) hwr hcap hstore hv)
    rw [run_next (j + 1) hstep]
    exact ih { hs with } (h.fast_iteration hr (by omega) hw hv) (by omega) (by omega)

/-- R164, R165: one step takes the characters that remain, if any. -/
theorem step_dTail {s : State} (hs : RunsFrom s₀ .dTail s) (h : DecodeAt s l n (16 * (n / 16))) :
    ∃ t, step s = .next t ∧ RunsFrom s₀ .dFinal t ∧ DecodeAt t l n n := by
  by_cases hempty : 16 * (n / 16) = n
  · rw [hempty] at h
    exact ⟨_, (hs.step_eq (.dTail hs.phase)).trans (ruleDTail_empty h.rd h.slen), { hs with phase := rfl },
      h.with_phase _⟩
  · have hresidue := h.residue
    have hend : 16 * (n / 16) + (n - 16 * (n / 16)) = n := by omega
    obtain ⟨w, cap, hw, hwr, hcap, hstore⟩ := h.store_le (by omega)
    obtain ⟨d, hd⟩ : ∃ d, decLen (n - 16 * (n / 16)) = some d := decLen_isSome (by omega)
    obtain ⟨v, hv⟩ : ∃ v, s.scratch (16 * (n / 16)) (n - 16 * (n / 16)) Config.decFill = some v :=
      State.scratch_isSome _ (Nat.le_trans (by omega) h.payload_le) fun i hi => hs.inBuf ▸ hload _ (by omega)
    have hlast := h.tail_chunk (by omega) (by omega) hw hd hv
    rw [hend] at hlast
    refine ⟨_, (hs.step_eq (.dTail hs.phase)).trans
      (ruleDTail_chunk h.rd h.slen (by omega) (by omega) hwr hcap hstore hd hv), { hs with phase := rfl }, ?_⟩
    rwa [hend]

/-- R174: `DECODE` of a payload that passes `D_TRIM` comes to its verdict, whatever the payload's bytes are. -/
theorem run_decode_to_dFinal {d : Nat} (hh : s₀.host = [.access (.writeReg 0 (encode .decode).toNat)])
    (hb : s₀.busy = false) (hl : s₀.srcLen = some l) (hin : l ≤ s₀.params.inMax) (hn : s₀.stripLen l = some n)
    (hpos : 1 ≤ n) (hd : decLen n = some d) (hout : d + 16 ≤ s₀.params.outMax) :
    ∃ t, Host.Core.run Sys2Proof.core (n / 16 + 4) s₀ = .next t ∧ RunsFrom s₀ .dFinal t ∧ DecodeAt t l n n := by
  obtain ⟨t₀, hrun₀, hs₀, h₀⟩ := run_dTrim hh hb hl hin hn hpos hd hout
  obtain ⟨t₁, hrun₁, hs₁, h₁⟩ := run_dFast hload (n / 16) hs₀ h₀ rfl (Nat.zero_add _)
  obtain ⟨t, hstep, ht⟩ := step_dTail hload hs₁ h₁
  have hsteps : n / 16 + 4 = 2 + (n / 16 + 1 + (0 + 1)) := by omega
  rw [hsteps, run_add _ hrun₀, run_add _ hrun₁, run_next 0 hstep]
  exact ⟨t, rfl, ht⟩

/-- R169, R174: `DECODE` of a payload of legal bytes, not empty, from the write of its word. -/
theorem run_decode {d : Nat} (hh : s₀.host = [.access (.writeReg 0 (encode .decode).toNat)]) (hb : s₀.busy = false)
    (hl : s₀.srcLen = some l) (hin : l ≤ s₀.params.inMax) (hn : s₀.stripLen l = some n) (hpos : 1 ≤ n)
    (hd : decLen n = some d) (hout : d + 16 ≤ s₀.params.outMax) (hlegal : ¬ SomeIllegal s₀.inBuf n) :
    ∃ t, Host.Core.run Sys2Proof.core (n / 16 + 5) s₀ = .next t ∧ t.status = 0x02#8 ∧ t.dstLen = some d ∧
      (∀ a < d, t.outBuf.read a = some (dataByte s₀.params s₀.inBuf n a)) ∧ t.inBuf = s₀.inBuf ∧
      t.srcLen = s₀.srcLen := by
  obtain ⟨t, hrun, hs, h⟩ := run_decode_to_dFinal hload hh hb hl hin hn hpos hd hout
  have herr : t.err = false := Bool.eq_false_iff.mpr fun he => hlegal (hs.inBuf ▸ h.sticky.mp he)
  have hstep := (hs.step_eq (.dFinal hs.phase)).trans (ruleDFinal_of_ok herr (h.wr.trans hd))
  refine ⟨_, (run_add 1 hrun).trans (run_next 0 hstep), rfl, rfl, fun a ha => ?_, hs.inBuf, hs.srcLen⟩
  rw [State.complete_outBuf, ← hs.inBuf, ← hs.params]
  exact h.data d hd a ha

end

/-- R157 on the text of `l` bytes: the symbols are left, whether all, some or none of the padding was given. -/
theorem State.stripLen_of_paddedText {s : State} {m : Memory} {l k : Nat} (hpos : 1 ≤ l)
    (hk : encLen l + k ≤ 4 * ((l + 2) / 3)) (hin : encLen l + k ≤ s.params.inMax)
    (htext : ∀ a < 4 * ((l + 2) / 3), s.inBuf.read a = some (paddedText m l a)) :
    s.stripLen (encLen l + k) = some (encLen l) := by
  have hlen : 2 ≤ encLen l ∧ 4 * ((l + 2) / 3) ≤ encLen l + 2 := by rw [encLen_eq]; omega
  refine State.stripLen_of_pads (by omega) (by omega) hin (fun i hi => ?_) fun i hi => ?_
  · exact ⟨_, by rw [htext i (by omega), paddedText_of_lt hi], textSymbol_ne_pad m l i⟩
  · rw [htext _ (by omega), paddedText_of_le (by omega) (by omega)]

/-- Settles O58: the text that `ENCODE` leaves, its padding stripped or never given, is a payload of symbols that
carries the input's bytes. -/
theorem decodeReturnsWhatEncodeTook : Obligations.DecodeReturnsWhatEncodeTook := by
  intro s l hh hb hl hpos hin hout hload
  obtain ⟨t, hrun, hstatus, hdst, htext, -, -⟩ := run_encode hh hb hl hpos hin hout hload
  refine ⟨_, t, Nat.succ_pos _, hrun, hstatus, fun u d hd hhu hbu hsrc hinu houtu hsame => ?_⟩
  obtain rfl := Option.some.inj (hdst.symm.trans hd)
  have hlen : 1 ≤ encLen l ∧ encLen l ≤ 4 * ((l + 2) / 3) := by rw [encLen_eq]; omega
  have hpadded : ∀ a < 4 * ((l + 2) / 3), u.inBuf.read a = some (paddedText s.inBuf l a) := fun a ha =>
    (hsame a ha).trans (htext a ha)
  have hpayload : ∀ a < encLen l, u.inBuf.read a = some (textSymbol s.inBuf l a) := fun a ha => by
    rw [hpadded a (by omega), paddedText_of_lt ha]
  obtain ⟨k, hk, hsrck⟩ : ∃ k, encLen l + k ≤ 4 * ((l + 2) / 3) ∧ u.srcLen = some (encLen l + k) := by
    obtain full | bare := hsrc
    · exact ⟨4 * ((l + 2) / 3) - encLen l, by omega, by rw [full, Nat.add_sub_cancel' hlen.2]⟩
    · exact ⟨0, hlen.2, bare⟩
  have hink : encLen l + k ≤ u.params.inMax := Nat.le_trans hk hinu
  obtain ⟨v, hrunu, hstatusu, hdstu, hdata, -, -⟩ := run_decode (fun i hi => ⟨_, hpayload i hi⟩) hhu hbu hsrck
    hink (State.stripLen_of_paddedText hpos hk hink hpadded) hlen.1 (decLen_encLen l) houtu
    (not_someIllegal_of_text hpayload)
  refine ⟨_, v, Nat.succ_pos _, hrunu, hstatusu, hdstu, fun i hi => ?_⟩
  obtain ⟨b, hread⟩ := hload i hi
  rw [hdata i hi, dataByte_of_text _ hpayload, rawByte_of_read hi hread, hread]

end Sys2Proof.Machine

/-! PROOFS. Starting a command: acceptance, an illegal word, and a write to `CMD` while a command runs
(45_host_interface.md R177 to R179). -/

namespace Sys2Proof.Machine

/-- R177: all commands but the two chunk commands take `SRC_LEN`. -/
theorem takesLength_eq_true_iff (i : Instr) : takesLength i = true ↔ i ≠ .encchunk ∧ i ≠ .decchunk := by
  cases i <;> decide

/-- R75: the words from 0x06 up are no command's word. -/
theorem decode_isError_of_six_le {w : BitVec 8} (h : 6 ≤ w.toNat) : ∃ e, decode w = .error e := by
  have commandWord_lt_six (i : Instr) : (encode i).toNat < 6 := by cases i <;> decide
  cases hd : decode w with
  | error e => exact ⟨e, rfl⟩
  | ok i =>
    obtain rfl := (decode_eq_ok_iff w i).mp hd
    exact absurd h (Nat.not_le.mpr (commandWord_lt_six i))

/-- R175: data that fits in a word is always admitted to `CMD`. -/
theorem step_writesCmd {s : State} {w : BitVec 8} {rest : List Event}
    (hh : s.host = .access (.writeReg 0 w.toNat) :: rest) : step s = cmdWrite w { s with host := rest } := by
  simp [step, advance, hh, hostAccess, hostReg, writeReg, BitVec.ofNat_toNat, w.isLt]

theorem cmdWrite_of_busy (w : BitVec 8) {s : State} (hb : s.busy = true) : cmdWrite w s = .next s := if_pos hb

theorem cmdWrite_of_illegal {w : BitVec 8} {s : State} (hb : s.busy = false) (hw : 6 ≤ w.toNat) :
    cmdWrite w s = .next s.illegalWord := by
  obtain ⟨e, hdec⟩ := decode_isError_of_six_le hw
  simp [cmdWrite, hb, hdec]

/-- Settles O7: an idle command is accepted or refused, and which of the two is read off `SRC_LEN`. -/
theorem acceptanceStartsTheCommand : Obligations.AcceptanceStartsTheCommand := by
  intro i s hb
  rw [exec_idle i hb, ← and_assoc, ← takesLength_eq_true_iff]
  obtain ⟨haccept, hlen⟩ | ⟨hrefuse, htakes, hnone⟩ := accept_cases i s
  · refine ⟨fun ⟨htakes, hnone⟩ => ?_, fun _ => ?_⟩
    · obtain ⟨n, hsome⟩ := hlen htakes
      exact absurd (hnone.symm.trans hsome) nofun
    · rw [haccept]
      cases i <;> rfl
  · exact ⟨fun _ => hrefuse, fun admitted => absurd ⟨htakes, hnone⟩ admitted⟩

/-- Settles O8: no word from 0x06 up decodes, so the write is that of an illegal word. -/
theorem illegalWordCompletesAtOnce : Obligations.IllegalWordCompletesAtOnce := fun s _ rest hh hb hw => by
  have hidle : State.busy { s with host := rest } = false := hb
  rw [step_writesCmd hh, cmdWrite_of_illegal hidle hw]
  rfl

/-- Settles O9: the write reaches `CMD` and is dropped there, before the word is decoded. -/
theorem commandWriteWhileBusyIsIgnored : Obligations.CommandWriteWhileBusyIsIgnored := fun s w rest hh hb => by
  have hbusy : State.busy { s with host := rest } = true := hb
  rw [step_writesCmd hh, cmdWrite_of_busy w hbusy]

end Sys2Proof.Machine

/-! PROOFS. Ending a command with an error (60_exceptions.md R197). -/

namespace Sys2Proof.Machine

/-- Settles O14: the new state is `raise`'s own; what each of the four codes adds is the value of its status word. -/
theorem raiseEndsTheCommand : Obligations.RaiseEndsTheCommand := by
  intro s e he
  cases e with
  | ok => exact absurd rfl he
  | emptyInput | invalidCharacter | illegalCommand | range => rfl

end Sys2Proof.Machine

/-! PROOFS. What every step of a command keeps and how it moves on: the frame, the transitions of `PHASE`, the values
of `STATUS`, the canonical form (10_state.md R22, R29, R30, R33, R36). -/

namespace Sys2Proof.Machine

/-- What no rule of a running command writes (R20, R24, R29, R33, R36). -/
structure CommandFrame (s t : State) : Prop where
  op : t.op = s.op
  len : t.len = s.len
  inBuf : t.inBuf = s.inBuf
  srcLen : t.srcLen = s.srcLen
  params : t.params = s.params
  host : t.host = s.host
  replies : t.replies = s.replies

theorem Fires.frame {i : Instr} {s t : State} {r : State → Out} (f : Fires i s r) (h : r s = .next t) :
    CommandFrame s t := by
  cases f with
  | eCheck => obtain ⟨_, -, ⟨-, rfl⟩ | ⟨-, -, rfl⟩ | ⟨-, -, -, rfl⟩⟩ := ruleECheck_cases h <;> constructor <;> rfl
  | eFast =>
    obtain ⟨_, _, -, -, ⟨-, rfl⟩ | ⟨-, _, _, _, -, -, -, -, rfl⟩⟩ := ruleEFast_cases h <;> constructor <;> rfl
  | eTail =>
    obtain ⟨_, _, -, -, ⟨-, rfl⟩ | ⟨-, _, _, _, -, -, -, -, rfl⟩⟩ := ruleETail_cases h <;> constructor <;> rfl
  | eFinal => obtain ⟨_, _, _, -, -, -, -, rfl⟩ := ruleEFinal_cases h; constructor <;> rfl
  | dTrim =>
    obtain ⟨_, -, ⟨-, rfl⟩ | ⟨-, _, -, ⟨-, rfl⟩ | ⟨-, rfl⟩ | ⟨-, -, _, -, ⟨-, rfl⟩ | ⟨-, rfl⟩⟩⟩⟩ :=
      ruleDTrim_cases h <;> constructor <;> rfl
  | dFast =>
    obtain ⟨_, _, -, -, ⟨-, rfl⟩ | ⟨-, _, _, _, -, -, -, -, rfl⟩⟩ := ruleDFast_cases h <;> constructor <;> rfl
  | dTail =>
    obtain ⟨_, _, -, -, ⟨-, rfl⟩ | ⟨-, -, _, _, _, _, -, -, -, -, -, rfl⟩⟩ := ruleDTail_cases h <;>
      constructor <;> rfl
  | dFinal => obtain ⟨-, rfl⟩ | ⟨-, _, -, rfl⟩ := ruleDFinal_cases h <;> constructor <;> rfl
  | encchunk => obtain ⟨-, rfl⟩ | ⟨-, _, -, rfl⟩ := ruleEncchunk_cases h <;> constructor <;> rfl
  | decchunk => obtain ⟨-, rfl⟩ | ⟨-, _, -, rfl⟩ := ruleDecchunk_cases h <;> constructor <;> rfl
  | enclen => obtain ⟨_, -, ⟨-, rfl⟩ | ⟨-, rfl⟩⟩ := ruleEnclen_cases h <;> constructor <;> rfl
  | declen => obtain ⟨_, -, ⟨-, rfl⟩ | ⟨_, -, rfl⟩⟩ := ruleDeclen_cases h <;> constructor <;> rfl

/-- Settles O43: acceptance writes none of these fields, nor does a rule, and an ignored request changes nothing. -/
theorem commandsLeaveInputAndLengthAlone : Obligations.CommandsLeaveInputAndLengthAlone := by
  intro i s t h
  obtain ⟨-, rfl, -⟩ | ⟨-, r, hf, hr⟩ | ⟨-, rfl⟩ := exec_cases h
  · exact ⟨rfl, rfl, rfl, rfl, rfl⟩
  · have hkept := hf.frame hr
    exact ⟨hkept.inBuf, hkept.srcLen, hkept.params, hkept.host, hkept.replies⟩
  · exact ⟨rfl, rfl, rfl, rfl, rfl⟩

/-- The transitions of `PHASE` by which a command goes on (R22). -/
def movesOn : List (Phase × Phase) :=
  [(.eCheck, .eFast), (.eFast, .eFast), (.eFast, .eTail), (.eTail, .eTail), (.eTail, .eFinal), (.dTrim, .dFast),
    (.dFast, .dFast), (.dFast, .dTail), (.dTail, .dFinal)]

/-- The phases in which a command can end (R22). -/
def endingPhases : List Phase := [.eCheck, .eFinal, .dTrim, .dFinal, .uExec]

/-- A rule by which the command goes on. -/
structure GoesOn (s t : State) : Prop where
  phase : (s.phase, t.phase) ∈ movesOn
  status : t.status = s.status
  dstLen : t.dstLen = s.dstLen

/-- A rule by which the command ends, with `raise` or `complete OK` (60_exceptions.md R197, R198). -/
structure Ends (s t : State) : Prop where
  start : s.phase ∈ endingPhases
  phase : t.phase = .idle
  status : ∃ e c, t.status = statusEnded e c ∧ (c = true → e = .ok ∧ s.op = some 3#3)

theorem goesOn_of_phases {s t : State} {p q : Phase} (hs : s.phase = p) (ht : t.phase = q) (hm : (p, q) ∈ movesOn)
    (hst : t.status = s.status) (hd : t.dstLen = s.dstLen) : GoesOn s t :=
  ⟨by rwa [hs, ht], hst, hd⟩

theorem ends_raise {s u : State} {p : Phase} (hs : s.phase = p) (hm : p ∈ endingPhases) (e : ErrCode) :
    Ends s (u.raise e) :=
  ⟨hs ▸ hm, rfl, e, false, rfl, nofun⟩

theorem ends_complete {s u : State} {p : Phase} (hs : s.phase = p) (hm : p ∈ endingPhases) {c : Bool}
    (hc : c = true → s.op = some 3#3) : Ends s (u.complete c) :=
  ⟨hs ▸ hm, rfl, .ok, c, rfl, fun h => ⟨rfl, hc h⟩⟩

/-- Each rule either moves the command on or ends it. -/
theorem Fires.goesOn_or_ends {i : Instr} {s t : State} {r : State → Out} (f : Fires i s r) (h : r s = .next t) :
    GoesOn s t ∨ Ends s t := by
  cases f with
  | eCheck hp =>
    obtain ⟨_, -, ⟨-, rfl⟩ | ⟨-, -, rfl⟩ | ⟨-, -, -, rfl⟩⟩ := ruleECheck_cases h
    · exact .inr (ends_raise hp (by decide) _)
    · exact .inr (ends_raise hp (by decide) _)
    · exact .inl (goesOn_of_phases (q := .eFast) hp rfl (by decide) rfl rfl)
  | eFast hp =>
    obtain ⟨_, _, -, -, ⟨-, rfl⟩ | ⟨-, _, _, _, -, -, -, -, rfl⟩⟩ := ruleEFast_cases h
    · exact .inl (goesOn_of_phases (q := .eTail) hp rfl (by decide) rfl rfl)
    · exact .inl (goesOn_of_phases hp hp (by decide) rfl rfl)
  | eTail hp =>
    obtain ⟨_, _, -, -, ⟨-, rfl⟩ | ⟨-, _, _, _, -, -, -, -, rfl⟩⟩ := ruleETail_cases h
    · exact .inl (goesOn_of_phases (q := .eFinal) hp rfl (by decide) rfl rfl)
    · exact .inl (goesOn_of_phases hp hp (by decide) rfl rfl)
  | eFinal hp =>
    obtain ⟨_, _, _, -, -, -, -, rfl⟩ := ruleEFinal_cases h
    exact .inr (ends_complete hp (by decide) nofun)
  | dTrim hp =>
    obtain ⟨_, -, ⟨-, rfl⟩ | ⟨-, _, -, ⟨-, rfl⟩ | ⟨-, rfl⟩ | ⟨-, -, _, -, ⟨-, rfl⟩ | ⟨-, rfl⟩⟩⟩⟩ := ruleDTrim_cases h
    · exact .inr (ends_raise hp (by decide) _)
    · exact .inr (ends_complete hp (by decide) nofun)
    · exact .inr (ends_raise hp (by decide) _)
    · exact .inr (ends_raise hp (by decide) _)
    · exact .inl (goesOn_of_phases (q := .dFast) hp rfl (by decide) rfl rfl)
  | dFast hp =>
    obtain ⟨_, _, -, -, ⟨-, rfl⟩ | ⟨-, _, _, _, -, -, -, -, rfl⟩⟩ := ruleDFast_cases h
    · exact .inl (goesOn_of_phases (q := .dTail) hp rfl (by decide) rfl rfl)
    · exact .inl (goesOn_of_phases hp hp (by decide) rfl rfl)
  | dTail hp =>
    obtain ⟨_, _, -, -, ⟨-, rfl⟩ | ⟨-, -, _, _, _, _, -, -, -, -, -, rfl⟩⟩ := ruleDTail_cases h
    · exact .inl (goesOn_of_phases (q := .dFinal) hp rfl (by decide) rfl rfl)
    · exact .inl (goesOn_of_phases (q := .dFinal) hp rfl (by decide) rfl rfl)
  | dFinal hp =>
    obtain ⟨-, rfl⟩ | ⟨-, _, -, rfl⟩ := ruleDFinal_cases h
    · exact .inr (ends_raise hp (by decide) _)
    · exact .inr (ends_complete hp (by decide) nofun)
  | encchunk hp =>
    obtain ⟨-, rfl⟩ | ⟨-, _, -, rfl⟩ := ruleEncchunk_cases h
    · exact .inr (ends_raise hp (by decide) _)
    · exact .inr (ends_complete hp (by decide) nofun)
  | decchunk hp ho =>
    obtain ⟨-, rfl⟩ | ⟨-, _, -, rfl⟩ := ruleDecchunk_cases h
    · exact .inr (ends_raise hp (by decide) _)
    · exact .inr (ends_complete hp (by decide) fun _ => ho)
  | enclen hp =>
    obtain ⟨_, -, ⟨-, rfl⟩ | ⟨-, rfl⟩⟩ := ruleEnclen_cases h
    · exact .inr (ends_raise hp (by decide) _)
    · exact .inr (ends_complete hp (by decide) nofun)
  | declen hp =>
    obtain ⟨_, -, ⟨-, rfl⟩ | ⟨_, -, rfl⟩⟩ := ruleDeclen_cases h
    · exact .inr (ends_raise hp (by decide) _)
    · exact .inr (ends_complete hp (by decide) nofun)

theorem GoesOn.phase_ne_idle {s t : State} (h : GoesOn s t) : s.phase ≠ .idle ∧ t.phase ≠ .idle := by
  have all : ∀ x ∈ movesOn, x.1 ≠ .idle ∧ x.2 ≠ .idle := by decide
  exact all _ h.phase

theorem Ends.busy_eq {s t : State} (h : Ends s t) : t.busy = false := by
  obtain ⟨e, c, hst, -⟩ := h.status
  rw [State.busy, hst, statusEnded_busy]

theorem Ends.done_eq {s t : State} (h : Ends s t) : t.done = true := by
  obtain ⟨e, c, hst, -⟩ := h.status
  rw [State.done, hst, statusEnded_done]

theorem GoesOn.busy_eq {s t : State} (h : GoesOn s t) : t.busy = s.busy := by rw [State.busy, State.busy, h.status]

/-! Whose turn it is, by the event (00_scope.md R12). -/

/-- R12: the sequencer's turn while a command runs. -/
theorem sequencerTurn_of_running {s : State} {i : Instr} (hb : s.busy = true) (hi : s.running = some i) :
    sequencerTurn s = exec i s := by
  simp only [sequencerTurn, hb, hi, ↓reduceIte]

/-- R216: the sequencer's turn while idle. -/
theorem sequencerTurn_of_idle {s : State} (hb : s.busy = false) : sequencerTurn s = .next s := by
  simp only [sequencerTurn, hb, Bool.false_eq_true, ↓reduceIte]

theorem step_eq_sequencerTurn {s : State} (hh : s.host = []) : step s = sequencerTurn s := by rw [step, advance, hh]

theorem step_takes_wait {s : State} {rest : List Event} (hh : s.host = .wait :: rest) : step s = hostWait rest s := by
  rw [step, advance, hh]

theorem step_takes_sequencer {s : State} {rest : List Event} (hh : s.host = .sequencer :: rest) :
    step s = sequencerTurn { s with host := rest } := by
  rw [step, advance, hh]

theorem step_takes_access {s : State} {x : HostAccess} {rest : List Event} (hh : s.host = .access x :: rest) :
    step s = hostAccess x { s with host := rest } := by
  rw [step, advance, hh]

theorem step_takes_reset {s : State} {rest : List Event} (hh : s.host = .reset :: rest) :
    step s = .next (State.resetNow { s with host := rest }) := by
  rw [step, advance, hh]

/-- R216: with no host access pending the idle block performs no step of its own. -/
theorem step_of_idle {s : State} (hh : s.host = []) (hb : s.busy = false) : step s = .next s := by
  rw [step_eq_sequencerTurn hh, sequencerTurn_of_idle hb]

/-- A step with no host access pending, while a command runs, is the firing of its rule. -/
theorem step_cases_of_busy {s t : State} (hh : s.host = []) (hb : s.busy = true) (h : step s = .next t) :
    ∃ i r, Fires i s r ∧ r s = .next t := by
  obtain ⟨hidle, -⟩ | ⟨-, hfires⟩ := sequencerTurn_cases ((step_eq_sequencerTurn hh).symm.trans h)
  · exact absurd (hb.symm.trans hidle) nofun
  · exact hfires

/-- Settles O53: the transitions of a command that goes on are in the list, and so is the end of each phase that has
one. -/
theorem phasesOnlyMoveForward : Obligations.PhasesOnlyMoveForward := by
  intro s t hb hh h
  obtain ⟨i, r, hf, hr⟩ := step_cases_of_busy hh hb h
  have listed : movesOn ++ endingPhases.map (·, .idle) ⊆ [(.eCheck, .eFast), (.eCheck, .idle), (.eFast, .eFast),
      (.eFast, .eTail), (.eTail, .eTail), (.eTail, .eFinal), (.eFinal, .idle), (.dTrim, .dFast), (.dTrim, .idle),
      (.dFast, .dFast), (.dFast, .dTail), (.dTail, .dFinal), (.dFinal, .idle), (.uExec, .idle)] := by decide
  obtain hon | hend := hf.goesOn_or_ends hr
  · exact listed (List.mem_append_left _ hon.phase)
  · rw [hend.phase]
    exact listed (List.mem_append_right _ (List.mem_map_of_mem hend.start))

/-- Every value that an end of a command gives `STATUS` is one of R30's. -/
theorem statusEnded_legal {e : ErrCode} {c : Bool} (hc : c = true → e = .ok) : statusEnded e c ∈ legalStatuses := by
  cases c with
  | true => rw [hc rfl]; decide
  | false => cases e <;> decide

/-- `StatusOk` reads `STATUS`, `PHASE` and `OP` alone. -/
theorem State.StatusOk.congr {s t : State} (h : s.StatusOk) (hst : t.status = s.status) (hp : t.phase = s.phase)
    (ho : t.op = s.op) : t.StatusOk where
  legal := hst ▸ h.legal
  flag := by rw [State.cf, hst, ho]; exact h.flag
  idle := by rw [State.busy, hst, hp]; exact h.idle

/-- R30: a running command has `STATUS` at 0x01. -/
theorem State.StatusOk.status_of_busy {s : State} (h : s.StatusOk) (hb : s.busy = true) : s.status = 0x01#8 := by
  have all : ∀ w ∈ legalStatuses, w.getLsbD 0 = true → w = 0x01#8 := by decide
  exact all _ h.legal hb

/-- `StatusOk` while a command runs. -/
theorem statusOk_of_running {s : State} (hst : s.status = 0x01#8) (hp : s.phase ≠ .idle) : s.StatusOk where
  legal := by rw [hst]; decide
  flag := by rw [State.cf, hst]; exact nofun
  idle := by rw [State.busy, hst]; exact ⟨fun h => absurd h hp, nofun⟩

/-- `StatusOk` after the end of a request. -/
theorem statusOk_of_ended {s : State} {e : ErrCode} {c : Bool} (hst : s.status = statusEnded e c)
    (hc : c = true → e = .ok ∧ s.op = some 3#3) (hp : s.phase = .idle) : s.StatusOk where
  legal := hst ▸ statusEnded_legal fun h => (hc h).1
  flag := by rw [State.cf, hst, statusEnded_cf]; exact fun h => (hc h).2
  idle := by rw [State.busy, hst, statusEnded_busy]; exact ⟨fun _ => rfl, fun _ => hp⟩

theorem Fires.keeps_statusOk {i : Instr} {s t : State} {r : State → Out} (f : Fires i s r) (hb : s.busy = true)
    (hs : s.StatusOk) (h : r s = .next t) : t.StatusOk := by
  obtain hon | hend := f.goesOn_or_ends h
  · exact statusOk_of_running (hon.status.trans (hs.status_of_busy hb)) hon.phase_ne_idle.2
  · obtain ⟨e, c, hst, hc⟩ := hend.status
    exact statusOk_of_ended hst (fun hct => ⟨(hc hct).1, (f.frame h).op.trans (hc hct).2⟩) hend.phase

theorem firstPhase_ne_idle (i : Instr) : firstPhase i ≠ .idle := by cases i <;> decide

theorem accepted_statusOk (s : State) (i : Instr) : (s.accepted i).StatusOk :=
  statusOk_of_running rfl (firstPhase_ne_idle i)

theorem resetNow_statusOk (s : State) : s.resetNow.StatusOk where
  legal := by rw [State.resetNow_status]; decide
  flag := fun h => absurd h (by simp [State.cf])
  idle := ⟨fun _ => State.resetNow_busy s, fun _ => rfl⟩

/-- A property of the machine that every host access, every rule and reset keeps is kept by every step: what there is
to show, event by event. -/
theorem step_keeps {P : State → Prop} (hhost : ∀ s l, P s → P { s with host := l })
    (hrule : ∀ {i s r t}, Fires i s r → s.busy = true → P s → r s = .next t → P t)
    (haccept : ∀ s i, (takesLength i = true → ∃ n, s.srcLen = some n) → P s → P (s.accepted i))
    (hillegal : ∀ s, s.busy = false → P s → P s.illegalWord) (hreply : ∀ s x, P s → P (s.reply x))
    (hlength : ∀ s v, s.busy = false → v < 2 ^ s.params.aw → P s → P { s with srcLen := some v })
    (hinput : ∀ s a b, s.busy = false → a < s.params.inMax → P s → P { s with inBuf := s.inBuf.write a b })
    (hreset : ∀ s, P s → P s.resetNow) {s t : State} (hs : P s) (h : step s = .next t) : P t := by
  obtain ⟨u, ⟨l, rfl⟩, hturn | ⟨x, hx⟩ | ⟨x, rfl⟩ | rfl⟩ := step_cases h
  · obtain ⟨-, rfl⟩ | ⟨hb, i, r, hf, hr⟩ := sequencerTurn_cases hturn
    · exact hhost s l hs
    · exact hrule hf hb (hhost s l hs) hr
  · obtain ⟨w, hw⟩ | ⟨y, rfl⟩ | ⟨hb, v, hv, rfl⟩ | ⟨hb, a, b, ha, rfl⟩ := hostAccess_cases hx
    · obtain ⟨-, rfl⟩ | ⟨-, i, -, rfl, hlen⟩ | ⟨hb, -, rfl⟩ := cmdWrite_cases hw
      · exact hhost s l hs
      · exact haccept _ i hlen (hhost s l hs)
      · exact hillegal _ hb (hhost s l hs)
    · exact hreply _ y (hhost s l hs)
    · exact hlength _ v hb hv (hhost s l hs)
    · exact hinput _ a b hb ha (hhost s l hs)
  · exact hreply _ x (hhost s l hs)
  · exact hreset _ (hhost s l hs)

/-- Settles O49: a rule and acceptance give `STATUS`, `PHASE` and `OP` values that fit together, an illegal word leaves
the block idle, and no other access writes them. -/
theorem stepKeepsStatusLegal : Obligations.StepKeepsStatusLegal := fun _ _ hs h =>
  step_keeps (P := State.StatusOk) (hhost := fun _ _ hs => hs.congr rfl rfl rfl)
    (hrule := fun hf hb hs hr => hf.keeps_statusOk hb hs hr) (haccept := fun s i _ _ => accepted_statusOk s i)
    (hillegal := fun _ hb hs => statusOk_of_ended (e := .illegalCommand) (c := false) rfl nofun (hs.idle.mpr hb))
    (hreply := fun _ _ hs => hs.congr rfl rfl rfl) (hlength := fun _ _ _ _ hs => hs.congr rfl rfl rfl)
    (hinput := fun _ _ _ _ _ hs => hs.congr rfl rfl rfl) (hreset := fun s _ => resetNow_statusOk s) hs h

theorem Fires.keeps_canonical {i : Instr} {s t : State} {r : State → Out} (f : Fires i s r) (hs : s.Canonical)
    (h : r s = .next t) : t.Canonical := by
  obtain ⟨hin, hout⟩ := f.spaces h
  refine ⟨hin ▸ hs.1, ?_⟩
  obtain hkept | hempty | ⟨a, bs, hstore⟩ := hout
  · exact hkept ▸ hs.2
  · exact hempty ▸ Memory.wf_nil
  · exact hstore ▸ Memory.writeBytes_wf bs _ a hs.2

/-- Settles O48: every write of a space keeps the form, and the empty space has it. -/
theorem stepKeepsMemoryCanonical : Obligations.StepKeepsMemoryCanonical := fun _ _ hs h =>
  step_keeps (P := State.Canonical) (hhost := fun _ _ hs => hs) (hrule := fun hf _ hs hr => hf.keeps_canonical hs hr)
    (haccept := fun _ _ _ hs => ⟨hs.1, Memory.wf_nil⟩) (hillegal := fun _ _ hs => ⟨hs.1, Memory.wf_nil⟩)
    (hreply := fun _ _ hs => hs) (hlength := fun _ _ _ _ hs => hs)
    (hinput := fun _ a b _ _ hs => ⟨Memory.write_wf _ a b hs.1, hs.2⟩)
    (hreset := fun _ _ => ⟨Memory.wf_nil, Memory.wf_nil⟩) hs h

end Sys2Proof.Machine

/-! PROOFS. The invariant: what each rule of a running command, each host access and a reset make of it
(10_state.md R16, 20_memory.md R56, R58, 43_stream_encode.md R142, R147, 44_stream_decode.md R162, R166). -/

namespace Sys2Proof.Machine

/-- The bounds of R7 that the cursor proofs use. -/
theorem params_bounds {p : Config.Params} (h : p.wellFormed = true) :
    p.inMax < 2 ^ p.aw ∧ 16 ≤ p.outMax ∧ p.outMax < 2 ^ p.aw := by
  simp only [Config.Params.wellFormed, Bool.and_eq_true, decide_eq_true_eq] at h
  exact ⟨h.1.1.2, h.1.2, h.2⟩

theorem fits_some_of_lt {p : Config.Params} {n : Nat} (h : n < 2 ^ p.aw) : Fits p (some n) :=
  fun _ hm => Option.some.inj hm ▸ h

theorem fits_none_any (p : Config.Params) : Fits p none := nofun

/-- The part of the invariant that does not depend on the phase. -/
structure State.WithinBounds (s : State) : Prop where
  params : s.params.wellFormed = true
  canonical : s.Canonical
  inBelow : ∀ a b, s.inBuf.read a = some b → a < s.params.inMax
  outBelow : ∀ a b, s.outBuf.read a = some b → a < s.params.outMax
  widths : s.Widths

theorem State.Inv.withinBounds {s : State} (h : s.Inv) : s.WithinBounds :=
  ⟨h.params, h.canonical, h.inBelow, h.outBelow, h.widths⟩

/-- A store below `OUT_MAX` (20_memory.md R56). -/
theorem State.WithinBounds.store {s : State} (h : s.WithinBounds) {a : Nat} {bs : List Byte}
    (hle : a + bs.length ≤ s.params.outMax) : State.WithinBounds { s with outBuf := s.outBuf.writeBytes a bs } :=
  { h with
    canonical := ⟨h.canonical.1, Memory.writeBytes_wf bs _ a h.canonical.2⟩
    widths := { h.widths with }
    outBelow := fun c b hread => by
      rw [Memory.read_writeBytes] at hread
      split at hread
      · exact (by omega : c < s.params.outMax)
      · exact h.outBelow c b hread }

/-- The result discarded (R177, R178, R197). -/
theorem State.WithinBounds.discard {s : State} (h : s.WithinBounds) {d : Option Nat} (hd : Fits s.params d) :
    State.WithinBounds { s with outBuf := [], dstLen := d } :=
  { h with
    canonical := ⟨h.canonical.1, Memory.wf_nil⟩
    widths := { h.widths with dstLen := hd }
    outBelow := nofun }

/-- A running command has no result yet, so its phase alone decides. -/
theorem inv_of_running {s : State} (h : s.WithinBounds) (hst : s.status = 0x01#8) (hp : s.phase ≠ .idle)
    (hseq : s.SeqOk) : s.Inv :=
  have hdone : s.done ≠ true := by rw [State.done, hst]; decide
  { h with
    status := statusOk_of_running hst hp
    vectors := fun hidle => absurd hidle hp
    seq := hseq
    result := ⟨fun hd => absurd hd hdone, fun hd => absurd hd hdone, fun hd => absurd hd hdone,
      fun hd => absurd hd hdone⟩ }

theorem seqOk_of_idle {s : State} (hp : s.phase = .idle) : s.SeqOk := by
  rw [State.SeqOk, hp]
  trivial

/-- After `raise` nothing is left to find (R197, R58). -/
theorem State.WithinBounds.raise_inv {s : State} (h : s.WithinBounds) (e : ErrCode) : (s.raise e).Inv :=
  have hpow : 0 < 2 ^ s.params.aw := Nat.two_pow_pos _
  have hempty := h.discard (fits_some_of_lt hpow)
  { hempty with
    widths := { hempty.widths with }
    status := statusOk_of_ended (c := false) rfl nofun rfl
    vectors := fun _ => ⟨rfl, rfl, rfl⟩
    seq := seqOk_of_idle rfl
    result := ⟨fun _ => ⟨0, rfl⟩, fun _ _ => ⟨rfl, rfl⟩,
      fun _ _ _ _ hd a ha => absurd (Option.some.inj hd ▸ ha : a < 0) (Nat.not_lt_zero a), fun _ _ => rfl⟩ }

/-- After `complete OK` the host finds the length, and what the command stored below it (R198, R58). -/
theorem State.WithinBounds.complete_inv {s : State} (h : s.WithinBounds) {c : Bool} {d : Nat}
    (hc : c = true → s.op = some 3#3) (hd : d < 2 ^ s.params.aw)
    (hwritten : s.wroteOut = true → ∀ a < d, ∃ b, s.outBuf.read a = some b)
    (hlengthOnly : s.wroteOut = false → s.outBuf = []) : (State.complete { s with dstLen := some d } c).Inv :=
  { h with
    widths := { h.widths with dstLen := fits_some_of_lt hd }
    status := statusOk_of_ended (e := .ok) (c := c) rfl (fun hct => ⟨rfl, hc hct⟩) rfl
    vectors := fun _ => ⟨rfl, rfl, rfl⟩
    seq := seqOk_of_idle rfl
    result := ⟨fun _ => ⟨d, rfl⟩, fun _ herr => absurd (State.complete_errc _ c) herr,
      fun _ _ hw _ he => Option.some.inj he ▸ hwritten hw, fun _ => hlengthOnly⟩ }

theorem State.wroteOut_eq {s : State} {o : BitVec 3} (h : s.op = some o) : s.wroteOut = decide (o.toNat ≤ 3) := by
  rw [State.wroteOut, h]

/-! What the phase says, phase by phase. -/

theorem seqOk_eCheck {s : State} (hp : s.phase = .eCheck) :
    s.SeqOk ↔ s.op = some 0#3 ∧ s.outBuf = [] ∧ ∃ l, s.len = some l := by simp only [State.SeqOk, hp]

theorem seqOk_eFast {s : State} (hp : s.phase = .eFast) :
    s.SeqOk ↔ ∃ l r, EncodeAt s l r ∧ r % 12 = 0 ∧ r ≤ fastEnd l := by simp only [State.SeqOk, hp]

theorem seqOk_eTail {s : State} (hp : s.phase = .eTail) : s.SeqOk ↔ ∃ l r, EncodeAt s l r ∧ fastEnd l ≤ r := by
  simp only [State.SeqOk, hp]

theorem seqOk_eFinal {s : State} (hp : s.phase = .eFinal) : s.SeqOk ↔ ∃ l, EncodeAt s l l := by
  simp only [State.SeqOk, hp]

theorem seqOk_dTrim {s : State} (hp : s.phase = .dTrim) :
    s.SeqOk ↔ s.op = some 1#3 ∧ s.outBuf = [] ∧ ∃ l, s.len = some l := by simp only [State.SeqOk, hp]

theorem seqOk_dFast {s : State} (hp : s.phase = .dFast) : s.SeqOk ↔ ∃ l n r, DecodeAt s l n r ∧ r % 16 = 0 := by
  simp only [State.SeqOk, hp]

theorem seqOk_dTail {s : State} (hp : s.phase = .dTail) : s.SeqOk ↔ ∃ l n, DecodeAt s l n (16 * (n / 16)) := by
  simp only [State.SeqOk, hp]

theorem seqOk_dFinal {s : State} (hp : s.phase = .dFinal) : s.SeqOk ↔ ∃ l n, DecodeAt s l n n := by
  simp only [State.SeqOk, hp]

theorem seqOk_uExec {s : State} (hp : s.phase = .uExec) : s.SeqOk ↔ s.outBuf = [] ∧
    (s.op = some 2#3 ∨ s.op = some 3#3 ∨ ((s.op = some 4#3 ∨ s.op = some 5#3) ∧ ∃ l, s.len = some l)) := by
  simp only [State.SeqOk, hp]

/-! The registers of a stream command fit their width (R16). -/

theorem EncodeAt.widths {s : State} {l r : Nat} (h : EncodeAt s l r) (hp : s.params.wellFormed = true)
    (hsrc : Fits s.params s.srcLen) (hdst : Fits s.params s.dstLen) (hslen : Fits s.params s.slen) : s.Widths where
  srcLen := hsrc
  dstLen := hdst
  slen := hslen
  len := h.len ▸ fits_some_of_lt (Nat.lt_of_le_of_lt h.inFits (params_bounds hp).1)
  rd := h.rd ▸ fits_some_of_lt (Nat.lt_of_le_of_lt (Nat.le_trans h.within h.inFits) (params_bounds hp).1)
  wr := h.wr ▸ fits_some_of_lt (by
    have hcap := h.outFits
    have hcursor := encLen_le_encLen h.within
    have hout := (params_bounds hp).2.2
    omega)
  fend := h.fend ▸ fits_some_of_lt (by
    have hfend := fastEnd_lt h.pos
    have hlen := h.inFits
    have hin := (params_bounds hp).1
    omega)
  cap := h.cap ▸ fits_some_of_lt (Nat.lt_of_le_of_lt h.outFits (params_bounds hp).2.2)

theorem DecodeAt.wr_le {s : State} {l n r w : Nat} (h : DecodeAt s l n r) (hw : s.wr = some w) :
    w + 16 ≤ s.params.outMax := by
  obtain ⟨d, hd, -, hout⟩ := h.cap
  have hcursor := decLen_le_decLen (h.wr.symm.trans hw) hd h.within
  omega

theorem DecodeAt.widths {s : State} {l n r : Nat} (h : DecodeAt s l n r) (hp : s.params.wellFormed = true)
    (hsrc : Fits s.params s.srcLen) (hdst : Fits s.params s.dstLen) (hfend : Fits s.params s.fend) : s.Widths where
  srcLen := hsrc
  dstLen := hdst
  fend := hfend
  len := h.len ▸ fits_some_of_lt (Nat.lt_of_le_of_lt h.inFits (params_bounds hp).1)
  slen := h.slen ▸ fits_some_of_lt (Nat.lt_of_le_of_lt h.payload_le (params_bounds hp).1)
  rd := h.rd ▸ fits_some_of_lt (Nat.lt_of_le_of_lt (Nat.le_trans h.within h.payload_le) (params_bounds hp).1)
  wr := fun w hw => by
    have hcursor := h.wr_le hw
    have hout := (params_bounds hp).2.2
    omega
  cap := by
    obtain ⟨d, -, hcap, hout⟩ := h.cap
    exact hcap ▸ fits_some_of_lt (Nat.lt_of_le_of_lt hout (params_bounds hp).2.2)

/-- A chunk of `ENCODE` is stored below `OUT_MAX`, and the cursors it leaves fit. -/
theorem EncodeAt.store_withinBounds {s t : State} {l r q : Nat} (v : Lanes) (h : s.WithinBounds) (hs : EncodeAt s l r)
    (ht : EncodeAt t l q) (hout : t.outBuf = s.outBuf.writeBytes (encLen r) v.toList) (hin : t.inBuf = s.inBuf)
    (hp : t.params = s.params) (hsrc : t.srcLen = s.srcLen) (hdst : t.dstLen = s.dstLen) (hslen : t.slen = s.slen) :
    t.WithinBounds :=
  have hstored := h.store (a := encLen r) (bs := v.toList)
    (by rw [Vector.length_toList]; exact Nat.le_trans hs.store_le hs.outFits)
  { params := hp ▸ h.params
    canonical := ⟨hin ▸ h.canonical.1, hout ▸ hstored.canonical.2⟩
    inBelow := by rw [hin, hp]; exact h.inBelow
    outBelow := by rw [hout, hp]; exact hstored.outBelow
    widths := ht.widths (hp ▸ h.params) (by rw [hp, hsrc]; exact h.widths.srcLen)
      (by rw [hp, hdst]; exact h.widths.dstLen) (by rw [hp, hslen]; exact h.widths.slen) }

/-- A chunk of `DECODE` is stored below `OUT_MAX`, and the cursors it leaves fit. -/
theorem DecodeAt.store_withinBounds {s t : State} {l n r q w : Nat} (v : Lanes) (h : s.WithinBounds)
    (hs : DecodeAt s l n r) (hw : s.wr = some w) (ht : DecodeAt t l n q)
    (hout : t.outBuf = s.outBuf.writeBytes w v.toList) (hin : t.inBuf = s.inBuf) (hp : t.params = s.params)
    (hsrc : t.srcLen = s.srcLen) (hdst : t.dstLen = s.dstLen) (hfend : t.fend = s.fend) : t.WithinBounds :=
  have hstored := h.store (a := w) (bs := v.toList) (by rw [Vector.length_toList]; exact hs.wr_le hw)
  { params := hp ▸ h.params
    canonical := ⟨hin ▸ h.canonical.1, hout ▸ hstored.canonical.2⟩
    inBelow := by rw [hin, hp]; exact h.inBelow
    outBelow := by rw [hout, hp]; exact hstored.outBelow
    widths := ht.widths (hp ▸ h.params) (by rw [hp, hsrc]; exact h.widths.srcLen)
      (by rw [hp, hdst]; exact h.widths.dstLen) (by rw [hp, hfend]; exact h.widths.fend) }

/-! The rules, one by one. -/

section
variable {s t : State} (h : s.Inv) (hb : s.busy = true)
include h hb

theorem ruleECheck_keeps_inv (hp : s.phase = .eCheck) (hr : ruleECheck s = .next t) : t.Inv := by
  obtain ⟨l, hl, ⟨-, rfl⟩ | ⟨-, -, rfl⟩ | ⟨hpos, hin, hout, rfl⟩⟩ := ruleECheck_cases hr
  · exact h.withinBounds.raise_inv _
  · exact h.withinBounds.raise_inv _
  · obtain ⟨hop, -, -⟩ := (seqOk_eCheck hp).mp h.seq
    have hat := encodeAt_start hop hl hpos hin hout
    exact inv_of_running
      { h.withinBounds with widths := hat.widths h.params h.widths.srcLen h.widths.dstLen h.widths.slen }
      (h.status.status_of_busy hb) nofun ⟨l, 0, hat, rfl, Nat.zero_le _⟩

theorem ruleEFast_keeps_inv (hp : s.phase = .eFast) (hr : ruleEFast s = .next t) : t.Inv := by
  obtain ⟨l, r, hat, hmod, -⟩ := (seqOk_eFast hp).mp h.seq
  obtain ⟨rd, fend, hrd, hfend, hcase⟩ := ruleEFast_cases hr
  obtain rfl := Option.some.inj (hat.rd.symm.trans hrd)
  obtain rfl := Option.some.inj (hat.fend.symm.trans hfend)
  have hst := h.status.status_of_busy hb
  obtain ⟨hexit, rfl⟩ | ⟨hlt, wr, cap, v, hwr, -, hv, -, rfl⟩ := hcase
  · exact inv_of_running { h.withinBounds with widths := { h.widths with } } hst nofun ⟨l, r, { hat with }, hexit⟩
  · obtain rfl := Option.some.inj (hat.wr.symm.trans hwr)
    have hfendmod := fastEnd_mod_twelve l
    have hfendle := fastEnd_add_four_le (l := l) (by omega)
    have hnext := hat.fast_iteration hmod (by omega) hv
    exact inv_of_running (EncodeAt.store_withinBounds _ h.withinBounds hat hnext rfl rfl rfl rfl rfl rfl) hst
      (hp ▸ nofun) ((seqOk_eFast (by exact hp)).mpr ⟨l, r + 12, hnext, by omega, by omega⟩)

theorem ruleETail_keeps_inv (hp : s.phase = .eTail) (hr : ruleETail s = .next t) : t.Inv := by
  obtain ⟨l, r, hat, hfend⟩ := (seqOk_eTail hp).mp h.seq
  obtain ⟨rd, len, hrd, hlen, hcase⟩ := ruleETail_cases hr
  obtain rfl := Option.some.inj (hat.rd.symm.trans hrd)
  obtain rfl := Option.some.inj (hat.len.symm.trans hlen)
  have hst := h.status.status_of_busy hb
  obtain ⟨hexit, rfl⟩ | ⟨hlt, wr, cap, v, hwr, -, hv, -, rfl⟩ := hcase
  · obtain rfl := Nat.le_antisymm hat.within hexit
    exact inv_of_running { h.withinBounds with widths := { h.widths with } } hst nofun ⟨r, { hat with }⟩
  · obtain rfl := Option.some.inj (hat.wr.symm.trans hwr)
    have hnext := hat.tail_iteration hlt hv
    exact inv_of_running (EncodeAt.store_withinBounds _ h.withinBounds hat hnext rfl rfl rfl rfl rfl rfl) hst
      (hp ▸ nofun) ((seqOk_eTail (by exact hp)).mpr ⟨l, _, hnext, Nat.le_add_right_of_le hfend⟩)

omit hb in
theorem ruleEFinal_keeps_inv (hp : s.phase = .eFinal) (hr : ruleEFinal s = .next t) : t.Inv := by
  obtain ⟨l, hat⟩ := (seqOk_eFinal hp).mp h.seq
  obtain ⟨wr, cap, pads, hwr, hcap, -, hstore, rfl⟩ := ruleEFinal_cases hr
  obtain rfl := Option.some.inj (hat.wr.symm.trans hwr)
  obtain rfl := Option.some.inj (hat.cap.symm.trans hcap)
  have hout := Nat.le_trans hstore hat.outFits
  refine (h.withinBounds.store hout).complete_inv nofun (Nat.lt_of_le_of_lt hout (params_bounds h.params).2.2) ?_ ?_
  · intro _ a ha
    rw [Memory.read_writeBytes]
    by_cases hlt : a < encLen l
    · exact ⟨_, by rw [if_neg (by omega), hat.text a hlt]⟩
    · exact ⟨_, by rw [if_pos (by omega), List.getElem?_eq_getElem (by omega)]⟩
  · intro hlength
    exact absurd ((State.wroteOut_eq hat.op).symm.trans hlength) (by decide)

theorem ruleDTrim_keeps_inv (hp : s.phase = .dTrim) (hr : ruleDTrim s = .next t) : t.Inv := by
  obtain ⟨hop, -, -⟩ := (seqOk_dTrim hp).mp h.seq
  obtain ⟨l, hl, ⟨-, rfl⟩ | ⟨hin, n, hn, hcase⟩⟩ := ruleDTrim_cases hr
  · exact h.withinBounds.raise_inv _
  have hfits : n < 2 ^ s.params.aw :=
    Nat.lt_of_le_of_lt (Nat.le_trans (State.stripLen_le hn).1 hin) (params_bounds h.params).1
  have hstripped : State.WithinBounds { s with slen := some n } :=
    { h.withinBounds with widths := { h.widths with slen := fits_some_of_lt hfits } }
  obtain ⟨rfl, rfl⟩ | ⟨-, rfl⟩ | ⟨hpos, -, d, hd, ⟨-, rfl⟩ | ⟨hout, rfl⟩⟩ := hcase
  · refine hstripped.complete_inv nofun hfits (fun _ a ha => ?_) fun hlength => ?_
    · exact absurd ha (Nat.not_lt_zero a)
    · exact absurd ((State.wroteOut_eq hop).symm.trans hlength) (by decide)
  · exact hstripped.raise_inv _
  · exact hstripped.raise_inv _
  · have hat := decodeAt_start hop hl hin hn hpos hd hout
    exact inv_of_running
      { h.withinBounds with widths := hat.widths h.params h.widths.srcLen h.widths.dstLen h.widths.fend }
      (h.status.status_of_busy hb) nofun ⟨l, n, 0, hat, rfl⟩

theorem ruleDFast_keeps_inv (hp : s.phase = .dFast) (hr : ruleDFast s = .next t) : t.Inv := by
  obtain ⟨l, n, r, hat, hmod⟩ := (seqOk_dFast hp).mp h.seq
  obtain ⟨rd, slen, hrd, hslen, hcase⟩ := ruleDFast_cases hr
  obtain rfl := Option.some.inj (hat.rd.symm.trans hrd)
  obtain rfl := Option.some.inj (hat.slen.symm.trans hslen)
  have hst := h.status.status_of_busy hb
  obtain ⟨hexit, rfl⟩ | ⟨hle, w, cap, v, hwr, -, hv, -, rfl⟩ := hcase
  · have hwithin := hat.within
    have hresidue := hat.residue
    obtain rfl : r = 16 * (n / 16) := by omega
    exact inv_of_running { h.withinBounds with widths := { h.widths with } } hst nofun ⟨l, n, hat.with_phase _⟩
  · have hnext := hat.fast_iteration hmod hle (hat.wr.symm.trans hwr) hv
    exact inv_of_running (DecodeAt.store_withinBounds _ h.withinBounds hat hwr hnext rfl rfl rfl rfl rfl rfl) hst
      (hp ▸ nofun) ((seqOk_dFast (by exact hp)).mpr ⟨l, n, r + 16, hnext, by omega⟩)

theorem ruleDTail_keeps_inv (hp : s.phase = .dTail) (hr : ruleDTail s = .next t) : t.Inv := by
  obtain ⟨l, n, hat⟩ := (seqOk_dTail hp).mp h.seq
  obtain ⟨rd, slen, hrd, hslen, hcase⟩ := ruleDTail_cases hr
  obtain rfl := Option.some.inj (hat.rd.symm.trans hrd)
  obtain rfl := Option.some.inj (hat.slen.symm.trans hslen)
  have hst := h.status.status_of_busy hb
  obtain ⟨hempty, rfl⟩ | ⟨hlt, hle, w, cap, d, v, hwr, -, hd, hv, -, rfl⟩ := hcase
  · rw [hempty] at hat
    exact inv_of_running { h.withinBounds with widths := { h.widths with } } hst nofun ⟨l, n, hat.with_phase _⟩
  · have hnext := hat.tail_chunk (by omega) hle (hat.wr.symm.trans hwr) hd hv
    refine inv_of_running (DecodeAt.store_withinBounds _ h.withinBounds hat hwr hnext rfl rfl rfl rfl rfl rfl) hst
      nofun ⟨l, n, ?_⟩
    have hend : 16 * (n / 16) + (n - 16 * (n / 16)) = n := by omega
    rwa [hend] at hnext ⊢

omit hb in
theorem ruleDFinal_keeps_inv (hp : s.phase = .dFinal) (hr : ruleDFinal s = .next t) : t.Inv := by
  obtain ⟨l, n, hat⟩ := (seqOk_dFinal hp).mp h.seq
  obtain ⟨-, rfl⟩ | ⟨-, w, hwr, rfl⟩ := ruleDFinal_cases hr
  · exact h.withinBounds.raise_inv _
  · refine h.withinBounds.complete_inv nofun (h.widths.wr w hwr) (fun _ a ha => ?_) fun hlength => ?_
    · exact ⟨_, hat.data w (hat.wr.symm.trans hwr) a ha⟩
    · exact absurd ((State.wroteOut_eq hat.op).symm.trans hlength) (by decide)

omit hb in
/-- A chunk command that ends `OK`: sixteen bytes at address 0 (R110, R128). -/
theorem chunk_complete_inv {o : BitVec 3} {v w : Lanes} {c : Bool} (ho : s.op = some o) (ho3 : o.toNat ≤ 3)
    (hc : c = true → s.op = some 3#3) : (State.complete { s with
      cap := some 16, vin := some v, vout := some w, outBuf := s.outBuf.writeBytes 0 w.toList,
      dstLen := some 16 } c).Inv := by
  have hbounds := params_bounds h.params
  have hsixteen : 16 < 2 ^ s.params.aw := by omega
  have hstored := h.withinBounds.store (a := 0) (bs := w.toList) (by rw [Vector.length_toList]; omega)
  have hchunk : State.WithinBounds { s with
      cap := some 16, vin := some v, vout := some w, outBuf := s.outBuf.writeBytes 0 w.toList } :=
    { hstored with widths := { hstored.widths with cap := fits_some_of_lt hsixteen } }
  refine hchunk.complete_inv hc hsixteen (fun _ a ha => ?_) fun hlength => ?_
  · rw [Memory.read_writeLanes]
    exact ⟨_, dif_pos (by omega)⟩
  · exact absurd ((State.wroteOut_eq ho).symm.trans hlength) (by simpa using ho3)

omit hb in
/-- A length command that ends `OK` (R96, R97). -/
theorem length_complete_inv {o : BitVec 3} {d : Nat} (hp : s.phase = .uExec) (ho : s.op = some o) (ho3 : 3 < o.toNat)
    (hd : d < 2 ^ s.params.aw) : (State.complete { s with dstLen := some d } false).Inv := by
  refine h.withinBounds.complete_inv nofun hd (fun hwrote => ?_) fun _ => ((seqOk_uExec hp).mp h.seq).1
  exact absurd ((State.wroteOut_eq ho).symm.trans hwrote) (by simpa using ho3)

theorem Fires.keeps_inv {i : Instr} {r : State → Out} (f : Fires i s r) (hr : r s = .next t) : t.Inv := by
  cases f with
  | eCheck hp => exact ruleECheck_keeps_inv h hb hp hr
  | eFast hp => exact ruleEFast_keeps_inv h hb hp hr
  | eTail hp => exact ruleETail_keeps_inv h hb hp hr
  | eFinal hp => exact ruleEFinal_keeps_inv h hp hr
  | dTrim hp => exact ruleDTrim_keeps_inv h hb hp hr
  | dFast hp => exact ruleDFast_keeps_inv h hb hp hr
  | dTail hp => exact ruleDTail_keeps_inv h hb hp hr
  | dFinal hp => exact ruleDFinal_keeps_inv h hp hr
  | encchunk _ ho =>
    obtain ⟨-, rfl⟩ | ⟨-, v, -, rfl⟩ := ruleEncchunk_cases hr
    · exact h.withinBounds.raise_inv _
    · exact chunk_complete_inv h ho (by decide) nofun
  | decchunk _ ho =>
    obtain ⟨-, rfl⟩ | ⟨-, v, -, rfl⟩ := ruleDecchunk_cases hr
    · exact h.withinBounds.raise_inv _
    · exact chunk_complete_inv h ho (by decide) fun _ => ho
  | enclen hp ho =>
    obtain ⟨n, -, ⟨-, rfl⟩ | ⟨hlt, rfl⟩⟩ := ruleEnclen_cases hr
    · exact h.withinBounds.raise_inv _
    · exact length_complete_inv h hp ho (by decide) hlt
  | declen hp ho =>
    obtain ⟨n, hn, ⟨-, rfl⟩ | ⟨d, hd, rfl⟩⟩ := ruleDeclen_cases hr
    · exact h.withinBounds.raise_inv _
    · have hfits := h.widths.len n hn
      obtain ⟨-, rfl⟩ := decLen_eq_some.mp hd
      exact length_complete_inv h hp ho (by decide) (by omega)

end

/-! The host's side. -/

/-- No part of the invariant speaks of the host's list or of what it has read. -/
theorem State.SeqOk.hostSide {s : State} (h : s.SeqOk) (l : List Event) (q : List Reply) :
    State.SeqOk { s with host := l, replies := q } := by
  have decodeAt {l' n r : Nat} (hat : DecodeAt s l' n r) : DecodeAt { s with host := l, replies := q } l' n r :=
    { hat with strip := (State.stripLen_congr rfl rfl l').trans hat.strip }
  suffices key : ∀ p, s.phase = p → State.SeqOk { s with host := l, replies := q } from key _ rfl
  intro p hp
  cases p with
  | idle => exact seqOk_of_idle hp
  | eCheck => exact (seqOk_eCheck (by exact hp)).mpr ((seqOk_eCheck hp).mp h)
  | dTrim => exact (seqOk_dTrim (by exact hp)).mpr ((seqOk_dTrim hp).mp h)
  | uExec => exact (seqOk_uExec (by exact hp)).mpr ((seqOk_uExec hp).mp h)
  | eFast =>
    obtain ⟨l', r, hat, hmod, hle⟩ := (seqOk_eFast hp).mp h
    exact (seqOk_eFast (by exact hp)).mpr ⟨l', r, { hat with }, hmod, hle⟩
  | eTail =>
    obtain ⟨l', r, hat, hle⟩ := (seqOk_eTail hp).mp h
    exact (seqOk_eTail (by exact hp)).mpr ⟨l', r, { hat with }, hle⟩
  | eFinal =>
    obtain ⟨l', hat⟩ := (seqOk_eFinal hp).mp h
    exact (seqOk_eFinal (by exact hp)).mpr ⟨l', { hat with }⟩
  | dFast =>
    obtain ⟨l', n, r, hat, hmod⟩ := (seqOk_dFast hp).mp h
    exact (seqOk_dFast (by exact hp)).mpr ⟨l', n, r, decodeAt hat, hmod⟩
  | dTail =>
    obtain ⟨l', n, hat⟩ := (seqOk_dTail hp).mp h
    exact (seqOk_dTail (by exact hp)).mpr ⟨l', n, decodeAt hat⟩
  | dFinal =>
    obtain ⟨l', n, hat⟩ := (seqOk_dFinal hp).mp h
    exact (seqOk_dFinal (by exact hp)).mpr ⟨l', n, decodeAt hat⟩

theorem State.Inv.hostSide {s : State} (h : s.Inv) (l : List Event) (q : List Reply) :
    State.Inv { s with host := l, replies := q } :=
  { h with
    status := h.status.congr rfl rfl rfl
    widths := { h.widths with }
    seq := h.seq.hostSide l q
    result := { h.result with } }

/-- R177: acceptance discards the last result and starts from the latched length. -/
theorem State.Inv.accepted {s : State} (h : s.Inv) {i : Instr} (hlen : takesLength i = true → ∃ n, s.srcLen = some n) :
    (s.accepted i).Inv := by
  have hempty := h.withinBounds.discard (fits_none_any _)
  refine inv_of_running { hempty with widths := { hempty.widths with len := h.widths.srcLen } } rfl
    (firstPhase_ne_idle i) ?_
  cases i with
  | encode | decode => exact ⟨rfl, rfl, hlen rfl⟩
  | encchunk => exact ⟨rfl, .inl rfl⟩
  | decchunk => exact ⟨rfl, .inr (.inl rfl)⟩
  | enclen => exact ⟨rfl, .inr (.inr ⟨.inl rfl, hlen rfl⟩)⟩
  | declen => exact ⟨rfl, .inr (.inr ⟨.inr rfl, hlen rfl⟩)⟩

/-- R178: an illegal word leaves an empty result. -/
theorem State.Inv.illegalWord {s : State} (h : s.Inv) (hb : s.busy = false) : s.illegalWord.Inv :=
  have hidle := h.status.idle.mpr hb
  have hempty := h.withinBounds.discard (fits_some_of_lt (Nat.two_pow_pos _))
  { hempty with
    widths := { hempty.widths with }
    status := statusOk_of_ended (e := .illegalCommand) (c := false) rfl nofun hidle
    vectors := h.vectors
    seq := seqOk_of_idle hidle
    result := ⟨fun _ => ⟨0, rfl⟩, fun _ _ => ⟨rfl, rfl⟩,
      fun _ herr => absurd (s.illegalWord_errc.symm.trans herr) (by decide), fun _ _ => rfl⟩ }

/-- R180: while idle the host writes a length that fits. -/
theorem State.Inv.setSrcLen {s : State} (h : s.Inv) (hb : s.busy = false) {n : Nat} (hn : n < 2 ^ s.params.aw) :
    State.Inv { s with srcLen := some n } :=
  { h with
    status := h.status.congr rfl rfl rfl
    widths := { h.widths with srcLen := fits_some_of_lt hn }
    seq := seqOk_of_idle (h.status.idle.mpr hb)
    result := { h.result with } }

/-- R180: while idle the host writes bytes of `IN` that exist. -/
theorem State.Inv.writeIn {s : State} (h : s.Inv) (hb : s.busy = false) {a : Nat} {b : Byte} (ha : a < s.params.inMax) :
    State.Inv { s with inBuf := s.inBuf.write a b } :=
  { h with
    canonical := ⟨Memory.write_wf _ a b h.canonical.1, h.canonical.2⟩
    inBelow := fun c d hread => by
      rw [Memory.read_write] at hread
      split at hread
      · exact ‹c = a› ▸ ha
      · exact h.inBelow c d hread
    status := h.status.congr rfl rfl rfl
    widths := { h.widths with }
    seq := seqOk_of_idle (h.status.idle.mpr hb)
    result := { h.result with } }

/-- R215: a reset leaves the invariant to the parameters alone. -/
theorem resetNow_inv {s : State} (hp : s.params.wellFormed = true) : s.resetNow.Inv where
  params := hp
  canonical := ⟨Memory.wf_nil, Memory.wf_nil⟩
  inBelow := nofun
  outBelow := nofun
  status := resetNow_statusOk s
  widths := ⟨nofun, nofun, nofun, nofun, nofun, nofun, nofun, nofun⟩
  vectors := fun _ => ⟨rfl, rfl, rfl⟩
  seq := seqOk_of_idle rfl
  result :=
    have hdone : s.resetNow.done ≠ true := by simp [State.done]
    ⟨fun hd => absurd hd hdone, fun hd => absurd hd hdone, fun hd => absurd hd hdone, fun hd => absurd hd hdone⟩

/-- Settles O47: the state after reset is a reset of itself, and its parameters are the defaults. -/
theorem resetSatisfiesTheInvariant : Obligations.ResetSatisfiesTheInvariant :=
  resetNow_inv (s := State.reset) (by decide)

/-- Settles O50: event by event; a rule keeps the invariant by its own lemma. -/
theorem stepKeepsTheInvariant : Obligations.StepKeepsTheInvariant := fun _ _ hs h =>
  step_keeps (P := State.Inv) (hhost := fun s l hs => hs.hostSide l s.replies)
    (hrule := fun hf hb hs hr => hf.keeps_inv hs hb hr) (haccept := fun _ _ hlen hs => hs.accepted hlen)
    (hillegal := fun _ hb hs => hs.illegalWord hb) (hreply := fun s x hs => hs.hostSide s.host (s.replies ++ [x]))
    (hlength := fun _ _ hb hv hs => hs.setSrcLen hb hv) (hinput := fun _ _ _ hb ha hs => hs.writeIn hb ha)
    (hreset := fun _ hs => resetNow_inv hs.params) hs h

end Sys2Proof.Machine

/-! PROOFS. The steps of the rules that earlier parts do not settle, and where each rule that reads `IN` is stuck
(20_memory.md R50, 40_sizemath.md R96, R97, 41_chunk_encoder.md R110, 42_chunk_decoder.md R128, 43_stream_encode.md R140
to R150, 44_stream_decode.md R157, R165). -/

namespace Sys2Proof.Machine

/-- Settles O28: the rule of the phase fires, with its exit condition met. -/
theorem encodeLoopsExit : Obligations.EncodeLoopsExit := by
  intro s rd hb hrd
  refine ⟨fun fend hp hfend hle => ?_, fun l hp hl hle => ?_⟩
  · rw [exec_fires hb (.eFast hp), ruleEFast_exit hrd hfend hle]
  · rw [exec_fires hb (.eTail hp), ruleETail_exit hrd hl hle]

/-- Settles O30: the `k` bytes in place and the zeros after them make up the scratch window. -/
theorem encodeTailIteration : Obligations.EncodeTailIteration := by
  rintro s rd l wr cap k v hb hp hrd hl hlt hwr hcap hstore rfl hin hreal hfill
  have hscratch : s.scratch rd (min 12 (l - rd)) Config.encFill = some v :=
    (State.scratch_eq_some (by omega)).mpr ⟨hin, hreal, hfill⟩
  refine ⟨s.outBuf.writeBytes wr (encChunk v).toList, ?_, fun a => ?_⟩
  · rw [exec_fires hb (.eTail hp), ruleETail_iteration hrd hl hlt hwr hcap hstore hscratch]
  · rw [Memory.read_writeBytes, Vector.length_toList]

/-- Settles O31: the rule of `E_FINAL` fires with the padding of R150, and the store of it is read byte by byte. -/
theorem encodeFinalPads : Obligations.EncodeFinalPads := by
  intro s wr cap hb hp hwr hcap hle
  have hfires := exec_fires hb (.eFinal hp)
  refine ⟨fun hmod => ?_, fun hmod => ?_, fun hmod => ?_⟩
  · have hpads : padding (wr % 4) = some [Config.pad, Config.pad] := by rw [hmod]; rfl
    refine ⟨(s.outBuf.write wr Config.pad).write (wr + 1) Config.pad, ?_, fun a => ?_⟩
    · exact hfires.trans (ruleEFinal_eq hwr hcap hpads hle)
    · rw [Memory.read_write, Memory.read_write]
      by_cases hsecond : a = wr + 1
      · rw [if_pos hsecond, if_pos (.inr hsecond)]
      · by_cases hfirst : a = wr
        · rw [if_neg hsecond, if_pos hfirst, if_pos (.inl hfirst)]
        · rw [if_neg hsecond, if_neg hfirst, if_neg (not_or.mpr ⟨hfirst, hsecond⟩)]
  · have hpads : padding (wr % 4) = some [Config.pad] := by rw [hmod]; rfl
    refine ⟨s.outBuf.write wr Config.pad, ?_, fun a => ?_⟩
    · exact hfires.trans (ruleEFinal_eq hwr hcap hpads (Nat.le_of_succ_le hle))
    · rw [Memory.read_write]
  · have hpads : padding (wr % 4) = some [] := by rw [hmod]; rfl
    exact hfires.trans (ruleEFinal_eq hwr hcap hpads (Nat.le_of_add_right_le hle))

/-- R157, for an input of one byte. -/
theorem State.stripLen_one {s : State} {b : Byte} (hin : 1 ≤ s.params.inMax) (hb : s.inBuf.read 0 = some b) :
    s.stripLen 1 = some (if b = Config.pad then 0 else 1) := by
  have hread : s.memRead 0 1 = some [b] := by simp [State.memRead, hin, Memory.readBytes, hb]
  simp [State.stripLen, hread]

/-- Settles O32: by the length, as R157 has it. -/
theorem strippingRemovesAtMostTwoPads : Obligations.StrippingRemovesAtMostTwoPads := by
  intro s l hin
  refine ⟨?_, ?_, fun b c htwo hlast hsecond => ?_⟩
  · rintro rfl
    rfl
  · rintro b rfl hb
    exact State.stripLen_one hin hb
  · obtain ⟨k, rfl⟩ := Nat.exists_eq_add_of_le' htwo
    rw [State.stripLen_add_two hin hsecond hlast]
    simp only [and_comm (a := c = Config.pad)]
    rfl

/-- Settles O36: the bytes that remain and the fill after them make up the scratch window. -/
theorem decodeTailChunk : Obligations.DecodeTailChunk := by
  intro s rd n wr cap d v hb hp hrd hn hlt hle hd hwr hcap hstore hin hreal hfill
  have hend : rd + (n - rd) = n := by omega
  have hscratch : s.scratch rd (n - rd) Config.decFill = some v :=
    (State.scratch_eq_some (by omega)).mpr ⟨by omega, hreal, hfill⟩
  refine ⟨s.outBuf.writeBytes wr (decChunk s.params v).toList, ?_, fun a => ?_⟩
  · rw [exec_fires hb (.dTail hp), ruleDTail_chunk hrd hn hlt hle hwr hcap hstore hd hscratch, stickyErr, hend]
  · rw [Memory.read_writeBytes, Vector.length_toList]

/-! The unit commands. -/

theorem ruleEncchunk_of_range {s : State} (h : s.params.inMax < 16) : ruleEncchunk s = .next (s.raise .range) := by
  rw [ruleEncchunk, if_pos h]

theorem ruleDecchunk_of_range {s : State} (h : s.params.inMax < 16) : ruleDecchunk s = .next (s.raise .range) := by
  rw [ruleDecchunk, if_pos h]

/-- R110: with its window in place. -/
theorem ruleEncchunk_of_window {s : State} {v : Lanes} (h : 16 ≤ s.params.inMax) (hv : s.window 0 = some v) :
    ruleEncchunk s = .next (State.complete { s with
      cap := some 16, vin := some v, vout := some (encChunk v),
      outBuf := s.outBuf.writeBytes 0 (encChunk v).toList, dstLen := some 16 } false) := by
  rw [ruleEncchunk, if_neg (Nat.not_lt_of_le h), hv, orFault_some, State.memWrite_lanes s _ (Nat.le_refl _),
    orFault_some]

/-- R128: with its window in place. -/
theorem ruleDecchunk_of_window {s : State} {v : Lanes} (h : 16 ≤ s.params.inMax) (hv : s.window 0 = some v) :
    ruleDecchunk s = .next (State.complete { s with
      cap := some 16, vin := some v, vout := some (decChunk s.params v),
      outBuf := s.outBuf.writeBytes 0 (decChunk s.params v).toList, dstLen := some 16 } (chunkFlag v)) := by
  rw [ruleDecchunk, if_neg (Nat.not_lt_of_le h), hv, orFault_some, State.memWrite_lanes s _ (Nat.le_refl _),
    orFault_some]

theorem State.window_zero {s : State} {v : Lanes} (h : 16 ≤ s.params.inMax)
    (hread : ∀ i (_ : i < 16), s.inBuf.read i = some v[i]) : s.window 0 = some v :=
  State.window_eq_some.mpr ⟨h, fun i hi => by rw [Nat.zero_add, hread i hi]⟩

/-- What the store of a chunk command leaves. -/
theorem Memory.read_writeLanes_zero (m : Memory) (v : Lanes) (a : Nat) :
    (m.writeBytes 0 v.toList).read a = if a < 16 then v.toList[a]? else m.read a := by
  simp only [Memory.read_writeBytes, Vector.length_toList, Nat.zero_le, true_and, Nat.zero_add, Nat.sub_zero]

/-- Settles O38: the sixteen bytes in place make up the window. -/
theorem encchunkEncodesTheWindow : Obligations.EncchunkEncodesTheWindow := by
  intro s hb hp ho
  rw [exec_fires hb (.encchunk hp ho)]
  refine ⟨ruleEncchunk_of_range, fun v hin hread => ⟨_, ruleEncchunk_of_window hin (State.window_zero hin hread), ?_⟩⟩
  exact Memory.read_writeLanes_zero _ _

/-- Settles O39: the sixteen bytes in place make up the window. -/
theorem decchunkDecodesTheWindow : Obligations.DecchunkDecodesTheWindow := by
  intro s hb hp ho
  rw [exec_fires hb (.decchunk hp ho)]
  refine ⟨ruleDecchunk_of_range, fun v hin hread => ⟨_, ruleDecchunk_of_window hin (State.window_zero hin hread), ?_⟩⟩
  exact Memory.read_writeLanes_zero _ _

/-- R96 once `LEN` holds a value. -/
theorem ruleEnclen_eq {s : State} {n : Nat} (hn : s.len = some n) :
    ruleEnclen s = if 2 ^ s.params.aw ≤ encLen n then .next (s.raise .range)
      else .next (State.complete { s with dstLen := some (encLen n) } false) := by
  rw [ruleEnclen, hn, orFault_some]

/-- R97 once `LEN` holds a value that is no length of a text. -/
theorem ruleDeclen_of_none {s : State} {n : Nat} (hn : s.len = some n) (hd : decLen n = none) :
    ruleDeclen s = .next (s.raise .invalidCharacter) := by
  rw [ruleDeclen, hn, orFault_some, hd]

theorem ruleDeclen_of_some {s : State} {n d : Nat} (hn : s.len = some n) (hd : decLen n = some d) :
    ruleDeclen s = .next (State.complete { s with dstLen := some d } false) := by
  rw [ruleDeclen, hn, orFault_some, hd]

/-- Settles O40: the rule of the command fires, and the width test selects the branch. -/
theorem enclenComputesTheLength : Obligations.EnclenComputesTheLength := by
  intro s n hb hp ho hn
  rw [exec_fires hb (.enclen hp ho), ruleEnclen_eq hn]
  exact ⟨fun h => if_pos h, fun h => if_neg (Nat.not_le_of_lt h)⟩

/-- Settles O41: the rule of the command fires, and `DecLen` selects the branch. -/
theorem declenComputesTheLength : Obligations.DeclenComputesTheLength := by
  intro s n hb hp ho hn
  rw [exec_fires hb (.declen hp ho)]
  exact ⟨fun h => ruleDeclen_of_none hn (decLen_eq_none.mpr h), fun _ => ruleDeclen_of_some hn⟩

/-! The ends of `D_TRIM` (R156). -/

section
variable {s : State} {l n : Nat} (hl : s.len = some l) (hin : l ≤ s.params.inMax) (hn : s.stripLen l = some n)
include hl hin hn

theorem ruleDTrim_of_empty (hempty : n = 0) :
    ruleDTrim s = .next (State.complete { s with slen := some n, dstLen := some 0 } false) := by
  rw [ruleDTrim_eq hl hin hn, if_pos hempty]

theorem ruleDTrim_of_badLength (hbad : n % 4 = 1) :
    ruleDTrim s = .next (State.raise { s with slen := some n } .invalidCharacter) := by
  rw [ruleDTrim_eq hl hin hn, if_neg (by omega), if_pos hbad]

theorem ruleDTrim_of_outMax_lt {d : Nat} (hpos : n ≠ 0) (hd : decLen n = some d) (hout : s.params.outMax < d + 16) :
    ruleDTrim s = .next (State.raise { s with slen := some n } .range) := by
  rw [ruleDTrim_eq hl hin hn, if_neg hpos, if_neg (decLen_eq_some.mp hd).1, hd, orFault_some, if_pos hout]

end

/-! Reads of `IN` that are not admitted. -/

/-- R50: a read that reaches an unwritten byte, or past `IN_MAX`, is not admitted. -/
theorem State.memRead_eq_none {s : State} {a n : Nat}
    (h : s.params.inMax < a + n ∨ ∃ i < n, s.inBuf.read (a + i) = none) : s.memRead a n = none := by
  refine Option.eq_none_iff_forall_ne_some.mpr fun bs hbs => ?_
  obtain ⟨hin, hlen, hread⟩ := State.memRead_eq_some.mp hbs
  obtain hout | ⟨i, hi, hnone⟩ := h
  · exact absurd hin (Nat.not_le_of_lt hout)
  · rw [hread i hi, List.getElem?_eq_getElem (by omega)] at hnone
    exact nomatch hnone

theorem State.window_eq_none {s : State} {a : Nat}
    (h : s.params.inMax < a + 16 ∨ ∃ i < 16, s.inBuf.read (a + i) = none) : s.window a = none := by
  rw [State.window, State.memRead_eq_none h, Option.map_none]

theorem State.scratch_eq_none {s : State} {a k : Nat} (c : Byte)
    (h : s.params.inMax < a + k ∨ ∃ i < k, s.inBuf.read (a + i) = none) : s.scratch a k c = none := by
  rw [State.scratch, State.memRead_eq_none h, Option.map_none]

/-- R156: stripping reads the last two bytes when they exist. -/
theorem State.stripLen_eq_none {s : State} {l : Nat}
    (h : (1 ≤ l ∧ s.inBuf.read (l - 1) = none) ∨ (2 ≤ l ∧ s.inBuf.read (l - 2) = none)) : s.stripLen l = none := by
  match l with
  | 0 => omega
  | 1 =>
    obtain ⟨-, hnone⟩ | ⟨htwo, -⟩ := h
    · rw [State.stripLen, State.memRead_eq_none (.inr ⟨0, by decide, hnone⟩)]
    · exact absurd htwo (by decide)
  | l + 2 =>
    have hunread : ∃ i < 2, s.inBuf.read (l + i) = none := by
      obtain ⟨-, hlast⟩ | ⟨-, hsecond⟩ := h
      · exact ⟨1, by decide, hlast⟩
      · exact ⟨0, by decide, hsecond⟩
    rw [State.stripLen, State.memRead_eq_none (.inr hunread)]

theorem ruleEFast_stuck {s : State} {rd fend wr cap : Nat} (hrd : s.rd = some rd) (hfend : s.fend = some fend)
    (hlt : rd < fend) (hwr : s.wr = some wr) (hcap : s.cap = some cap) (hnone : s.window rd = none) :
    ruleEFast s = .fault .stuckRead := by
  simp only [ruleEFast, hrd, hfend, hlt, hwr, hcap, hnone, orFault_some, orFault_none, ↓reduceIte]

theorem ruleETail_stuck {s : State} {rd l wr cap : Nat} (hrd : s.rd = some rd) (hl : s.len = some l) (hlt : rd < l)
    (hwr : s.wr = some wr) (hcap : s.cap = some cap)
    (hnone : s.scratch rd (min 12 (l - rd)) Config.encFill = none) : ruleETail s = .fault .stuckRead := by
  simp only [ruleETail, hrd, hl, hlt, hwr, hcap, hnone, orFault_some, orFault_none, ↓reduceIte]

theorem ruleDTrim_stuck {s : State} {l : Nat} (hl : s.len = some l) (hin : l ≤ s.params.inMax)
    (hnone : s.stripLen l = none) : ruleDTrim s = .fault .stuckRead := by
  rw [ruleDTrim, hl, orFault_some, if_neg (Nat.not_lt_of_le hin), hnone, orFault_none]

theorem ruleDFast_stuck {s : State} {rd n wr cap : Nat} (hrd : s.rd = some rd) (hn : s.slen = some n)
    (hle : rd + 16 ≤ n) (hwr : s.wr = some wr) (hcap : s.cap = some cap) (hnone : s.window rd = none) :
    ruleDFast s = .fault .stuckRead := by
  simp only [ruleDFast, hrd, hn, hle, hwr, hcap, hnone, orFault_some, orFault_none, ↓reduceIte]

theorem ruleDTail_stuck {s : State} {rd n wr cap d : Nat} (hrd : s.rd = some rd) (hn : s.slen = some n)
    (hlt : rd < n) (hle : n - rd ≤ 15) (hwr : s.wr = some wr) (hcap : s.cap = some cap) (hd : decLen (n - rd) = some d)
    (hnone : s.scratch rd (n - rd) Config.decFill = none) : ruleDTail s = .fault .stuckRead := by
  simp only [ruleDTail, hrd, hn, Nat.ne_of_lt hlt, hlt, hle, and_self, hwr, hcap, hd, hnone, orFault_some,
    orFault_none, ↓reduceIte]

theorem ruleEncchunk_stuck {s : State} (h : 16 ≤ s.params.inMax) (hnone : s.window 0 = none) :
    ruleEncchunk s = .fault .stuckRead := by
  rw [ruleEncchunk, if_neg (Nat.not_lt_of_le h), hnone, orFault_none]

theorem ruleDecchunk_stuck {s : State} (h : 16 ≤ s.params.inMax) (hnone : s.window 0 = none) :
    ruleDecchunk s = .fault .stuckRead := by
  rw [ruleDecchunk, if_neg (Nat.not_lt_of_le h), hnone, orFault_none]

/-- Settles O42: in each phase the rule fires and stops at its window, which the byte in question keeps from being
read. -/
theorem unwrittenInputStopsTheSequencer : Obligations.UnwrittenInputStopsTheSequencer := by
  intro s hb
  refine ⟨?eFast, ?eTail, ?dTrim, ?dFast, ?dTail, ?chunk⟩
  case eFast =>
    intro rd fend wr cap hp hrd hfend hlt hwr hcap hbad
    rw [exec_fires hb (.eFast hp), ruleEFast_stuck hrd hfend hlt hwr hcap (State.window_eq_none hbad)]
  case eTail =>
    intro rd l wr cap hp hrd hl hlt hwr hcap hbad
    rw [exec_fires hb (.eTail hp), ruleETail_stuck hrd hl hlt hwr hcap (State.scratch_eq_none _ hbad)]
  case dTrim =>
    intro l hp hl hin hbad
    rw [exec_fires hb (.dTrim hp), ruleDTrim_stuck hl hin (State.stripLen_eq_none hbad)]
  case dFast =>
    intro rd n wr cap hp hrd hn hle hwr hcap hbad
    rw [exec_fires hb (.dFast hp), ruleDFast_stuck hrd hn hle hwr hcap (State.window_eq_none hbad)]
  case dTail =>
    intro rd n wr cap d hp hrd hn hlt hle hd hwr hcap hbad
    rw [← Nat.add_sub_cancel' (Nat.le_of_lt hlt)] at hbad
    rw [exec_fires hb (.dTail hp), ruleDTail_stuck hrd hn hlt hle hwr hcap hd]
    exact State.scratch_eq_none _ (by simpa only [Nat.add_sub_cancel_left] using hbad)
  case chunk =>
    rintro hp hin ⟨i, hi, hread⟩
    have hnone : s.window 0 = none := State.window_eq_none (.inr ⟨i, hi, by rwa [Nat.zero_add]⟩)
    refine ⟨fun ho => ?_, fun ho => ?_⟩
    · rw [exec_fires hb (.encchunk hp ho), ruleEncchunk_stuck hin hnone]
    · rw [exec_fires hb (.decchunk hp ho), ruleDecchunk_stuck hin hnone]

end Sys2Proof.Machine

/-! PROOFS. The frames of the commands (10_state.md R38, 20_memory.md R53). -/

namespace Sys2Proof.Machine

/-- A store leaves what lies beside it. -/
theorem Memory.read_writeBytes_of_outside (m : Memory) {a c : Nat} {bs : List Byte} (h : c < a ∨ a + bs.length ≤ c) :
    (m.writeBytes a bs).read c = m.read c := by
  rw [Memory.read_writeBytes, if_neg (by omega)]

theorem Memory.read_writeLanes_of_outside (m : Memory) {a c : Nat} {v : Lanes} (h : c < a ∨ a + 16 ≤ c) :
    (m.writeBytes a v.toList).read c = m.read c :=
  Memory.read_writeBytes_of_outside m (by rwa [Vector.length_toList])

/-- A command that goes on is busy, so a clause about its end, or about another phase, is void. -/
theorem not_phase_or_idle {s : State} {p q : Phase} (hb : s.busy = true) (hp : s.phase = p) (hne : p ≠ q) :
    ¬ (s.phase = q ∨ s.busy = false) := by
  rintro (hq | hidle)
  · exact hne (hp.symm.trans hq)
  · exact absurd (hb.symm.trans hidle) nofun

/-- So is a clause about the other phases. -/
theorem not_otherPhase_or_idle {s : State} {p : Phase} (hb : s.busy = true) (hp : s.phase = p) :
    ¬ (s.phase ≠ p ∨ s.busy = false) := by
  rintro (hother | hidle)
  · exact hother hp
  · exact absurd (hb.symm.trans hidle) nofun

/-- Settles O44: an ignored request changes nothing, an exit and an end write what their case says; a chunk step is no
exit, and a store leaves what lies beside it. -/
theorem encodeFrame : Obligations.EncodeFrame := by
  intro s t hb h
  obtain ⟨hidle, -⟩ | ⟨-, r, hf, hr⟩ | ⟨-, rfl⟩ := exec_cases h
  · exact absurd (hb.symm.trans hidle) nofun
  · cases hf with
    | eCheck hp =>
      obtain ⟨l, -, ⟨-, rfl⟩ | ⟨-, -, rfl⟩ | ⟨-, -, -, rfl⟩⟩ := ruleECheck_cases hr
      · simp [hp]
      · simp [hp]
      · exact ⟨rfl, rfl, rfl, rfl, fun hend => absurd hend (not_otherPhase_or_idle hb hp),
          fun hend => absurd hend (not_phase_or_idle hb hp (by decide)), fun _ => ⟨rfl, rfl, fun _ => rfl⟩,
          fun _ _ => ⟨rfl, rfl, rfl⟩, by simp [hp], by simp [hp], by simp [hp]⟩
    | eFast hp =>
      obtain ⟨rd, fend, hrd, hfend, ⟨-, rfl⟩ | ⟨hlt, wr, cap, v, hwr, -, -, -, rfl⟩⟩ := ruleEFast_cases hr
      · simp [hp]
      · refine ⟨rfl, rfl, rfl, rfl, fun _ => ⟨rfl, rfl⟩, fun hend => absurd hend (not_phase_or_idle hb hp (by decide)),
          fun _ => ⟨rfl, rfl, fun _ => rfl⟩, by simp [hp], fun rd' n hrd' hle hexit => ?_, fun _ wr' hwr' a ha => ?_,
          by simp [hp]⟩
        · obtain rfl := Option.some.inj (hrd.symm.trans hrd')
          have hend : fend = n := by simpa [hp, hfend] using hexit
          omega
        · obtain rfl := Option.some.inj (hwr.symm.trans hwr')
          exact Memory.read_writeLanes_of_outside _ ha
    | eTail hp =>
      obtain ⟨rd, l, hrd, hl, ⟨-, rfl⟩ | ⟨hlt, wr, cap, v, hwr, -, -, -, rfl⟩⟩ := ruleETail_cases hr
      · simp [hp]
      · refine ⟨rfl, rfl, rfl, rfl, fun _ => ⟨rfl, rfl⟩, fun hend => absurd hend (not_phase_or_idle hb hp (by decide)),
          fun _ => ⟨rfl, rfl, fun hnot => absurd hp hnot⟩, by simp [hp], fun rd' n hrd' hle hexit => ?_,
          fun _ wr' hwr' a ha => ?_, by simp [hp]⟩
        · obtain rfl := Option.some.inj (hrd.symm.trans hrd')
          have hend : l = n := by simpa [hp, hl] using hexit
          omega
        · obtain rfl := Option.some.inj (hwr.symm.trans hwr')
          exact Memory.read_writeLanes_of_outside _ ha
    | eFinal hp =>
      obtain ⟨wr, cap, pads, hwr, -, hpads, -, rfl⟩ := ruleEFinal_cases hr
      refine ⟨rfl, rfl, rfl, rfl, fun _ => ⟨rfl, rfl⟩, fun _ => ⟨rfl, rfl⟩, by simp, by simp, by simp [hp],
        by simp [hp], fun _ wr' pads' hwr' hpads' a ha => ?_⟩
      obtain rfl := Option.some.inj (hwr.symm.trans hwr')
      obtain rfl := Option.some.inj (hpads.symm.trans hpads')
      exact Memory.read_writeBytes_of_outside _ ha
  · simp

/-- Settles O45, in the same way. -/
theorem decodeFrame : Obligations.DecodeFrame := by
  intro s t hb h
  obtain ⟨hidle, -⟩ | ⟨-, r, hf, hr⟩ | ⟨-, rfl⟩ := exec_cases h
  · exact absurd (hb.symm.trans hidle) nofun
  · cases hf with
    | dTrim hp =>
      obtain ⟨l, -, ⟨-, rfl⟩ | ⟨-, n, -, ⟨-, rfl⟩ | ⟨-, rfl⟩ | ⟨-, -, d, -, ⟨-, rfl⟩ | ⟨-, rfl⟩⟩⟩⟩ :=
        ruleDTrim_cases hr
      · simp [hp, ErrCode.code]
      · simp [hp]
      · simp [hp, ErrCode.code]
      · simp [hp, ErrCode.code]
      · exact ⟨rfl, rfl, rfl, fun hother => absurd hp hother, fun hend => absurd hend (not_otherPhase_or_idle hb hp),
          fun hend => absurd hend (not_phase_or_idle hb hp (by decide)), fun _ => ⟨rfl, rfl, fun _ => rfl⟩,
          fun _ _ => ⟨rfl, rfl⟩, by simp [hp], by simp [hp], fun _ _ => rfl⟩
    | dFast hp =>
      obtain ⟨rd, n, hrd, hn, ⟨-, rfl⟩ | ⟨hle, wr, cap, v, hwr, -, -, -, rfl⟩⟩ := ruleDFast_cases hr
      · simp [hp]
      · refine ⟨rfl, rfl, rfl, fun _ => rfl, fun _ => rfl,
          fun hend => absurd hend (not_phase_or_idle hb hp (by decide)),
          fun _ => ⟨rfl, rfl, fun _ => rfl⟩, by simp [hp], fun rd' n' hrd' hn' hexit => ?_, fun _ wr' hwr' a ha => ?_,
          by simp [hp]⟩
        · obtain rfl := Option.some.inj (hrd.symm.trans hrd')
          obtain rfl := Option.some.inj (hn.symm.trans hn')
          have hless : n < rd + 16 := by simpa [hp] using hexit
          omega
        · obtain rfl := Option.some.inj (hwr.symm.trans hwr')
          exact Memory.read_writeLanes_of_outside _ ha
    | dTail hp =>
      obtain ⟨rd, n, hrd, hn, ⟨-, rfl⟩ | ⟨hlt, -, wr, cap, d, v, hwr, -, -, -, -, rfl⟩⟩ := ruleDTail_cases hr
      · simp [hp]
      · refine ⟨rfl, rfl, rfl, fun _ => rfl, fun _ => rfl,
          fun hend => absurd hend (not_phase_or_idle hb hp (by decide)),
          fun _ => ⟨rfl, rfl, fun hnot => absurd hp hnot⟩, by simp [hp], fun rd' n' hrd' hn' hexit => ?_,
          fun _ wr' hwr' a ha => ?_, by simp [hp]⟩
        · obtain rfl := Option.some.inj (hrd.symm.trans hrd')
          obtain rfl := Option.some.inj (hn.symm.trans hn')
          have hnone : rd = n := by simpa [hp] using hexit
          omega
        · obtain rfl := Option.some.inj (hwr.symm.trans hwr')
          exact Memory.read_writeLanes_of_outside _ ha
    | dFinal hp =>
      obtain ⟨-, rfl⟩ | ⟨-, wr, -, rfl⟩ := ruleDFinal_cases hr
      · simp [hp, ErrCode.code]
      · simp [hp]
  · simp

/-- Settles O46: the command that `OP` names is the one that fires; each rule ends it with an error or `OK`. -/
theorem unitCommandFrame : Obligations.UnitCommandFrame := by
  intro i s t hi hb hp ho h
  cases i with
  | encode | decode => exact absurd hi (by decide)
  | encchunk =>
    rw [exec_fires hb (.encchunk hp ho)] at h
    obtain ⟨-, rfl⟩ | ⟨-, v, -, rfl⟩ := ruleEncchunk_cases h
    · simp [ErrCode.code]
    · refine ⟨rfl, rfl, rfl, rfl, rfl, rfl, rfl, by simp, by simp, fun _ _ a ha => ?_, by simp⟩
      exact Memory.read_writeLanes_of_outside _ (.inr (by omega))
  | decchunk =>
    rw [exec_fires hb (.decchunk hp ho)] at h
    obtain ⟨-, rfl⟩ | ⟨-, v, -, rfl⟩ := ruleDecchunk_cases h
    · simp [ErrCode.code]
    · refine ⟨rfl, rfl, rfl, rfl, rfl, rfl, rfl, by simp, by simp, fun _ _ a ha => ?_, by simp⟩
      exact Memory.read_writeLanes_of_outside _ (.inr (by omega))
  | enclen =>
    rw [exec_fires hb (.enclen hp ho)] at h
    obtain ⟨n, -, ⟨-, rfl⟩ | ⟨-, rfl⟩⟩ := ruleEnclen_cases h
    · simp [ErrCode.code]
    · simp
  | declen =>
    rw [exec_fires hb (.declen hp ho)] at h
    obtain ⟨n, -, ⟨-, rfl⟩ | ⟨d, -, rfl⟩⟩ := ruleDeclen_cases h
    · simp [ErrCode.code]
    · simp

end Sys2Proof.Machine

/-! PROOFS. Progress and termination of a running command, and what it reads of `IN` (20_memory.md R51, R53, R56,
60_exceptions.md R196, 43_stream_encode.md R153, 44_stream_decode.md R174). -/

namespace Sys2Proof.Machine

/-- A window within an input duty of `n` bytes is read, unless a byte of the duty is unwritten. -/
theorem State.window_or_unloaded {s : State} {a n : Nat} (hle : a + 16 ≤ n) (hin : n ≤ s.params.inMax) :
    (∃ v, s.window a = some v) ∨ (s.window a = none ∧ ¬ Loaded s.inBuf n) := by
  cases hv : s.window a with
  | some v => exact .inl ⟨v, rfl⟩
  | none =>
    refine .inr ⟨rfl, fun hload => ?_⟩
    obtain ⟨v, hsome⟩ := State.window_isSome (s := s) (a := a) (Nat.le_trans hle hin) fun i _ => hload _ (by omega)
    exact nomatch hv.symm.trans hsome

/-- So is a scratch window. -/
theorem State.scratch_or_unloaded {s : State} {a k n : Nat} (c : Byte) (hle : a + k ≤ n) (hin : n ≤ s.params.inMax) :
    (∃ v, s.scratch a k c = some v) ∨ (s.scratch a k c = none ∧ ¬ Loaded s.inBuf n) := by
  cases hv : s.scratch a k c with
  | some v => exact .inl ⟨v, rfl⟩
  | none =>
    refine .inr ⟨rfl, fun hload => ?_⟩
    obtain ⟨v, hsome⟩ := State.scratch_isSome (s := s) (a := a) c (Nat.le_trans hle hin) fun i _ => hload _ (by omega)
    exact nomatch hv.symm.trans hsome

/-- Stripping succeeds on an input in place. -/
theorem State.stripLen_of_loaded {s : State} {l : Nat} (hin : l ≤ s.params.inMax) (hload : Loaded s.inBuf l) :
    ∃ n, s.stripLen l = some n := by
  match l with
  | 0 => exact ⟨0, rfl⟩
  | 1 =>
    obtain ⟨b, hb⟩ := hload 0 (by decide)
    exact ⟨_, State.stripLen_one hin hb⟩
  | l + 2 =>
    obtain ⟨b, hb⟩ := hload l (by omega)
    obtain ⟨c, hc⟩ := hload (l + 1) (by omega)
    exact ⟨_, State.stripLen_add_two hin hb hc⟩

/-- R222: the duty of a stream command. -/
theorem State.inputDuty_of_stream {s : State} {o : BitVec 3} {l : Nat} (ho : s.op = some o) (hstream : o.toNat ≤ 1)
    (hl : s.len = some l) : s.inputDuty = l := by
  simp only [State.inputDuty, ho, hl, hstream, ↓reduceIte, Option.getD_some]

/-- R222: the duty of a chunk command. -/
theorem State.inputDuty_of_chunk {s : State} {o : BitVec 3} (ho : s.op = some o) (hlow : 1 < o.toNat)
    (hhigh : o.toNat ≤ 3) : s.inputDuty = 16 := by
  simp only [State.inputDuty, ho, Nat.not_le_of_lt hlow, hhigh, ↓reduceIte]

theorem EncodeAt.inputDuty_eq {s : State} {l r : Nat} (h : EncodeAt s l r) : s.inputDuty = l :=
  State.inputDuty_of_stream h.op (by decide) h.len

theorem DecodeAt.inputDuty_eq {s : State} {l n r : Nat} (h : DecodeAt s l n r) : s.inputDuty = l :=
  State.inputDuty_of_stream h.op (by decide) h.len

/-- The last window of the fast region lies in the input (R138 (b)). -/
theorem fast_window_le {l r : Nat} (hmod : r % 12 = 0) (hlt : r < fastEnd l) : r + 16 ≤ l := by
  have hfend := fastEnd_mod_twelve l
  have hle := fastEnd_add_four_le (l := l) (by omega)
  omega

/-- The window of a chunk command is its duty. -/
theorem State.chunkWindow_or_unloaded {s : State} {o : BitVec 3} (ho : s.op = some o) (hlow : 1 < o.toNat)
    (hhigh : o.toNat ≤ 3) (hin : 16 ≤ s.params.inMax) : (∃ v, s.window 0 = some v) ∨
      (s.window 0 = none ∧ ¬ Loaded s.inBuf (min s.inputDuty s.params.inMax)) := by
  rw [State.inputDuty_of_chunk ho hlow hhigh, Nat.min_eq_left hin]
  exact State.window_or_unloaded (Nat.le_refl 16) hin

/-- What a rule of a running command answers: a next state, or the stop at an input byte that is not in place. -/
def NextOrUnloaded (s : State) (o : Out) : Prop :=
  (∃ t, o = .next t) ∨ (o = .fault .stuckRead ∧ ¬ Loaded s.inBuf (min s.inputDuty s.params.inMax))

section
variable {s : State} (h : s.Inv)
include h

theorem ruleECheck_progress (hp : s.phase = .eCheck) : NextOrUnloaded s (ruleECheck s) := by
  obtain ⟨-, -, l, hl⟩ := (seqOk_eCheck hp).mp h.seq
  rw [ruleECheck_eq hl]
  refine .inl ?_
  split
  · exact ⟨_, rfl⟩
  · split
    · exact ⟨_, rfl⟩
    · exact ⟨_, rfl⟩

theorem ruleEFast_progress (hp : s.phase = .eFast) : NextOrUnloaded s (ruleEFast s) := by
  obtain ⟨l, r, hat, hmod, -⟩ := (seqOk_eFast hp).mp h.seq
  have hduty : min s.inputDuty s.params.inMax = l := by rw [hat.inputDuty_eq, Nat.min_eq_left hat.inFits]
  by_cases hlt : r < fastEnd l
  · obtain ⟨v, hv⟩ | ⟨hnone, hunloaded⟩ := State.window_or_unloaded (s := s) (fast_window_le hmod hlt) hat.inFits
    · exact .inl ⟨_, ruleEFast_iteration hat.rd hat.fend hlt hat.wr hat.cap hat.store_le hv⟩
    · exact .inr ⟨ruleEFast_stuck hat.rd hat.fend hlt hat.wr hat.cap hnone, hduty ▸ hunloaded⟩
  · exact .inl ⟨_, ruleEFast_exit hat.rd hat.fend (Nat.le_of_not_lt hlt)⟩

theorem ruleETail_progress (hp : s.phase = .eTail) : NextOrUnloaded s (ruleETail s) := by
  obtain ⟨l, r, hat, -⟩ := (seqOk_eTail hp).mp h.seq
  have hduty : min s.inputDuty s.params.inMax = l := by rw [hat.inputDuty_eq, Nat.min_eq_left hat.inFits]
  by_cases hlt : r < l
  · have hle : r + min 12 (l - r) ≤ l := by omega
    obtain ⟨v, hv⟩ | ⟨hnone, hunloaded⟩ := State.scratch_or_unloaded (s := s) Config.encFill hle hat.inFits
    · exact .inl ⟨_, ruleETail_iteration hat.rd hat.len hlt hat.wr hat.cap hat.store_le hv⟩
    · exact .inr ⟨ruleETail_stuck hat.rd hat.len hlt hat.wr hat.cap hnone, hduty ▸ hunloaded⟩
  · exact .inl ⟨_, ruleETail_exit hat.rd hat.len (Nat.le_of_not_lt hlt)⟩

theorem ruleEFinal_progress (hp : s.phase = .eFinal) : NextOrUnloaded s (ruleEFinal s) := by
  obtain ⟨l, hat⟩ := (seqOk_eFinal hp).mp h.seq
  refine .inl ⟨_, ruleEFinal_eq hat.wr hat.cap (padding_encLen l) ?_⟩
  rw [List.length_replicate, encLen_eq]
  omega

theorem ruleDTrim_progress (hp : s.phase = .dTrim) : NextOrUnloaded s (ruleDTrim s) := by
  obtain ⟨hop, -, l, hl⟩ := (seqOk_dTrim hp).mp h.seq
  by_cases hin : l ≤ s.params.inMax
  · cases hn : s.stripLen l with
    | none =>
      refine .inr ⟨ruleDTrim_stuck hl hin hn, fun hload => ?_⟩
      rw [State.inputDuty_of_stream hop (by decide) hl, Nat.min_eq_left hin] at hload
      obtain ⟨n, hsome⟩ := State.stripLen_of_loaded hin hload
      exact nomatch hn.symm.trans hsome
    | some n =>
      refine .inl ?_
      by_cases hempty : n = 0
      · exact ⟨_, ruleDTrim_of_empty hl hin hn hempty⟩
      · by_cases hbad : n % 4 = 1
        · exact ⟨_, ruleDTrim_of_badLength hl hin hn hbad⟩
        · obtain ⟨d, hd⟩ := decLen_isSome hbad
          by_cases hout : d + 16 ≤ s.params.outMax
          · exact ⟨_, ruleDTrim_passes hl hin hn hempty hd hout⟩
          · exact ⟨_, ruleDTrim_of_outMax_lt hl hin hn hempty hd (Nat.lt_of_not_le hout)⟩
  · exact .inl ⟨_, ruleDTrim_of_inMax_lt hl (Nat.lt_of_not_le hin)⟩

theorem ruleDFast_progress (hp : s.phase = .dFast) : NextOrUnloaded s (ruleDFast s) := by
  obtain ⟨l, n, r, hat, hmod⟩ := (seqOk_dFast hp).mp h.seq
  have hduty : min s.inputDuty s.params.inMax = l := by rw [hat.inputDuty_eq, Nat.min_eq_left hat.inFits]
  by_cases hle : r + 16 ≤ n
  · obtain ⟨w, cap, -, hwr, hcap, hstore⟩ := hat.store_le (by omega)
    have hwindow : r + 16 ≤ l := Nat.le_trans hle (State.stripLen_le hat.strip).1
    obtain ⟨v, hv⟩ | ⟨hnone, hunloaded⟩ := State.window_or_unloaded (s := s) hwindow hat.inFits
    · exact .inl ⟨_, ruleDFast_iteration hat.rd hat.slen hle hwr hcap hstore hv⟩
    · exact .inr ⟨ruleDFast_stuck hat.rd hat.slen hle hwr hcap hnone, hduty ▸ hunloaded⟩
  · exact .inl ⟨_, ruleDFast_exit hat.rd hat.slen (Nat.lt_of_not_le hle)⟩

theorem ruleDTail_progress (hp : s.phase = .dTail) : NextOrUnloaded s (ruleDTail s) := by
  obtain ⟨l, n, hat⟩ := (seqOk_dTail hp).mp h.seq
  have hduty : min s.inputDuty s.params.inMax = l := by rw [hat.inputDuty_eq, Nat.min_eq_left hat.inFits]
  by_cases hempty : 16 * (n / 16) = n
  · rw [hempty] at hat
    exact .inl ⟨_, ruleDTail_empty hat.rd hat.slen⟩
  · have hresidue := hat.residue
    have hpayload := (State.stripLen_le hat.strip).1
    have hscratch : 16 * (n / 16) + (n - 16 * (n / 16)) ≤ l := by omega
    obtain ⟨w, cap, -, hwr, hcap, hstore⟩ := hat.store_le (by omega)
    obtain ⟨d, hd⟩ : ∃ d, decLen (n - 16 * (n / 16)) = some d := decLen_isSome (by omega)
    obtain ⟨v, hv⟩ | ⟨hnone, hunloaded⟩ := State.scratch_or_unloaded (s := s) Config.decFill hscratch hat.inFits
    · exact .inl ⟨_, ruleDTail_chunk hat.rd hat.slen (by omega) (by omega) hwr hcap hstore hd hv⟩
    · exact .inr ⟨ruleDTail_stuck hat.rd hat.slen (by omega) (by omega) hwr hcap hd hnone, hduty ▸ hunloaded⟩

theorem ruleDFinal_progress (hp : s.phase = .dFinal) : NextOrUnloaded s (ruleDFinal s) := by
  obtain ⟨l, n, hat⟩ := (seqOk_dFinal hp).mp h.seq
  obtain ⟨w, cap, -, hwr, -⟩ := hat.store_le hat.residue
  cases herr : s.err with
  | true => exact .inl ⟨_, ruleDFinal_of_err herr⟩
  | false => exact .inl ⟨_, ruleDFinal_of_ok herr hwr⟩

/-- The length commands latched a length (R177). -/
theorem len_of_lengthCommand (hp : s.phase = .uExec) (ho : s.op = some 4#3 ∨ s.op = some 5#3) :
    ∃ n, s.len = some n := by
  obtain ⟨-, hchunk | hchunk | ⟨-, hlen⟩⟩ := (seqOk_uExec hp).mp h.seq
  · obtain ho | ho := ho <;> exact absurd (hchunk.symm.trans ho) (by decide)
  · obtain ho | ho := ho <;> exact absurd (hchunk.symm.trans ho) (by decide)
  · exact hlen

theorem Fires.progress {i : Instr} {r : State → Out} (f : Fires i s r) : NextOrUnloaded s (r s) := by
  cases f with
  | eCheck hp => exact ruleECheck_progress h hp
  | eFast hp => exact ruleEFast_progress h hp
  | eTail hp => exact ruleETail_progress h hp
  | eFinal hp => exact ruleEFinal_progress h hp
  | dTrim hp => exact ruleDTrim_progress h hp
  | dFast hp => exact ruleDFast_progress h hp
  | dTail hp => exact ruleDTail_progress h hp
  | dFinal hp => exact ruleDFinal_progress h hp
  | encchunk hp ho =>
    by_cases hin : 16 ≤ s.params.inMax
    · obtain ⟨v, hv⟩ | ⟨hnone, hunloaded⟩ := State.chunkWindow_or_unloaded ho (by decide) (by decide) hin
      · exact .inl ⟨_, ruleEncchunk_of_window hin hv⟩
      · exact .inr ⟨ruleEncchunk_stuck hin hnone, hunloaded⟩
    · exact .inl ⟨_, ruleEncchunk_of_range (Nat.lt_of_not_le hin)⟩
  | decchunk hp ho =>
    by_cases hin : 16 ≤ s.params.inMax
    · obtain ⟨v, hv⟩ | ⟨hnone, hunloaded⟩ := State.chunkWindow_or_unloaded ho (by decide) (by decide) hin
      · exact .inl ⟨_, ruleDecchunk_of_window hin hv⟩
      · exact .inr ⟨ruleDecchunk_stuck hin hnone, hunloaded⟩
    · exact .inl ⟨_, ruleDecchunk_of_range (Nat.lt_of_not_le hin)⟩
  | enclen hp ho =>
    obtain ⟨n, hn⟩ := len_of_lengthCommand h hp (.inl ho)
    rw [ruleEnclen_eq hn]
    refine .inl ?_
    split
    · exact ⟨_, rfl⟩
    · exact ⟨_, rfl⟩
  | declen hp ho =>
    obtain ⟨n, hn⟩ := len_of_lengthCommand h hp (.inr ho)
    cases hd : decLen n with
    | none => exact .inl ⟨_, ruleDeclen_of_none hn hd⟩
    | some d => exact .inl ⟨_, ruleDeclen_of_some hn hd⟩

/-- R232: while a command runs, exactly one rule is its rule. -/
theorem State.Inv.fires (hb : s.busy = true) : ∃ i r, Fires i s r := by
  have hseq := h.seq
  cases hp : s.phase with
  | idle => exact absurd (hb.symm.trans (h.status.idle.mp hp)) nofun
  | eCheck => exact ⟨_, _, .eCheck hp⟩
  | eFast => exact ⟨_, _, .eFast hp⟩
  | eTail => exact ⟨_, _, .eTail hp⟩
  | eFinal => exact ⟨_, _, .eFinal hp⟩
  | dTrim => exact ⟨_, _, .dTrim hp⟩
  | dFast => exact ⟨_, _, .dFast hp⟩
  | dTail => exact ⟨_, _, .dTail hp⟩
  | dFinal => exact ⟨_, _, .dFinal hp⟩
  | uExec =>
    obtain ⟨-, ho | ho | ⟨ho | ho, -⟩⟩ := (seqOk_uExec hp).mp hseq
    · exact ⟨_, _, .encchunk hp ho⟩
    · exact ⟨_, _, .decchunk hp ho⟩
    · exact ⟨_, _, .enclen hp ho⟩
    · exact ⟨_, _, .declen hp ho⟩

theorem State.Inv.step_progress (hb : s.busy = true) (hh : s.host = []) : NextOrUnloaded s (step s) := by
  obtain ⟨i, r, hf⟩ := h.fires hb
  rw [step_fires hh hb hf]
  exact hf.progress h

end

/-- Settles O51: the rule that fires answers a next state, or stops at an unwritten byte of its duty. -/
theorem onlyUnwrittenInputStopsACommand : Obligations.OnlyUnwrittenInputStopsACommand := by
  intro s h hb hh
  obtain ⟨t, ht⟩ | ⟨hstuck, hunloaded⟩ := h.step_progress hb hh
  · exact ⟨fun r hr => absurd (ht.symm.trans hr) nofun, fun f hf => absurd (ht.symm.trans hf) nofun, fun _ => ⟨t, ht⟩⟩
  · refine ⟨fun r hr => absurd (hstuck.symm.trans hr) nofun, fun f hf => ?_, fun hload => absurd hload hunloaded⟩
    cases hstuck.symm.trans hf
    rfl

/-! Termination. -/

/-- How many more rules the running command can fire (R153, R174). -/
def State.stepsLeft (s : State) : Nat :=
  match s.phase with
  | .idle => 0
  | .eCheck | .dTrim => s.len.getD 0 / 12 + 6
  | .eFast => (s.len.getD 0 - s.rd.getD 0 + 11) / 12 + 3
  | .eTail => (s.len.getD 0 - s.rd.getD 0 + 11) / 12 + 2
  | .dFast => (s.slen.getD 0 - s.rd.getD 0) / 16 + 3
  | .dTail => 2
  | .eFinal | .dFinal | .uExec => 1

theorem stepsLeft_pos {s : State} (hp : s.phase ≠ .idle) : 0 < s.stepsLeft := by
  unfold State.stepsLeft
  split
  · exact absurd ‹_› hp
  all_goals omega

/-- Under the invariant the bound is linear in the length. -/
theorem State.Inv.stepsLeft_le {s : State} (h : s.Inv) : s.stepsLeft ≤ s.len.getD 0 / 12 + 6 := by
  have hseq := h.seq
  cases hp : s.phase with
  | idle | eCheck | eFinal | dTrim | dTail | dFinal | uExec =>
    simp only [State.stepsLeft, hp]
    omega
  | eFast =>
    obtain ⟨l, r, hat, -, -⟩ := (seqOk_eFast hp).mp hseq
    simp only [State.stepsLeft, hp, hat.len, hat.rd, Option.getD_some]
    omega
  | eTail =>
    obtain ⟨l, r, hat, -⟩ := (seqOk_eTail hp).mp hseq
    simp only [State.stepsLeft, hp, hat.len, hat.rd, Option.getD_some]
    omega
  | dFast =>
    obtain ⟨l, n, r, hat, -⟩ := (seqOk_dFast hp).mp hseq
    have hpayload := (State.stripLen_le hat.strip).1
    simp only [State.stepsLeft, hp, hat.slen, hat.rd, hat.len, Option.getD_some]
    omega

/-- The phases from which a command can go on (R22). -/
theorem GoesOn.start_mem {s t : State} (h : GoesOn s t) : s.phase ∈ [.eCheck, .eFast, .eTail, .dTrim, .dFast, .dTail] :=
  have all : ∀ x ∈ movesOn, x.1 ∈ [Phase.eCheck, .eFast, .eTail, .dTrim, .dFast, .dTail] := by decide
  all _ h.phase

/-- A rule by which the command goes on leaves fewer. -/
theorem GoesOn.stepsLeft_lt {i : Instr} {s t : State} {r : State → Out} (hon : GoesOn s t) (f : Fires i s r)
    (h : s.Inv) (hr : r s = .next t) : t.stepsLeft < s.stepsLeft := by
  have hne := hon.phase_ne_idle.2
  cases f with
  | eCheck hp =>
    obtain ⟨l, hl, ⟨-, rfl⟩ | ⟨-, -, rfl⟩ | ⟨-, -, -, rfl⟩⟩ := ruleECheck_cases hr
    · exact absurd rfl hne
    · exact absurd rfl hne
    · simp only [State.stepsLeft, hp, hl, Option.getD_some]
      omega
  | eFast hp =>
    obtain ⟨l, r, hat, hmod, -⟩ := (seqOk_eFast hp).mp h.seq
    obtain ⟨rd, fend, hrd, hfend, hcase⟩ := ruleEFast_cases hr
    obtain rfl := Option.some.inj (hat.rd.symm.trans hrd)
    obtain rfl := Option.some.inj (hat.fend.symm.trans hfend)
    obtain ⟨-, rfl⟩ | ⟨hlt, _, _, _, -, -, -, -, rfl⟩ := hcase
    · simp only [State.stepsLeft, hp]
      omega
    · have hle := fast_window_le hmod hlt
      simp only [State.stepsLeft, hp, hat.len, hrd, Option.getD_some]
      omega
  | eTail hp =>
    obtain ⟨rd, l, hrd, hl, ⟨-, rfl⟩ | ⟨hlt, _, _, _, -, -, -, -, rfl⟩⟩ := ruleETail_cases hr
    · simp only [State.stepsLeft, hp]
      omega
    · simp only [State.stepsLeft, hp, hl, hrd, Option.getD_some]
      omega
  | dTrim hp =>
    obtain ⟨l, hl, ⟨-, rfl⟩ | ⟨-, n, hn, ⟨-, rfl⟩ | ⟨-, rfl⟩ | ⟨-, -, d, -, ⟨-, rfl⟩ | ⟨-, rfl⟩⟩⟩⟩ := ruleDTrim_cases hr
    iterate 4 exact absurd rfl hne
    have hpayload := (State.stripLen_le hn).1
    simp only [State.stepsLeft, hp, hl, Option.getD_some]
    omega
  | dFast hp =>
    obtain ⟨rd, n, hrd, hn, ⟨-, rfl⟩ | ⟨hle, _, _, _, -, -, -, -, rfl⟩⟩ := ruleDFast_cases hr
    · simp only [State.stepsLeft, hp]
      omega
    · simp only [State.stepsLeft, hp, hn, hrd, Option.getD_some]
      omega
  | dTail hp =>
    obtain ⟨rd, n, -, -, ⟨-, rfl⟩ | ⟨-, -, _, _, _, _, -, -, -, -, -, rfl⟩⟩ := ruleDTail_cases hr
    · simp only [State.stepsLeft, hp]
      exact Nat.one_lt_two
    · simp only [State.stepsLeft, hp]
      exact Nat.one_lt_two
  | eFinal hp | dFinal hp | encchunk hp | decchunk hp | enclen hp | declen hp =>
    exact absurd (hp ▸ hon.start_mem) (by decide)

/-- R222: the duty and what is in place do not change while the command runs. -/
theorem CommandFrame.loaded {s t : State} (h : CommandFrame s t)
    (hload : Loaded s.inBuf (min s.inputDuty s.params.inMax)) : Loaded t.inBuf (min t.inputDuty t.params.inMax) := by
  rwa [State.inputDuty, h.op, h.len, h.inBuf, h.params]

/-- With its input in place, a running command ends after as many steps as its rules can fire. -/
theorem run_ends (k : Nat) {s : State} (h : s.Inv) (hb : s.busy = true) (hh : s.host = [])
    (hload : Loaded s.inBuf (min s.inputDuty s.params.inMax)) (hk : s.stepsLeft ≤ k) :
    ∃ n t, n ≤ k ∧ Host.Core.run Sys2Proof.core n s = .next t ∧ t.busy = false ∧ t.done = true := by
  obtain ⟨i, r, hf⟩ := h.fires hb
  induction k generalizing s i r with
  | zero =>
    have hidle : s.phase ≠ .idle := fun hp => nomatch hb.symm.trans (h.status.idle.mp hp)
    exact absurd (stepsLeft_pos hidle) (Nat.not_lt_of_le hk)
  | succ k ih =>
    obtain ⟨t, hr⟩ := (hf.progress h).resolve_right fun hstuck => hstuck.2 hload
    have hstep := (step_fires hh hb hf).trans hr
    have hkept := hf.frame hr
    obtain hon | hend := hf.goesOn_or_ends hr
    · have hbt := hon.busy_eq.trans hb
      have hinv := hf.keeps_inv h hb hr
      obtain ⟨j, q, hnext⟩ := hinv.fires hbt
      obtain ⟨n, u, hn, hrun, hu⟩ := ih hinv hbt (hkept.host.trans hh) (hkept.loaded hload)
        (Nat.le_of_lt_succ (Nat.lt_of_lt_of_le (hon.stepsLeft_lt hf h hr) hk)) j q hnext
      exact ⟨n + 1, u, Nat.succ_le_succ hn, (run_next n hstep).trans hrun, hu⟩
    · exact ⟨1, t, Nat.le_add_left 1 k, run_next 0 hstep, hend.busy_eq, hend.done_eq⟩

/-- Settles O54: the rules that can still fire are bounded by the length. -/
theorem everyCommandEnds : Obligations.EveryCommandEnds := fun _ h hb hh hload =>
  run_ends _ h hb hh hload h.stepsLeft_le

end Sys2Proof.Machine

/-! PROOFS. A running command reads no byte of `IN` beyond its duty (20_memory.md R51, 10_state.md R38). -/

namespace Sys2Proof.Machine

section
variable {s : State} {m : Memory} {d : Nat} (hm : ∀ c < d, m.read c = s.inBuf.read c)
include hm

theorem State.memRead_withInput {a n : Nat} (hle : a + n ≤ d) :
    State.memRead { s with inBuf := m } a n = s.memRead a n := by
  simp only [State.memRead, Memory.readBytes_congr n m s.inBuf a fun i hi => hm _ (by omega)]

theorem State.window_withInput {a : Nat} (hle : a + 16 ≤ d) : State.window { s with inBuf := m } a = s.window a := by
  rw [State.window, State.memRead_withInput hm hle, State.window]

theorem State.scratch_withInput {a k : Nat} (c : Byte) (hle : a + k ≤ d) :
    State.scratch { s with inBuf := m } a k c = s.scratch a k c := by
  rw [State.scratch, State.memRead_withInput hm hle, State.scratch]

theorem State.stripLen_withInput {l : Nat} (hle : l ≤ d) :
    State.stripLen { s with inBuf := m } l = s.stripLen l := by
  match l with
  | 0 => rfl
  | 1 => rw [State.stripLen, State.memRead_withInput hm hle, State.stripLen]
  | l + 2 => rw [State.stripLen, State.memRead_withInput hm hle, State.stripLen]

end

/-- The running command is named by `PHASE` and `OP` alone. -/
theorem Fires.congr {i : Instr} {s u : State} {r : State → Out} (f : Fires i s r) (hphase : u.phase = s.phase)
    (hop : u.op = s.op) : Fires i u r := by
  cases f with
  | eCheck hp => exact .eCheck (hphase.trans hp)
  | eFast hp => exact .eFast (hphase.trans hp)
  | eTail hp => exact .eTail (hphase.trans hp)
  | eFinal hp => exact .eFinal (hphase.trans hp)
  | dTrim hp => exact .dTrim (hphase.trans hp)
  | dFast hp => exact .dFast (hphase.trans hp)
  | dTail hp => exact .dTail (hphase.trans hp)
  | dFinal hp => exact .dFinal (hphase.trans hp)
  | encchunk hp ho => exact .encchunk (hphase.trans hp) (hop.trans ho)
  | decchunk hp ho => exact .decchunk (hphase.trans hp) (hop.trans ho)
  | enclen hp ho => exact .enclen (hphase.trans hp) (hop.trans ho)
  | declen hp ho => exact .declen (hphase.trans hp) (hop.trans ho)

section
variable {s t : State} {m : Memory} (h : s.Inv) (hm : ∀ c < s.inputDuty, m.read c = s.inBuf.read c)

theorem ruleECheck_withInput (hr : ruleECheck s = .next t) :
    ruleECheck { s with inBuf := m } = .next { t with inBuf := m } := by
  obtain ⟨l, hl, ⟨hzero, rfl⟩ | ⟨hpos, hrange, rfl⟩ | ⟨hpos, hin, hout, rfl⟩⟩ := ruleECheck_cases hr
  · exact (ruleECheck_eq (s := { s with inBuf := m }) hl).trans (if_pos hzero)
  · exact (ruleECheck_eq (s := { s with inBuf := m }) hl).trans
      ((if_neg (Nat.ne_of_gt hpos)).trans (if_pos hrange))
  · exact ruleECheck_passes (s := { s with inBuf := m }) hl hpos hin hout

theorem ruleEFinal_withInput (hr : ruleEFinal s = .next t) :
    ruleEFinal { s with inBuf := m } = .next { t with inBuf := m } := by
  obtain ⟨wr, cap, pads, hwr, hcap, hpads, hstore, rfl⟩ := ruleEFinal_cases hr
  exact ruleEFinal_eq (s := { s with inBuf := m }) hwr hcap hpads hstore

theorem ruleDFinal_withInput (hr : ruleDFinal s = .next t) :
    ruleDFinal { s with inBuf := m } = .next { t with inBuf := m } := by
  obtain ⟨herr, rfl⟩ | ⟨herr, wr, hwr, rfl⟩ := ruleDFinal_cases hr
  · exact ruleDFinal_of_err (s := { s with inBuf := m }) herr
  · exact ruleDFinal_of_ok (s := { s with inBuf := m }) herr hwr

theorem ruleEnclen_withInput (hr : ruleEnclen s = .next t) :
    ruleEnclen { s with inBuf := m } = .next { t with inBuf := m } := by
  obtain ⟨n, hn, ⟨hwide, rfl⟩ | ⟨hfits, rfl⟩⟩ := ruleEnclen_cases hr
  · exact (ruleEnclen_eq (s := { s with inBuf := m }) hn).trans (if_pos hwide)
  · exact (ruleEnclen_eq (s := { s with inBuf := m }) hn).trans (if_neg (Nat.not_le_of_lt hfits))

theorem ruleDeclen_withInput (hr : ruleDeclen s = .next t) :
    ruleDeclen { s with inBuf := m } = .next { t with inBuf := m } := by
  obtain ⟨n, hn, ⟨hd, rfl⟩ | ⟨d, hd, rfl⟩⟩ := ruleDeclen_cases hr
  · exact ruleDeclen_of_none (s := { s with inBuf := m }) hn hd
  · exact ruleDeclen_of_some (s := { s with inBuf := m }) hn hd

include hm

theorem ruleEncchunk_withInput (ho : s.op = some 2#3) (hr : ruleEncchunk s = .next t) :
    ruleEncchunk { s with inBuf := m } = .next { t with inBuf := m } := by
  have hduty : s.inputDuty = 16 := State.inputDuty_of_chunk ho (by decide) (by decide)
  obtain ⟨hrange, rfl⟩ | ⟨hin, v, hv, rfl⟩ := ruleEncchunk_cases hr
  · exact ruleEncchunk_of_range (s := { s with inBuf := m }) hrange
  · have hwindow := (State.window_withInput (a := 0) hm (by omega)).trans hv
    exact ruleEncchunk_of_window (s := { s with inBuf := m }) hin hwindow

theorem ruleDecchunk_withInput (ho : s.op = some 3#3) (hr : ruleDecchunk s = .next t) :
    ruleDecchunk { s with inBuf := m } = .next { t with inBuf := m } := by
  have hduty : s.inputDuty = 16 := State.inputDuty_of_chunk ho (by decide) (by decide)
  obtain ⟨hrange, rfl⟩ | ⟨hin, v, hv, rfl⟩ := ruleDecchunk_cases hr
  · exact ruleDecchunk_of_range (s := { s with inBuf := m }) hrange
  · have hwindow := (State.window_withInput (a := 0) hm (by omega)).trans hv
    exact ruleDecchunk_of_window (s := { s with inBuf := m }) hin hwindow

include h

theorem ruleEFast_withInput (hp : s.phase = .eFast) (hr : ruleEFast s = .next t) :
    ruleEFast { s with inBuf := m } = .next { t with inBuf := m } := by
  obtain ⟨l, r, hat, hmod, -⟩ := (seqOk_eFast hp).mp h.seq
  obtain ⟨rd, fend, hrd, hfend, hcase⟩ := ruleEFast_cases hr
  obtain rfl := Option.some.inj (hat.rd.symm.trans hrd)
  obtain rfl := Option.some.inj (hat.fend.symm.trans hfend)
  obtain ⟨hexit, rfl⟩ | ⟨hlt, wr, cap, v, hwr, hcap, hv, hstore, rfl⟩ := hcase
  · exact ruleEFast_exit (s := { s with inBuf := m }) hrd hfend hexit
  · have hwindow := (State.window_withInput hm (hat.inputDuty_eq ▸ fast_window_le hmod hlt)).trans hv
    exact ruleEFast_iteration (s := { s with inBuf := m }) hrd hfend hlt hwr hcap hstore hwindow

theorem ruleETail_withInput (hp : s.phase = .eTail) (hr : ruleETail s = .next t) :
    ruleETail { s with inBuf := m } = .next { t with inBuf := m } := by
  obtain ⟨l, r, hat, -⟩ := (seqOk_eTail hp).mp h.seq
  have hduty := hat.inputDuty_eq
  obtain ⟨rd, len, hrd, hlen, hcase⟩ := ruleETail_cases hr
  obtain rfl := Option.some.inj (hat.rd.symm.trans hrd)
  obtain rfl := Option.some.inj (hat.len.symm.trans hlen)
  obtain ⟨hexit, rfl⟩ | ⟨hlt, wr, cap, v, hwr, hcap, hv, hstore, rfl⟩ := hcase
  · exact ruleETail_exit (s := { s with inBuf := m }) hrd hlen hexit
  · have hscratch := (State.scratch_withInput hm Config.encFill (by omega)).trans hv
    exact ruleETail_iteration (s := { s with inBuf := m }) hrd hlen hlt hwr hcap hstore hscratch

theorem ruleDTrim_withInput (hp : s.phase = .dTrim) (hr : ruleDTrim s = .next t) :
    ruleDTrim { s with inBuf := m } = .next { t with inBuf := m } := by
  obtain ⟨hop, -, -⟩ := (seqOk_dTrim hp).mp h.seq
  obtain ⟨l, hl, ⟨hrange, rfl⟩ | ⟨hin, n, hn, hcase⟩⟩ := ruleDTrim_cases hr
  · exact ruleDTrim_of_inMax_lt (s := { s with inBuf := m }) hl hrange
  have hduty : s.inputDuty = l := State.inputDuty_of_stream hop (by decide) hl
  have hstrip := (State.stripLen_withInput hm (Nat.le_of_eq hduty.symm)).trans hn
  obtain ⟨hzero, rfl⟩ | ⟨hbad, rfl⟩ | ⟨hpos, -, d, hd, ⟨hrange, rfl⟩ | ⟨hout, rfl⟩⟩ := hcase
  · exact ruleDTrim_of_empty (s := { s with inBuf := m }) hl hin hstrip hzero
  · exact ruleDTrim_of_badLength (s := { s with inBuf := m }) hl hin hstrip hbad
  · exact ruleDTrim_of_outMax_lt (s := { s with inBuf := m }) hl hin hstrip (Nat.ne_of_gt hpos) hd hrange
  · exact ruleDTrim_passes (s := { s with inBuf := m }) hl hin hstrip (Nat.ne_of_gt hpos) hd hout

theorem ruleDFast_withInput (hp : s.phase = .dFast) (hr : ruleDFast s = .next t) :
    ruleDFast { s with inBuf := m } = .next { t with inBuf := m } := by
  obtain ⟨l, n, r, hat, -⟩ := (seqOk_dFast hp).mp h.seq
  have hduty := hat.inputDuty_eq
  have hpayload := (State.stripLen_le hat.strip).1
  obtain ⟨rd, slen, hrd, hslen, hcase⟩ := ruleDFast_cases hr
  obtain rfl := Option.some.inj (hat.slen.symm.trans hslen)
  obtain ⟨hexit, rfl⟩ | ⟨hle, wr, cap, v, hwr, hcap, hv, hstore, rfl⟩ := hcase
  · exact ruleDFast_exit (s := { s with inBuf := m }) hrd hslen hexit
  · have hwindow := (State.window_withInput hm (by omega)).trans hv
    exact ruleDFast_iteration (s := { s with inBuf := m }) hrd hslen hle hwr hcap hstore hwindow

theorem ruleDTail_withInput (hp : s.phase = .dTail) (hr : ruleDTail s = .next t) :
    ruleDTail { s with inBuf := m } = .next { t with inBuf := m } := by
  obtain ⟨l, n, hat⟩ := (seqOk_dTail hp).mp h.seq
  have hduty := hat.inputDuty_eq
  have hpayload := (State.stripLen_le hat.strip).1
  obtain ⟨rd, slen, hrd, hslen, hcase⟩ := ruleDTail_cases hr
  obtain rfl := Option.some.inj (hat.slen.symm.trans hslen)
  obtain ⟨rfl, rfl⟩ | ⟨hlt, hle, wr, cap, d, v, hwr, hcap, hd, hv, hstore, rfl⟩ := hcase
  · exact ruleDTail_empty (s := { s with inBuf := m }) hrd hslen
  · have hscratch := (State.scratch_withInput hm Config.decFill (by omega)).trans hv
    exact ruleDTail_chunk (s := { s with inBuf := m }) hrd hslen hlt hle hwr hcap hstore hd hscratch

theorem Fires.next_withInput {i : Instr} {r : State → Out} (f : Fires i s r) (hr : r s = .next t) :
    r { s with inBuf := m } = .next { t with inBuf := m } := by
  cases f with
  | eCheck => exact ruleECheck_withInput hr
  | eFast hp => exact ruleEFast_withInput h hm hp hr
  | eTail hp => exact ruleETail_withInput h hm hp hr
  | eFinal => exact ruleEFinal_withInput hr
  | dTrim hp => exact ruleDTrim_withInput h hm hp hr
  | dFast hp => exact ruleDFast_withInput h hm hp hr
  | dTail hp => exact ruleDTail_withInput h hm hp hr
  | dFinal => exact ruleDFinal_withInput hr
  | encchunk _ ho => exact ruleEncchunk_withInput hm ho hr
  | decchunk _ ho => exact ruleDecchunk_withInput hm ho hr
  | enclen => exact ruleEnclen_withInput hr
  | declen => exact ruleDeclen_withInput hr

end

/-- Settles O52: the same rule fires on the other input, and its reads lie within the duty. -/
theorem commandsDoNotOverRead : Obligations.CommandsDoNotOverRead := by
  intro s t m h hb hh hm hstep
  obtain ⟨i, r, hf, hr⟩ := step_cases_of_busy hh hb hstep
  exact (step_fires (s := { s with inBuf := m }) hh hb (hf.congr rfl rfl)).trans (hf.next_withInput h hm hr)

end Sys2Proof.Machine

/-! PROOFS. The stream commands end to end, and what of `DECODE` depends on the open parameters (42_chunk_decoder.md
R122, R123, 43_stream_encode.md R152, R153, 44_stream_decode.md R169 to R174). -/

namespace Sys2Proof.Machine

/-- Settles O55: the run of `ENCODE` from acceptance through its two loops to the padding. -/
theorem encodeProducesThePaddedText : Obligations.EncodeProducesThePaddedText := fun _ _ hh hb hl hpos hin hout hload =>
  run_encode hh hb hl hpos hin hout hload

/-- `DECODE` that ends in `D_TRIM`, from the write of its word. -/
theorem run_decode_ends_in_dTrim {s t : State} {l : Nat}
    (hh : s.host = [.access (.writeReg 0 (encode .decode).toNat)]) (hb : s.busy = false) (hl : s.srcLen = some l)
    (hr : ruleDTrim (State.accepted { s with host := [] } .decode) = .next t) :
    Host.Core.run Sys2Proof.core 2 s = .next t :=
  have ha := accepted_runsFrom s .decode
  (run_next 1 (step_accepts hh hb hl)).trans (run_next 0 ((ha.step_eq (.dTrim ha.phase)).trans hr))

/-- Acceptance does not touch what stripping reads. -/
theorem stripLen_accepted (s : State) (i : Instr) (l : Nat) :
    (State.accepted { s with host := [] } i).stripLen l = s.stripLen l :=
  State.stripLen_congr rfl rfl l

/-- Settles O56: an empty payload ends in `D_TRIM`, any other runs to its verdict. -/
theorem decodeProducesTheData : Obligations.DecodeProducesTheData := by
  intro s l n d hh hb hl hin hload hn hd hout hlegal
  by_cases hempty : n = 0
  · subst hempty
    obtain rfl := Option.some.inj (decLen_zero.symm.trans hd)
    have htrim := ruleDTrim_of_empty (s := State.accepted { s with host := [] } .decode) hl hin
      ((stripLen_accepted s .decode l).trans hn) rfl
    exact ⟨_, run_decode_ends_in_dTrim hh hb hl htrim, rfl, rfl, fun a ha => absurd ha (Nat.not_lt_zero a), rfl, rfl⟩
  · rw [if_neg hempty]
    have hpayload := (State.stripLen_le hn).1
    exact run_decode (fun i hi => hload i (by omega)) hh hb hl hin hn (Nat.pos_of_ne_zero hempty) hd
      (hout.resolve_left hempty) hlegal

/-- Settles O57: a bad length is found in `D_TRIM`; an illegal byte is in the sticky flag when the verdict is made. -/
theorem decodeRejectsBadPayloads : Obligations.DecodeRejectsBadPayloads := by
  intro s l n hh hb hl hin hload hn hbad
  by_cases hlen : n % 4 = 1
  · rw [if_pos hlen]
    have htrim := ruleDTrim_of_badLength (s := State.accepted { s with host := [] } .decode) hl hin
      ((stripLen_accepted s .decode l).trans hn) hlen
    exact ⟨_, run_decode_ends_in_dTrim hh hb hl htrim, rfl, rfl, rfl, rfl, rfl⟩
  · obtain ⟨hillegal, d, hd, hout⟩ := hbad.resolve_left hlen
    have hpos : 1 ≤ n := by
      obtain ⟨i, hi, -⟩ := hillegal
      omega
    have hpayload := (State.stripLen_le hn).1
    obtain ⟨t, hrun, hs, hat⟩ := run_decode_to_dFinal (fun i hi => hload i (by omega)) hh hb hl hin hn hpos hd hout
    have herr : t.err = true := hat.sticky.mpr (hs.inBuf ▸ hillegal)
    have hstep := (hs.step_eq (.dFinal hs.phase)).trans (ruleDFinal_of_err herr)
    rw [if_neg hlen]
    exact ⟨_, (run_add 1 hrun).trans (run_next 0 hstep), rfl, rfl, rfl, hs.inBuf, hs.srcLen⟩

/-! The open parameters. -/

/-- The three output lanes of a group of legal bytes (R121, R122). -/
theorem decChunk_getElem_of_legal (p q : Config.Params) (v : Lanes) {g k : Nat} (hg : g < 4) (hk : k < 3)
    (hlegal : ∀ j (_ : j < 4), legal v[4 * g + j] = true) : (decChunk p v)[3 * g + k] = (decChunk q v)[3 * g + k] := by
  have hvalue : ∀ j (_ : j < 4), laneValue p v[4 * g + j] = laneValue q v[4 * g + j] :=
    fun j hj => laneValue_of_legal p q _ (hlegal j hj)
  have hfirst : laneValue p v[4 * g] = laneValue q v[4 * g] := hvalue 0 (by decide)
  rw [decChunk_getElem p v g k hg hk, decChunk_getElem q v g k hg hk]
  simp only [hfirst, hvalue 1 (by decide), hvalue 2 (by decide), hvalue 3 (by decide)]

/-- Settles O26: legal bytes have one value, whatever the parameters. -/
theorem legalGroupsIgnoreTheParameters : Obligations.LegalGroupsIgnoreTheParameters :=
  fun p q v _ hg hlegal _ hk => decChunk_getElem_of_legal p q v hg hk hlegal

/-- The twelve data lanes of a window without an illegal byte. -/
theorem decChunk_getElem_of_flag (p q : Config.Params) {v : Lanes} (hflag : chunkFlag v = false) {j : Nat}
    (hj : j < 12) : (decChunk p v)[j] = (decChunk q v)[j] := by
  obtain ⟨g, k, hg, hk, rfl⟩ : ∃ g k, g < 4 ∧ k < 3 ∧ j = 3 * g + k := ⟨j / 3, j % 3, by omega⟩
  exact decChunk_getElem_of_legal p q v hg hk fun i hi => (chunkFlag_eq_false_iff v).mp hflag _ (by omega)

/-- The state `s` of a `DECODE` with other open parameters: `VOUT` and `OUT` are what may differ. -/
def State.varied (s : State) (x y : Config.OpenValue) (o : Option Lanes) (m : Memory) : State :=
  { s with params := { s.params with illegalSextet := x, decSlack := y }, vout := o, outBuf := m }

/-- What of `OUT` counts is the same in `m`: the data below `WR` while no illegal byte was met, the result below
`DST_LEN` (R35, R172). -/
structure SameResult (s : State) (m : Memory) : Prop where
  data : s.err = false → ∀ w, s.wr = some w → ∀ a < w, m.read a = s.outBuf.read a
  result : ∀ d, s.dstLen = some d → ∀ a < d, m.read a = s.outBuf.read a

/-- Two stores at the same place, of lanes that agree below `k`, over spaces that agree below it. -/
theorem read_writeLanes_agree {m n : Memory} {u v : Lanes} {w k : Nat} (hk : k ≤ 12)
    (hbelow : ∀ a < w, m.read a = n.read a) (hlanes : ∀ {j} (hj : j < 12), u[j] = v[j]) :
    ∀ a < w + k, (m.writeBytes w u.toList).read a = (n.writeBytes w v.toList).read a := by
  intro a ha
  rw [Memory.read_writeLanes, Memory.read_writeLanes]
  by_cases hstored : w ≤ a ∧ a < w + 16
  · rw [dif_pos hstored, dif_pos hstored, hlanes (by omega)]
  · rw [dif_neg hstored, dif_neg hstored, hbelow a (by omega)]

/-- A chunk of `k` data bytes decoded with other parameters: the lanes agree unless the flag is raised, and with it
`ERR`. -/
theorem SameResult.chunk {s t : State} {m : Memory} {v : Lanes} {w k : Nat} (h : SameResult s m) (hk : k ≤ 12)
    (hwr : s.wr = some w) (hdst : s.dstLen = none) (q : Config.Params)
    (herr : t.err = stickyErr s.err (chunkFlag v)) (hwr' : t.wr = some (w + k)) (hdst' : t.dstLen = s.dstLen)
    (hout : t.outBuf = s.outBuf.writeBytes w (decChunk s.params v).toList) :
    SameResult t (m.writeBytes w (decChunk q v).toList) where
  data := by
    intro hok e he
    obtain rfl := Option.some.inj (hwr'.symm.trans he)
    rw [herr, stickyErr, Bool.or_eq_false_iff] at hok
    rw [hout]
    exact read_writeLanes_agree hk (h.data hok.1 w hwr) fun hj => decChunk_getElem_of_flag q s.params hok.2 hj
  result := fun d hd => absurd ((hdst'.trans hdst).symm.trans hd) nofun

theorem sameResult_raise (s : State) (e : ErrCode) : SameResult (s.raise e) [] :=
  ⟨fun _ _ _ _ _ => rfl, fun _ _ _ _ => rfl⟩

section
variable {s t : State} {r : State → Out} {m : Memory} (h : SameResult s m) (x y : Config.OpenValue) (o : Option Lanes)
include h

theorem ruleDTrim_varied (hr : ruleDTrim s = .next t) :
    ∃ o' m', ruleDTrim (s.varied x y o m) = .next (t.varied x y o' m') ∧ SameResult t m' := by
  obtain ⟨l, hl, ⟨hrange, rfl⟩ | ⟨hin, n, hn, hcase⟩⟩ := ruleDTrim_cases hr
  · exact ⟨none, [], ruleDTrim_of_inMax_lt (s := s.varied x y o m) hl hrange, sameResult_raise _ _⟩
  have hstrip : (s.varied x y o m).stripLen l = some n := by
    cases l with
    | zero => exact hn
    | succ l => cases l <;> exact hn
  obtain ⟨hempty, rfl⟩ | ⟨hbad, rfl⟩ | ⟨hpos, -, d, hd, ⟨hrange, rfl⟩ | ⟨hout, rfl⟩⟩ := hcase
  · refine ⟨none, m, ruleDTrim_of_empty (s := s.varied x y o m) hl hin hstrip hempty, h.data, fun e he a ha => ?_⟩
    obtain rfl := Option.some.inj he
    exact absurd ha (Nat.not_lt_zero a)
  · exact ⟨none, [], ruleDTrim_of_badLength (s := s.varied x y o m) hl hin hstrip hbad, sameResult_raise _ _⟩
  · exact ⟨none, [], ruleDTrim_of_outMax_lt (s := s.varied x y o m) hl hin hstrip (Nat.ne_of_gt hpos) hd hrange,
      sameResult_raise _ _⟩
  · refine ⟨o, m, ruleDTrim_passes (s := s.varied x y o m) hl hin hstrip (Nat.ne_of_gt hpos) hd hout,
      fun _ w hw a ha => ?_, h.result⟩
    obtain rfl := Option.some.inj hw
    exact absurd ha (Nat.not_lt_zero a)

theorem ruleDFinal_varied (hr : ruleDFinal s = .next t) :
    ∃ o' m', ruleDFinal (s.varied x y o m) = .next (t.varied x y o' m') ∧ SameResult t m' := by
  obtain ⟨herr, rfl⟩ | ⟨herr, w, hwr, rfl⟩ := ruleDFinal_cases hr
  · exact ⟨none, [], ruleDFinal_of_err (s := s.varied x y o m) herr, sameResult_raise _ _⟩
  · refine ⟨none, m, ruleDFinal_of_ok (s := s.varied x y o m) herr hwr, h.data, fun d hd => ?_⟩
    obtain rfl := Option.some.inj hd
    exact h.data herr w hwr

theorem ruleDFast_varied (hdst : s.dstLen = none) (hr : ruleDFast s = .next t) :
    ∃ o' m', ruleDFast (s.varied x y o m) = .next (t.varied x y o' m') ∧ SameResult t m' := by
  obtain ⟨rd, n, hrd, hn, ⟨hexit, rfl⟩ | ⟨hle, w, cap, v, hwr, hcap, hv, hstore, rfl⟩⟩ := ruleDFast_cases hr
  · exact ⟨o, m, ruleDFast_exit (s := s.varied x y o m) hrd hn hexit, h.data, h.result⟩
  · exact ⟨_, _, ruleDFast_iteration (s := s.varied x y o m) hrd hn hle hwr hcap hstore hv,
      h.chunk (Nat.le_refl 12) hwr hdst _ rfl rfl rfl rfl⟩

theorem ruleDTail_varied (hdst : s.dstLen = none) (hr : ruleDTail s = .next t) :
    ∃ o' m', ruleDTail (s.varied x y o m) = .next (t.varied x y o' m') ∧ SameResult t m' := by
  obtain ⟨rd, n, hrd, hn, ⟨rfl, rfl⟩ | ⟨hlt, hle, w, cap, d, v, hwr, hcap, hd, hv, hstore, rfl⟩⟩ := ruleDTail_cases hr
  · exact ⟨o, m, ruleDTail_empty (s := s.varied x y o m) hrd hn, h.data, h.result⟩
  · obtain ⟨-, hd12⟩ := decLen_eq_some.mp hd
    exact ⟨_, _, ruleDTail_chunk (s := s.varied x y o m) hrd hn hlt hle hwr hcap hstore hd hv,
      h.chunk (by omega) hwr hdst _ rfl rfl rfl rfl⟩

theorem Fires.next_varied (f : Fires .decode s r) (hdst : s.dstLen = none) (hr : r s = .next t) :
    ∃ o' m', r (s.varied x y o m) = .next (t.varied x y o' m') ∧ SameResult t m' := by
  cases f with
  | dTrim => exact ruleDTrim_varied h x y o hr
  | dFast => exact ruleDFast_varied h x y o hdst hr
  | dTail => exact ruleDTail_varied h x y o hdst hr
  | dFinal => exact ruleDFinal_varied h x y o hr

end

/-- The phases of `DECODE` (R22). -/
def decodePhases : List Phase := [.dTrim, .dFast, .dTail, .dFinal]

theorem Fires.eq_decode {i : Instr} {s : State} {r : State → Out} (f : Fires i s r) (hp : s.phase ∈ decodePhases) :
    i = .decode := by
  cases f with
  | dTrim | dFast | dTail | dFinal => rfl
  | eCheck hq | eFast hq | eTail hq | eFinal hq | encchunk hq | decchunk hq | enclen hq | declen hq =>
    exact absurd (hq ▸ hp) (by decide)

/-- A command that goes on stays the command it is. -/
theorem GoesOn.phase_mem_decodePhases {s t : State} (h : GoesOn s t) (hp : s.phase ∈ decodePhases) :
    t.phase ∈ decodePhases :=
  have all : ∀ x ∈ movesOn, x.1 ∈ decodePhases → x.2 ∈ decodePhases := by decide
  all _ h.phase hp

/-- A run of one step or more begins with a step. -/
theorem run_succ_eq_next {s t : State} {k : Nat} (h : Host.Core.run Sys2Proof.core (k + 1) s = .next t) :
    ∃ u, step s = .next u ∧ Host.Core.run Sys2Proof.core k u = .next t := by
  cases hs : step s with
  | next u => exact ⟨u, rfl, (run_next k hs).symm.trans h⟩
  | fault f =>
    have hs' : Sys2Proof.core.step s = .fault f := hs
    simp [Host.Core.run, hs'] at h
  | refused e =>
    have hs' : Sys2Proof.core.step s = .refused e := hs
    simp [Host.Core.run, hs'] at h

/-- R172: a run of `DECODE`, and of the idle block after it, with other open parameters. -/
theorem run_varied (k : Nat) {s t : State} {m : Memory} (x y : Config.OpenValue) (o : Option Lanes) (hh : s.host = [])
    (hrun : s.busy = true → s.phase ∈ decodePhases ∧ s.dstLen = none) (h : SameResult s m)
    (hk : Host.Core.run Sys2Proof.core k s = .next t) :
    ∃ o' m', Host.Core.run Sys2Proof.core k (s.varied x y o m) = .next (t.varied x y o' m') ∧ SameResult t m' := by
  induction k generalizing s m o with
  | zero =>
    cases hk
    exact ⟨o, m, rfl, h⟩
  | succ k ih =>
    obtain ⟨u, hstep, hu⟩ := run_succ_eq_next hk
    cases hb : s.busy with
    | false =>
      obtain rfl : s = u := Host.Outcome.next.inj ((step_of_idle hh hb).symm.trans hstep)
      rw [run_next k (step_of_idle (s := s.varied x y o m) hh hb)]
      exact ih o hh hrun h hu
    | true =>
      obtain ⟨hp, hdst⟩ := hrun hb
      obtain ⟨i, r, hf, hr⟩ := step_cases_of_busy hh hb hstep
      obtain rfl := hf.eq_decode hp
      obtain ⟨o', m', hr', h'⟩ := hf.next_varied h x y o hdst hr
      rw [run_next k ((step_fires (s := s.varied x y o m) hh hb (hf.congr rfl rfl)).trans hr')]
      refine ih o' ((hf.frame hr).host.trans hh) (fun hbu => ?_) h' hu
      obtain hon | hend := hf.goesOn_or_ends hr
      · exact ⟨hon.phase_mem_decodePhases hp, hon.dstLen.trans hdst⟩
      · exact absurd (hbu.symm.trans hend.busy_eq) nofun

/-- Settles O59: acceptance leaves both blocks with the same empty result, and each step keeps what counts of it. -/
theorem decodeIgnoresTheOpenParameters : Obligations.DecodeIgnoresTheOpenParameters := by
  intro s t l n x y hh hb hl _ hn hrun _
  obtain ⟨k, rfl⟩ := Nat.exists_eq_add_of_le' hn
  have haccept : step s = .next (State.accepted { s with host := [] } .decode) := step_accepts hh hb hl
  have haccept' : step { s with params := { s.params with illegalSextet := x, decSlack := y } } =
      .next ((State.accepted { s with host := [] } .decode).varied x y none []) :=
    step_accepts (i := .decode) hh hb hl
  rw [run_next k haccept] at hrun
  rw [run_next k haccept']
  obtain ⟨o, m, hrun', hsame⟩ := run_varied k x y none rfl (fun _ => ⟨(by decide : Phase.dTrim ∈ decodePhases), rfl⟩)
    ⟨fun _ _ _ _ _ => rfl, fun _ _ _ _ => rfl⟩ hrun
  exact ⟨_, hrun', rfl, rfl, hsame.result⟩

end Sys2Proof.Machine

/-! PROOFS. Command words and the kernels in numbers (30_encoding.md R71, R72, R75, 41_chunk_encoder.md R102, R108,
42_chunk_decoder.md R121). -/

namespace Sys2Proof

/-- Settles O2: the only word that decodes to a command is the encoder's. -/
theorem encodeAndDecodeAgree : Obligations.EncodeAndDecodeAgree :=
  have hdecode (i : Instr) : decode (encode i) = .ok i := (decode_eq_ok_iff (encode i) i).mpr rfl
  ⟨fun i _ => ⟨hdecode i, hdecode i⟩, fun w i h => ((decode_eq_ok_iff w i).mp h).symm⟩

theorem toNat_wordRsv (w : BitVec 8) : (wordRsv w).toNat = w.toNat / 8 := by
  have hw := w.isLt
  rw [wordRsv, BitVec.extractLsb'_toNat, Nat.shiftRight_eq_div_pow]
  omega

theorem toNat_wordOpc (w : BitVec 8) : (wordOpc w).toNat = w.toNat % 8 := by
  rw [wordOpc, BitVec.extractLsb'_toNat, Nat.shiftRight_zero]

/-- R75: of the opcodes only 6 and 7 are reserved. -/
theorem commandOf_isError_iff (o : BitVec 3) : (∃ e, commandOf o = .error e) ↔ 6 ≤ o.toNat := by
  rw [commandOf]
  split
  case h_7 =>
    simp only [imp_false] at *
    exact ⟨fun _ => by omega, fun _ => ⟨_, rfl⟩⟩
  all_goals exact ⟨fun ⟨_, h⟩ => absurd h nofun, fun h => by omega⟩

theorem decode_isError_iff (w : BitVec 8) : (∃ e, decode w = .error e) ↔ wordRsv w ≠ 0#5 ∨ 6 ≤ (wordOpc w).toNat := by
  rw [decode, ← commandOf_isError_iff]
  by_cases hrsv : wordRsv w = 0#5
  · simp [hrsv]
  · simp [hrsv]

/-- The two fields are the word's quotient and remainder by 8. -/
theorem wordRsv_eq_zero_iff (w : BitVec 8) : wordRsv w = 0#5 ↔ w.toNat < 8 := by
  have hquot : wordRsv w = 0#5 ↔ w.toNat / 8 = 0 := by rw [← toNat_wordRsv, BitVec.toNat_eq]; rfl
  rw [hquot]
  omega

theorem wordWellFormed_eq (w : BitVec 8) : wordWellFormed w = decide (w.toNat < 6) := by
  have hform : wordWellFormed w = true ↔ wordRsv w = 0#5 ∧ (wordOpc w).toNat ≤ 5 := by
    simp [wordWellFormed, wordRsv, wordOpc]
  rw [wordRsv_eq_zero_iff, toNat_wordOpc] at hform
  rw [Bool.eq_iff_iff, hform, decide_eq_true_iff]
  omega

/-- Settles O3: by the fields as numbers; of the 256 words the first six are legal. -/
theorem illegalWordsAreTheReservedOnes : Obligations.IllegalWordsAreTheReservedOnes := by
  refine ⟨fun w => ⟨decode_isError_iff w, ?_⟩, ?_⟩
  · rw [decode_isError_iff, ne_eq, wordRsv_eq_zero_iff, toNat_wordOpc]
    omega
  · have hlegal : ((List.range 6).filter fun n => !wordWellFormed (BitVec.ofNat 8 n)) = [] := by decide
    have hillegal : (((List.range 250).map (6 + ·)).filter fun n => !wordWellFormed (BitVec.ofNat 8 n)) =
        (List.range 250).map (6 + ·) :=
      List.filter_eq_self.mpr fun n hn => by
        obtain ⟨k, hk, rfl⟩ := List.mem_map.mp hn
        have hlt : k < 250 := List.mem_range.mp hk
        have hsix : ¬ 6 + k < 6 := by omega
        rw [wordWellFormed_eq, BitVec.toNat_ofNat, Nat.mod_eq_of_lt (by omega), decide_eq_false hsix, Bool.not_false]
    rw [show 256 = 6 + 250 from rfl, List.range_add, List.filter_append, hlegal, hillegal, List.nil_append,
      List.length_map, List.length_range]

end Sys2Proof

namespace Sys2Proof.Machine

/-- The 24-bit value of three bytes (R102). -/
theorem toNat_append_bytes (b0 b1 b2 : Byte) :
    (b0 ++ b1 ++ b2).toNat = b0.toNat * 65536 + b1.toNat * 256 + b2.toNat := by
  have h1 := b1.isLt
  have h2 := b2.isLt
  rw [BitVec.toNat_append, BitVec.toNat_append, ← Nat.shiftLeft_add_eq_or_of_lt h2, ← Nat.shiftLeft_add_eq_or_of_lt h1,
    Nat.shiftLeft_eq, Nat.shiftLeft_eq]
  omega

/-- R102: the sextets are the four fields of the 24-bit value, bit by bit. -/
theorem sextets_getElem_eq_extract (b0 b1 b2 : Byte) {j : Nat} (hj : j < 4) :
    (sextets b0 b1 b2)[j] = (b0 ++ b1 ++ b2).extractLsb' (18 - 6 * j) 6 := by
  refine BitVec.eq_of_getElem_eq fun i hi => ?_
  rw [BitVec.getElem_extractLsb', BitVec.getLsbD_append, BitVec.getLsbD_append]
  obtain rfl | rfl | rfl | rfl : j = 0 ∨ j = 1 ∨ j = 2 ∨ j = 3 := by omega
  all_goals
    obtain rfl | rfl | rfl | rfl | rfl | rfl : i = 0 ∨ i = 1 ∨ i = 2 ∨ i = 3 ∨ i = 4 ∨ i = 5 := by omega
    all_goals simp [sextets]

/-- R102 in numbers. -/
theorem toNat_sextets_getElem (b0 b1 b2 : Byte) {j : Nat} (hj : j < 4) : (sextets b0 b1 b2)[j].toNat =
    (b0.toNat * 65536 + b1.toNat * 256 + b2.toNat) / 2 ^ (18 - 6 * j) % 64 := by
  rw [sextets_getElem_eq_extract b0 b1 b2 hj, BitVec.extractLsb'_toNat, toNat_append_bytes, Nat.shiftRight_eq_div_pow]

/-- Settles O20: the numbers of `Pack` follow from those of `Sextets`, which gives the four sextets back. -/
theorem sextetsAndPackSplitTheSame24Bits : Obligations.SextetsAndPackSplitTheSame24Bits := by
  refine ⟨fun b0 b1 b2 => ⟨toNat_sextets_getElem b0 b1 b2 (j := 0) (by decide),
    toNat_sextets_getElem b0 b1 b2 (j := 1) (by decide), toNat_sextets_getElem b0 b1 b2 (j := 2) (by decide), ?_,
    pack_sextets b0 b1 b2⟩, fun v0 v1 v2 v3 => ⟨sextets_pack v0 v1 v2 v3, ?_⟩⟩
  · have hlast := toNat_sextets_getElem b0 b1 b2 (j := 3) (by decide)
    simpa using hlast
  · have hnum {j : Nat} (hj : j < 4) := toNat_sextets_getElem (pack v0 v1 v2 v3)[0] (pack v0 v1 v2 v3)[1]
      (pack v0 v1 v2 v3)[2] hj
    simp only [sextets_pack] at hnum
    have h0 : v0.toNat = _ := hnum (j := 0) (by decide)
    have h1 : v1.toNat = _ := hnum (j := 1) (by decide)
    have h2 : v2.toNat = _ := hnum (j := 2) (by decide)
    have h3 : v3.toNat = _ := hnum (j := 3) (by decide)
    have hb0 := (pack v0 v1 v2 v3)[0].isLt
    have hb1 := (pack v0 v1 v2 v3)[1].isLt
    have hb2 := (pack v0 v1 v2 v3)[2].isLt
    omega

/-- Settles O24: the lanes are the text of the `k` bytes, whose sextets past `EncLen k` are 0. -/
theorem encoderTailLanes : Obligations.EncoderTailLanes := by
  intro m v k hpos hk hreal hfill j hj
  have hraw : ∀ i (_ : i < 16), i < 12 → v[i] = rawByte m k (0 + i) := fun i hi h12 => by
    have hlane := window_lane_eq_rawByte (m := m) (v := v) (r := 0) (k := k)
      (fun i hi hik => by rw [Nat.zero_add, hreal i hi hik]) (fun i hi _ hki => hfill i hi hki) i hi h12
    rwa [Nat.zero_add k] at hlane
  have htext : (encChunk v)[j] = textSymbol m k (0 + j) := encChunk_getElem_eq_textSymbol rfl hraw hj
  rw [Nat.zero_add] at htext
  refine ⟨fun _ => htext, fun hle => ?_⟩
  rw [htext, textSymbol_eq_sym, textSextet_of_le hle]
  rfl

end Sys2Proof.Machine

/-! PROOFS. Steps, host accesses, the end of a command and reset (45_host_interface.md R175 to R182, 60_exceptions.md
R198, 70_reset_and_hazards.md R215, R216). -/

namespace Sys2Proof.Machine

theorem cmdWrite_of_command {w : BitVec 8} {s : State} {i : Instr} (hb : s.busy = false) (hd : decode w = .ok i) :
    cmdWrite w s = exec i s := by
  simp [cmdWrite, hb, hd]

/-- Settles O4: the write reaches `CMD`, which decodes it. -/
theorem stepRunsTheDecodedCommand : Obligations.StepRunsTheDecodedCommand := fun s _ rest _ hh hb hd =>
  (step_writesCmd hh).trans (cmdWrite_of_command (s := { s with host := rest }) hb hd)

/-- R22: the phases of `ENCODE` name it. -/
theorem running_encode {s : State} (hp : s.phase ∈ [.eCheck, .eFast, .eTail, .eFinal]) : s.running = some .encode := by
  simp only [List.mem_cons, List.not_mem_nil, or_false] at hp
  obtain hp | hp | hp | hp := hp
  all_goals simp only [State.running, hp]

/-- R22: the phases of `DECODE` name it. -/
theorem running_decode {s : State} (hp : s.phase ∈ [.dTrim, .dFast, .dTail, .dFinal]) : s.running = some .decode := by
  simp only [List.mem_cons, List.not_mem_nil, or_false] at hp
  obtain hp | hp | hp | hp := hp
  all_goals simp only [State.running, hp]

/-- Settles O5: whose turn it is, by the event; and which rule fires names the command. -/
theorem stepRunsTheRunningCommand : Obligations.StepRunsTheRunningCommand := by
  refine ⟨fun s i hb hi => ⟨fun hh => ?_, fun rest hh => ?_, fun rest hh => ?_⟩,
    fun s => ⟨running_encode, running_decode, fun hp ho => (Fires.encchunk hp ho).running,
      fun hp ho => (Fires.decchunk hp ho).running, fun hp ho => (Fires.enclen hp ho).running,
      fun hp ho => (Fires.declen hp ho).running, fun hb => ⟨fun hh => ?_, fun rest hh => ?_⟩⟩⟩
  · rw [step_eq_sequencerTurn hh, sequencerTurn_of_running hb hi]
  · rw [step_takes_wait hh, hostWait, if_pos hb, sequencerTurn_of_running hb hi]
  · exact (step_takes_sequencer hh).trans (sequencerTurn_of_running (s := { s with host := rest }) hb hi)
  · exact step_of_idle hh hb
  · exact (step_takes_sequencer hh).trans (sequencerTurn_of_idle (s := { s with host := rest }) hb)

/-- A table word of eight bits is one byte. -/
theorem tableBytes_eight (w : Nat) : tableBytes 8 w = [BitVec.ofNat 8 w] := rfl

theorem decode_of_tableWord {w : Nat} {i : Instr} (h : decodeTableWord 8 w = some i) :
    decode (BitVec.ofNat 8 w) = .ok i := by
  rw [decodeTableWord, tableBytes_eight, decodeBytes] at h
  split at h
  · obtain rfl := Option.some.inj h
    assumption
  · exact nomatch h

/-- R177: an idle command is accepted where `SRC_LEN` holds what it asks for. -/
theorem exec_accepts {s : State} {i : Instr} (hb : s.busy = false) (hlen : takesLength i = true → s.srcLen ≠ none) :
    exec i s = .next (s.accepted i) := by
  rw [exec_idle i hb]
  obtain ⟨haccept, -⟩ | ⟨-, htakes, hnone⟩ := accept_cases i s
  · exact haccept
  · exact absurd hnone (hlen htakes)

theorem lengthFor_ne_none {w : BitVec 8} {i : Instr} (hd : decode w = .ok i) (htakes : takesLength i = true)
    (r : Option Nat) : lengthFor w r ≠ none := by
  simp [lengthFor, hd, htakes]

/-- Settles O6: the placed write finds the block idle, and `SRC_LEN` holds what acceptance asks for. -/
theorem placedWordRunsNext : Obligations.PlacedWordRunsNext := by
  intro s w i h
  have hd := decode_of_tableWord h
  have hidle := State.placeWord_busy s (BitVec.ofNat 8 w)
  have hexec : step (s.withFetchWord 8 w) = exec i { s.withFetchWord 8 w with host := s.host } :=
    stepRunsTheDecodedCommand _ _ s.host i (State.placeWord_host s _) hidle hd
  exact ⟨hexec, hexec.trans (exec_accepts hidle fun htakes => lengthFor_ne_none hd htakes _)⟩

/-! Host accesses that are admitted (R175). -/

section
variable {s : State}

theorem hostAccess_writeSrcLen {n : Nat} (hb : s.busy = false) (hn : n < 2 ^ s.params.aw) :
    hostAccess (.writeReg 2 n) s = .next { s with srcLen := some n } := by
  simp [hostAccess, hostReg, writeReg, hb, hn]

theorem hostAccess_writeIn {a : Nat} {b : Byte} (hb : s.busy = false) (ha : a < s.params.inMax) :
    hostAccess (.writeIn a b) s = .next { s with inBuf := s.inBuf.write a b } := by
  simp [hostAccess, hb, ha]

theorem hostAccess_readSrcLen {n : Nat} (hb : s.busy = false) (hn : s.srcLen = some n) :
    hostAccess (.readReg 2) s = .next (s.reply (.reg 2 n)) := by
  simp [hostAccess, hostReg, readReg, readLength, regNumber, hb, hn]

theorem hostAccess_readDstLen {d : Nat} (hb : s.busy = false) (hdone : s.done = true) (hd : s.dstLen = some d) :
    hostAccess (.readReg 3) s = .next (s.reply (.reg 3 d)) := by
  simp [hostAccess, hostReg, readReg, readLength, regNumber, hb, hdone, hd]

theorem hostAccess_readIn {a : Nat} {b : Byte} (hb : s.busy = false) (ha : a < s.params.inMax)
    (hread : s.inBuf.read a = some b) : hostAccess (.readIn a) s = .next (s.reply (.inByte a b)) := by
  simp [hostAccess, hb, ha, hread]

theorem hostAccess_readOut {a : Nat} {b : Byte} (hreadable : s.outReadable a = true)
    (hread : s.outBuf.read a = some b) : hostAccess (.readOut a) s = .next (s.reply (.outByte a b)) := by
  simp [hostAccess, hreadable, hread]

end

/-- Settles O11: each of the four accesses is admitted, and does what R180 says. -/
theorem hostWritesOnlyTheLocationWritten : Obligations.HostWritesOnlyTheLocationWritten := by
  intro s rest hb
  refine ⟨fun n hh hn => ?_, fun a b hh ha => ⟨s.inBuf.write a b, ?_, fun c => Memory.read_write _ _ _ _⟩,
    fun n hh hn => ?_, fun a b hh ha hread => ?_⟩
  · exact (step_takes_access hh).trans (hostAccess_writeSrcLen (s := { s with host := rest }) hb hn)
  · exact (step_takes_access hh).trans (hostAccess_writeIn (s := { s with host := rest }) hb ha)
  · exact (step_takes_access hh).trans (hostAccess_readSrcLen (s := { s with host := rest }) hb hn)
  · exact (step_takes_access hh).trans (hostAccess_readIn (s := { s with host := rest }) hb ha hread)

/-- Settles O13: a read of `STATUS` has no condition. -/
theorem statusReadChangesNothing : Obligations.StatusReadChangesNothing := by
  intro s rest h
  refine ⟨fun hh => ?_, h.status_of_busy, fun hb hh => ?_⟩
  · rw [step_takes_access hh]
    rfl
  · rw [step_takes_wait hh, hostWait, hb, if_neg Bool.false_ne_true]
    rfl

/-- Settles O12: the invariant says where the result stands, and the reads of it are admitted. -/
theorem resultReadsFindTheResult : Obligations.ResultReadsFindTheResult := by
  intro s rest h hb hdone
  obtain ⟨d, hd⟩ := h.result.length hdone
  refine ⟨d, hd, fun hh => ?_, fun herr ⟨o, ho, hop⟩ a ha => ?_⟩
  · exact (step_takes_access hh).trans (hostAccess_readDstLen (s := { s with host := rest }) hb hdone hd)
  · have hwrote : s.wroteOut = true := by rw [State.wroteOut_eq ho, decide_eq_true hop]
    have hreadable : s.outReadable a = true := by simp [State.outReadable, hb, hdone, herr, hwrote, hd, ha]
    obtain ⟨b, hread⟩ := h.result.written hdone herr hwrote d hd a ha
    refine ⟨b, hread, fun hh => ?_⟩
    exact (step_takes_access hh).trans (hostAccess_readOut (s := { s with host := rest }) hreadable hread)

/-! Host accesses that are not admitted (R175). -/

/-- R175: while a command runs the host may write `CMD` and read `STATUS`, nothing else. -/
theorem hostAccess_refused_of_busy {s : State} {x : HostAccess} (hb : s.busy = true) (hcmd : ∀ v, x ≠ .writeReg 0 v)
    (hstatus : x ≠ .readReg 1) : ∃ r, hostAccess x s = .refused r := by
  cases x with
  | writeReg i v =>
    match i with
    | 0 => exact absurd rfl (hcmd v)
    | 1 | 3 | _ + 4 => exact ⟨_, rfl⟩
    | 2 => exact ⟨.accessNotAdmitted, by simp [hostAccess, hostReg, writeReg, hb]⟩
  | readReg i =>
    match i with
    | 1 => exact absurd rfl hstatus
    | 0 | _ + 4 => exact ⟨_, rfl⟩
    | 2 | 3 =>
      refine ⟨.accessNotAdmitted, ?_⟩
      simp only [hostAccess, hostReg, readReg, readLength, hb]
      split <;> rfl
  | writeIn a b => exact ⟨.accessNotAdmitted, by simp [hostAccess, hb]⟩
  | readIn a =>
    refine ⟨.accessNotAdmitted, ?_⟩
    simp only [hostAccess, hb]
    split <;> rfl
  | writeOut a b => exact ⟨_, rfl⟩
  | readOut a =>
    refine ⟨.accessNotAdmitted, ?_⟩
    simp only [hostAccess, State.outReadable, hb]
    split <;> rfl

/-- R181: a read of `OUT` is admitted where the last command left a result. -/
theorem outReadable_eq_false {s : State} {a : Nat} (h : s.done = false ∨ s.errc ≠ 0#3 ∨ s.wroteOut = false ∨
    ∀ d, s.dstLen = some d → d ≤ a) : s.outReadable a = false := by
  obtain h | h | h | h := h
  · simp [State.outReadable, h]
  · simp [State.outReadable, h]
  · simp [State.outReadable, h]
  · cases hd : s.dstLen with
    | none => simp [State.outReadable, hd]
    | some d => simp [State.outReadable, hd, h d hd]

section
variable {s : State}

theorem hostAccess_wideCmd {v : Nat} (hv : 256 ≤ v) : hostAccess (.writeReg 0 v) s = .refused .accessNotAdmitted := by
  simp [hostAccess, hostReg, writeReg, Nat.not_lt_of_le hv]

theorem hostAccess_wideSrcLen {v : Nat} (hv : 2 ^ s.params.aw ≤ v) :
    hostAccess (.writeReg 2 v) s = .refused .accessNotAdmitted := by
  simp [hostAccess, hostReg, writeReg, Nat.not_lt_of_le hv]

theorem hostReg_eq_none {i : Nat} (hi : 4 ≤ i) : hostReg i = none := by
  obtain ⟨k, rfl⟩ := Nat.exists_eq_add_of_le' hi
  rfl

theorem hostAccess_writeIn_beyond {a : Nat} {b : Byte} (ha : s.params.inMax ≤ a) :
    hostAccess (.writeIn a b) s = .refused .accessNotAdmitted := by
  simp [hostAccess, Nat.not_lt_of_le ha]

theorem hostAccess_readIn_refused {a : Nat} (ha : s.params.inMax ≤ a ∨ s.inBuf.read a = none) :
    hostAccess (.readIn a) s = .refused .accessNotAdmitted := by
  cases hread : s.inBuf.read a with
  | none => simp [hostAccess, hread]
  | some b =>
    have hout : s.params.inMax ≤ a := ha.resolve_right (hread ▸ nofun)
    simp [hostAccess, hread, Nat.not_lt_of_le hout]

theorem hostAccess_readSrcLen_none (hn : s.srcLen = none) :
    hostAccess (.readReg 2) s = .refused .accessNotAdmitted := by
  simp [hostAccess, hostReg, readReg, readLength, hn]

theorem hostAccess_readDstLen_notDone (hdone : s.done = false) :
    hostAccess (.readReg 3) s = .refused .accessNotAdmitted := by
  cases hd : s.dstLen with
  | none => simp [hostAccess, hostReg, readReg, readLength, hd]
  | some d => simp [hostAccess, hostReg, readReg, readLength, hd, hdone]

theorem hostAccess_readOut_refused {a : Nat} (ha : s.outReadable a = false) :
    hostAccess (.readOut a) s = .refused .accessNotAdmitted := by
  cases hread : s.outBuf.read a with
  | none => simp [hostAccess, hread]
  | some b => simp [hostAccess, hread, ha]

end

/-- Settles O10: the refusal of each access, by the table of R175. -/
theorem unadmittedAccessHasNoMeaning : Obligations.UnadmittedAccessHasNoMeaning := by
  intro s x rest hh h
  rw [step_takes_access hh]
  obtain ⟨hb, hcmd, hstatus⟩ | ⟨v, rfl | rfl⟩ | rfl | ⟨i, v, hi, rfl | rfl⟩ | ⟨a, b, rfl⟩ | ⟨v, hv, rfl⟩ |
    ⟨v, hv, rfl⟩ | ⟨a, b, ha, rfl⟩ | ⟨a, ha, rfl⟩ | ⟨rfl, hnone⟩ | ⟨rfl, hdone⟩ | ⟨a, rfl, hout⟩ := h
  · exact hostAccess_refused_of_busy (s := { s with host := rest }) hb hcmd hstatus
  · exact ⟨_, rfl⟩
  · exact ⟨_, rfl⟩
  · exact ⟨_, rfl⟩
  · exact ⟨.noSuchRegister, by simp only [hostAccess, hostReg_eq_none hi]⟩
  · exact ⟨.noSuchRegister, by simp only [hostAccess, hostReg_eq_none hi]⟩
  · exact ⟨_, rfl⟩
  · exact ⟨_, hostAccess_wideCmd hv⟩
  · exact ⟨_, hostAccess_wideSrcLen (s := { s with host := rest }) hv⟩
  · exact ⟨_, hostAccess_writeIn_beyond (s := { s with host := rest }) ha⟩
  · exact ⟨_, hostAccess_readIn_refused (s := { s with host := rest }) ha⟩
  · exact ⟨_, hostAccess_readSrcLen_none (s := { s with host := rest }) hnone⟩
  · exact ⟨_, hostAccess_readDstLen_notDone (s := { s with host := rest }) hdone⟩
  · exact ⟨_, hostAccess_readOut_refused (s := { s with host := rest }) (outReadable_eq_false (s := s) hout)⟩

/-! The end of a command, and reset. -/

/-- Settles O15: the status word of `OK` with either value of the flag. -/
theorem completeEndsTheCommand : Obligations.CompleteEndsTheCommand := by
  intro s c
  cases c with
  | false => rfl
  | true => rfl

/-- Settles O16: the step is the reset itself, and an empty space reads as `NOVALUE`. -/
theorem resetPutsEveryRegisterAtItsValue : Obligations.ResetPutsEveryRegisterAtItsValue := by
  intro s rest hh
  exact ⟨_, step_takes_reset hh, rfl, rfl, rfl, rfl, rfl, rfl, rfl, rfl, rfl, rfl, rfl, rfl, rfl, rfl, rfl,
    Memory.read_nil, Memory.read_nil, rfl, rfl, rfl⟩

end Sys2Proof.Machine
